-- ==== Sys2Proof/Word.lean ====
section
/-! DEFINITION. The number types of the spec (00_scope.md R8, 10_state.md R20): bits, bytes, and the two
unsigned widths. Everything else that is a number (an index, a length, a capacity) is a `Nat`. -/

namespace Sys2Proof

/-- `Bit` (R20). -/
abbrev Bit := Bool
/-- `Byte` (R20). -/
abbrev Byte := BitVec 8
/-- `U16` (R20): a record's `distance` and `run_length`. -/
abbrev U16 := BitVec 16
/-- `U32` (R20), and a register (R34: "All registers are 32 bits wide"). -/
abbrev Word := BitVec 32

end Sys2Proof
end

