-- ==== Sys2Proof/Syntax.lean ====
section
/-! DEFINITION. The data the engine works on (symbols, records, trees, containers) and the whole instruction
syntax: one constructor of `Instr` per row of spec/opcode_table.json, the 18 command rows and the 5 data-format rows. -/

namespace Sys2Proof

/-- A text symbol (00_scope.md R10): one byte, or the three bytes of an extended symbol. Two symbols are equal exactly
when constructor and bytes are. -/
inductive Sym where
  | simple (b : Byte)
  | extended (b0 b1 b2 : Byte)
deriving DecidableEq, Repr, Inhabited

/-- `SENTINEL = S(0x00)` (R11). -/
abbrev sentinel : Sym := .simple 0

/-- A match record (10_state.md R21). Its `extended` flag is computed from the literal, as R21 allows. -/
structure Rec where
  distance  : U16
  runLength : U16
  literal   : Sym
deriving DecidableEq, Repr, Inhabited

/-- A prefix tree without weights and numbering: what is serialized (30_encoding.md R101). -/
inductive Tree where
  | leaf (value : Byte)
  | node (left right : Tree)
deriving DecidableEq, Repr, Inhabited

/-- A container (30_encoding.md R108, R112): the empty one, or tree, bit count and payload bytes (bytes after the
payload's `ceil(bitCount / 8)` are allowed, R114). -/
inductive Container where
  | empty
  | coded (tree : Tree) (bitCount : Word) (payload : List Byte)
deriving DecidableEq, Repr

/-- The rows of spec/opcode_table.json. The first eighteen are the commands of 30_encoding.md R92; the last five are the
data formats (R97, R101, R108), each standing for the host's act of presenting one datum in that format at the port of the
buffer that holds it (20_memory.md R61, R67, 30_encoding.md R95 `LOAD`; DESIGN CHOICE, notes/assumptions/1.md). -/
inductive Instr where
  | clr
  | find
  | tokenize
  | tenc (arg : BitVec 24)
  | tdec
  | b2y
  | y2b
  | pack
  | unpack
  | replay
  | hbuild
  | ctab
  | tser
  | tdes
  | epack
  | eunpack
  | compress
  | decompress
  | recSimple (distance runLength : U16) (b : Byte)
  | recExtended (distance runLength : U16) (b0 b1 b2 : Byte)
  | treeLeaf (v : Byte)
  | treeInternal
  | container (c : Container)
deriving DecidableEq, Repr

/-- By which way the bytes of an instruction reach the engine: the command register (R90), the record port of TOK
(R61), or the byte port of CON, for one tree node (R101) or a whole container (R108). -/
inductive Source where
  | command
  | record
  | treeNode
  | container
deriving DecidableEq, Repr

/-- Why a serialized tree does not parse (45_tree_serializer.md R236). -/
inductive TreeError where
  /-- a marker byte other than 0x00 and 0x01 -/
  | badMarker
  /-- a byte is needed and none is left -/
  | truncated
  /-- a node is needed and all `NODE_CAP` are taken -/
  | noRoom
deriving DecidableEq, Repr

/-- Why a payload does not decode (46_entropy.md R259 to R261). -/
inductive WalkError where
  /-- the root is a leaf and a payload bit is 1 -/
  | oneBit
  /-- the bits end inside a code -/
  | partialCode
  /-- the decoded byte has no room in PRE -/
  | noRoom
deriving DecidableEq, Repr

/-- Why bytes are not an instruction. `unknownOpcode` and `nonzeroArg` are the two sub-reasons of `IllegalCommand`
(60_exceptions.md R298); the others reject a datum that is not in the format it is presented as. -/
inductive DecodeError where
  | unknownOpcode
  | nonzeroArg
  | badLength
  | badMarker
  | badTree (e : TreeError)
  | headerTruncated
  | payloadTruncated
  | badPayload (e : WalkError)
deriving DecidableEq, Repr

end Sys2Proof
end

