-- ==== Sys2Proof/Config.lean ====
section
/-! DEFINITION. What an engine fixes (00_scope.md R7, OPEN in the spec) and the free values (10_state.md R42, R328;
60_exceptions.md R297). All are opaque constants without a body: no proof can see a value of one. -/

namespace Sys2Proof

/-- The parameters of one engine (R7). `NODE_CAP` is not among them: it is fixed. -/
structure Params where
  windowSize : Nat
  maxMatch   : Nat
  txtCap     : Nat
  tokCap     : Nat
  bitCap     : Nat
  preCap     : Nat
  conCap     : Nat
deriving DecidableEq, Repr

/-- The constraints of R7's table. -/
abbrev Params.Wf (c : Params) : Prop :=
  (1 ≤ c.windowSize ∧ c.windowSize ≤ 65535) ∧ (1 ≤ c.maxMatch ∧ c.maxMatch ≤ 65535) ∧
  c.txtCap < 2 ^ 32 ∧ c.tokCap < 2 ^ 24 ∧ c.bitCap < 2 ^ 32 ∧ c.preCap < 2 ^ 32 ∧ c.conCap < 2 ^ 32

/-- `NODE_CAP` (R7: "fixed, not open", 511). -/
abbrev nodeCap : Nat := 511

namespace Config

/-- The raw form of each OPEN parameter: exactly its range (a raw window or match length of 0 stands for 1). -/
opaque rawWindow : BitVec 16
opaque rawMatch : BitVec 16
opaque rawTxtCap : BitVec 32
opaque rawTokCap : BitVec 24
opaque rawBitCap : BitVec 32
opaque rawPreCap : BitVec 32
opaque rawConCap : BitVec 32

/-- The parameters of the engine that `State.reset` describes: nothing but R7's constraints is known of them. -/
def params : Params where
  windowSize := max 1 rawWindow.toNat
  maxMatch := max 1 rawMatch.toNat
  txtCap := rawTxtCap.toNat
  tokCap := rawTokCap.toNat
  bitCap := rawBitCap.toNat
  preCap := rawPreCap.toNat
  conCap := rawConCap.toNat

/-! Free values. The first argument is a seed (a value of `State.draw` at the time the thing became unspecified), the
second an index within what became unspecified. -/

/-- Unspecified elements of TXT, TOK, BIT, PRE, CON, NODE (R42). -/
opaque freeSym : Nat → Nat → Sym
opaque freeRec : Nat → Nat → Rec
opaque freeBit : Nat → Nat → Bit
opaque freePre : Nat → Nat → Byte
opaque freeCon : Nat → Nat → Byte
/-- An unspecified node: is it a leaf, its weight, its value, its children. -/
opaque freeNodeKind : Nat → Nat → Bool
opaque freeNodeWeight : Nat → Nat → Word
opaque freeNodeValue : Nat → Nat → Byte
opaque freeNodeLeft : Nat → Nat → BitVec 16
opaque freeNodeRight : Nat → Nat → BitVec 16
/-- Unspecified entries of CODE and FREQ after a fault (R297). -/
opaque freeCode : Nat → Nat → Option (List Bit)
opaque freeCount : Nat → Nat → Word
/-- Unspecified registers, flags and lengths after a fault (R297). -/
opaque freeWord : Nat → Nat → Word
opaque freeFlag : Nat → Nat → Bool

end Config

end Sys2Proof
end

