-- ==== Sys2Proof/Machine/Bits.lean ====
section
/-! DEFINITION. Bits, bytes and their two packings (00_scope.md R14, R15; 20_memory.md R62 to R65). -/

namespace Sys2Proof.Machine

/-- `lsb_bits(v, n)` (R14): least significant bit first. -/
def lsbBits (v n : Nat) : List Bit := (List.range n).map v.testBit

/-- `val_lsb(q)` (R14). -/
def valLsb : List Bit → Nat
  | [] => 0
  | b :: q => b.toNat + 2 * valLsb q

/-- `ceil(n / 8)`. -/
def ceil8 (n : Nat) : Nat := (n + 7) / 8

/-- The first `n` groups of eight of a sequence; the last may be shorter. -/
def groups8 {α : Type} : Nat → List α → List (List α)
  | 0, _ => []
  | n + 1, q => q.take 8 :: groups8 n (q.drop 8)

/-- One byte whose bit `m` is `c[m]`, 0 where `c` is shorter (R63). -/
def byteLsb (c : List Bit) : Byte := BitVec.ofNat 8 (valLsb (c.take 8))

/-- One byte whose bit `7 - m` is `c[m]`, 0 where `c` is shorter (R64). -/
def byteMsb (c : List Bit) : Byte :=
  byteLsb (c.take 8 ++ List.replicate (8 - c.length) false).reverse

/-- `bytes_lsb(q)` (R63). -/
def bytesLsb (q : List Bit) : List Byte := (groups8 (ceil8 q.length) q).map byteLsb

/-- `bits_lsb(y)` (R63). -/
def bitsLsb (y : List Byte) : List Bit := y.flatMap fun b => lsbBits b.toNat 8

/-- `bytes_msb(q)` (R64); the padding bits are 0. -/
def bytesMsb (q : List Bit) : List Byte := (groups8 (ceil8 q.length) q).map byteMsb

/-- The bits of `y`, most significant bit of each byte first: bit `k` is `msb_bit(y, k)` (R64). -/
def bitsMsb (y : List Byte) : List Bit := y.flatMap fun b => (lsbBits b.toNat 8).reverse

/-- `be32(v)` (R14). -/
def be32 (v : Word) : List Byte :=
  [v.extractLsb' 24 8, v.extractLsb' 16 8, v.extractLsb' 8 8, v.extractLsb' 0 8]

/-- The number whose `be32` is the four bytes (46_entropy.md R256). -/
def ofBe32 (y0 y1 y2 y3 : Byte) : Word :=
  BitVec.ofNat 32 (y0.toNat * 2 ^ 24 + y1.toNat * 2 ^ 16 + y2.toNat * 2 ^ 8 + y3.toNat)

/-- The `n` bytes of a number, least significant first. -/
def leBytes : Nat → Nat → List Byte
  | 0, _ => []
  | n + 1, w => BitVec.ofNat 8 w :: leBytes n (w / 256)

/-- The number whose bytes, least significant first, are `y`. -/
def ofLeBytes : List Byte → Nat
  | [] => 0
  | b :: y => b.toNat + 256 * ofLeBytes y

end Sys2Proof.Machine
end

