-- ==== Sys2Proof/Machine/Formats.lean ====
section
/-! DEFINITION. The data formats as functions on data, with no machine state: the record on the wire (30_encoding.md
R96 to R98, 41_token_codec.md R154 to R156), the serialized tree (R101, 45_tree_serializer.md R235 to R237), the
payload walk (46_entropy.md R259 to R261) and the container (R108). -/

namespace Sys2Proof.Machine

/-! ## The record -/

/-- `ext` (00_scope.md R10); the record's `extended` flag is `ext` of its literal (10_state.md R21). -/
def symExt : Sym → Bit
  | .simple _ => false
  | .extended _ _ _ => true

/-- `lit_bits` (R96): the bytes of the literal in order, each least significant bit first (20_memory.md R65). -/
def litBits : Sym → List Bit
  | .simple b => lsbBits b.toNat 8
  | .extended b0 b1 b2 => lsbBits b0.toNat 8 ++ lsbBits b1.toNat 8 ++ lsbBits b2.toNat 8

/-- `enc(r)` (R96, 41_token_codec.md R150). -/
def encRec (r : Rec) : List Bit :=
  lsbBits r.distance.toNat 16 ++ lsbBits r.runLength.toNat 16 ++ [symExt r.literal] ++ litBits r.literal

/-- `width(r)` (R97, R151). -/
def recWidth (r : Rec) : Nat := 41 + 16 * (symExt r.literal).toNat

/-- The `n` bits of `q` from bit `i` on, as an unsigned number; bits beyond the end of `q` read as 0 (R154, R156). -/
def bitField (q : List Bit) (i n : Nat) : Nat := valLsb ((q.drop i).take n)

/-- What a decode of one record gives: the record, `bits_consumed`, and whether the tag was truncated. -/
structure Decoded where
  record    : Rec
  consumed  : Nat
  truncated : Bool
deriving DecidableEq, Repr

/-- The truncated tag (R156): the two fields, missing bits 0; the literal is the sentinel; all bits are consumed. -/
def decTruncated (q : List Bit) : Decoded where
  record :=
    { distance := BitVec.ofNat 16 (bitField q 0 16), runLength := BitVec.ofNat 16 (bitField q 16 16), literal := sentinel }
  consumed := q.length
  truncated := true

/-- A whole record with literal `lit`, of `w` bits (R154). -/
def decWhole (q : List Bit) (lit : Sym) (w : Nat) : Decoded where
  record :=
    { distance := BitVec.ofNat 16 (bitField q 0 16), runLength := BitVec.ofNat 16 (bitField q 16 16), literal := lit }
  consumed := w
  truncated := false

/-- The literal of a whole record, by its bit 32 (R154). -/
def decLiteral (q : List Bit) : Bit → Sym
  | false => .simple (BitVec.ofNat 8 (bitField q 33 8))
  | true =>
    .extended (BitVec.ofNat 8 (bitField q 33 8)) (BitVec.ofNat 8 (bitField q 41 8)) (BitVec.ofNat 8 (bitField q 49 8))

/-- `dec` of the bits `q` that stand from the offset on (R154, R156): whole when bit 32 is there and all the bits that it
asks for are. -/
def decBits (q : List Bit) : Decoded :=
  match q[32]? with
  | none => decTruncated q
  | some e =>
    if 41 + 16 * e.toNat ≤ q.length then decWhole q (decLiteral q e) (41 + 16 * e.toNat)
    else decTruncated q

/-- `dec(q, o)` (R154, R156). -/
def dec (q : List Bit) (o : Nat) : Decoded := decBits (q.drop o)

/-! ## The tree -/

/-- Number of nodes of a tree. -/
def treeSize : Tree → Nat
  | .leaf _ => 1
  | .node l r => 1 + treeSize l + treeSize r

/-- `ser` (R101). -/
def serTree : Tree → List Byte
  | .leaf v => [0x01, v]
  | .node l r => 0x00 :: (serTree l ++ serTree r)

/-- One descent of `des` (R237): `used` nodes are taken already; answers the tree and the bytes after it. The checks come
in the order truncation, marker, arena space (60_exceptions.md R301). The fuel bounds the depth. -/
def parseTreeFrom : Nat → Nat → List Byte → Except TreeError (Tree × List Byte)
  | 0, _, _ => .error .noRoom
  | _ + 1, _, [] => .error .truncated
  | fuel + 1, used, m :: rest =>
    if m ≠ 0x00 ∧ m ≠ 0x01 then .error .badMarker
    else if nodeCap ≤ used then .error .noRoom
    else if m = 0x01 then
      match rest with
      | [] => .error .truncated
      | v :: rest => .ok (.leaf v, rest)
    else
      match parseTreeFrom fuel (used + 1) rest with
      | .error e => .error e
      | .ok (l, rest) =>
        match parseTreeFrom fuel (used + 1 + treeSize l) rest with
        | .error e => .error e
        | .ok (r, rest) => .ok (.node l r, rest)

/-- `des` at the top (R237). A descent at depth `d` has `d` nodes above it, so it never goes deeper than `NODE_CAP` and
the fuel never runs out. -/
def parseTree (y : List Byte) : Except TreeError (Tree × List Byte) := parseTreeFrom (nodeCap + 1) 0 y

/-! ## The payload -/

/-- The walk when the root is a leaf (R260): every 0 bit emits its value. `room` is what is left of PRE. -/
def walkLeaf (v : Byte) : List Bit → Nat → Except WalkError (List Byte)
  | [], _ => .ok []
  | true :: _, _ => .error .oneBit
  | false :: _, 0 => .error .noRoom
  | false :: q, room + 1 =>
    match walkLeaf v q room with
    | .ok y => .ok (v :: y)
    | .error e => .error e

/-- The walk from an internal node with children `l` and `r`, the root's children being `l0` and `r0` (R259): left on 0,
right on 1, emit and go back to the root at a leaf; the walk must end at the root (R261). -/
def walkNode (l0 r0 : Tree) : List Bit → Tree → Tree → Bool → Nat → Except WalkError (List Byte)
  | [], _, _, atRoot, _ => if atRoot then .ok [] else .error .partialCode
  | b :: q, l, r, _, room =>
    match (if b then r else l), room with
    | .node l' r', room => walkNode l0 r0 q l' r' false room
    | .leaf _, 0 => .error .noRoom
    | .leaf v, room + 1 =>
      match walkNode l0 r0 q l0 r0 true room with
      | .ok y => .ok (v :: y)
      | .error e => .error e

/-- The bytes that the bits `q` spell in the tree (R259 to R261). -/
def walkPayload (t : Tree) (q : List Bit) (room : Nat) : Except WalkError (List Byte) :=
  match t with
  | .leaf v => walkLeaf v q room
  | .node l r => walkNode l r q l r true room

/-! ## The container -/

/-- The bytes of a container (R108, R112). -/
def containerBytes : Container → List Byte
  | .empty => []
  | .coded t b y => serTree t ++ be32 b ++ y

/-- The container that bytes spell, R114's checks but the walk's: the tree, four bytes of bit count, enough payload. -/
def parseContainer (y : List Byte) : Except DecodeError Container :=
  match y with
  | [] => .ok .empty
  | y =>
    match parseTree y with
    | .error e => .error (.badTree e)
    | .ok (t, b0 :: b1 :: b2 :: b3 :: payload) =>
      if ceil8 (ofBe32 b0 b1 b2 b3).toNat ≤ payload.length then .ok (.coded t (ofBe32 b0 b1 b2 b3) payload)
      else .error .payloadTruncated
    | .ok _ => .error .headerTruncated

/-- The walk of R114: the first `bitCount` bits of the payload decode. -/
def walkContainer : Container → Except WalkError (List Byte)
  | .empty => .ok []
  | .coded t b y => walkPayload t ((bitsMsb y).take b.toNat) b.toNat

end Sys2Proof.Machine
end

