-- ==== Sys2Proof/WellFormed.lean ====
section
/-! DEFINITION. Well-formed instructions. A command has no ill-formed term (its one operand is a 24-bit index, R91), nor
has a record (R98) or a tree node (R102); a container is well formed when it meets 30_encoding.md R114. -/

namespace Sys2Proof

/-- R114: the tree fits the arena, the payload is there, and the walk of `bitCount` bits ends at the root (with only 0
bits when the root is a leaf). -/
def Container.wellFormed : Container → Bool
  | .empty => true
  | .coded t b y =>
    decide (Machine.treeSize t ≤ nodeCap) && decide (Machine.ceil8 b.toNat ≤ y.length) &&
      (Machine.walkContainer (.coded t b y)).isOk

/-- Every term but an ill-formed container is well formed. -/
def Instr.wellFormed : Instr → Bool
  | .container c => c.wellFormed
  | .clr | .find | .tokenize | .tenc _ | .tdec | .b2y | .y2b | .pack | .unpack | .replay | .hbuild | .ctab | .tser
  | .tdes | .epack | .eunpack | .compress | .decompress | .recSimple _ _ _ | .recExtended _ _ _ _ _ | .treeLeaf _
  | .treeInternal => true

end Sys2Proof
end

