-- ==== Sys2Proof/Decode.lean ====
section
/-! DEFINITION. The decoder, total on any bytes and rejecting by name, and the encoder (30_encoding.md R90 to R93 for the
command word, R96 and 20_memory.md R61 for a record, R101 for a tree node, R108 and R114 for a container). -/

namespace Sys2Proof

/-- The format-`N` rows of R92's opcode map. -/
def opcodeMap : List (Byte × Instr) :=
  [(0x01, .clr), (0x10, .find), (0x11, .tokenize), (0x21, .tdec), (0x22, .b2y), (0x23, .y2b), (0x24, .pack),
   (0x25, .unpack), (0x28, .replay), (0x30, .hbuild), (0x31, .ctab), (0x32, .tser), (0x33, .tdes), (0x34, .epack),
   (0x35, .eunpack), (0x40, .compress), (0x41, .decompress)]

/-- `TENC`, the one format-`I` row of R92. -/
def tencOpcode : Byte := 0x20

/-- A command word (R90 to R93, R298): the opcode is checked first, then, for format `N`, that bits 31 to 8 are 0. -/
def decodeWord (w : Word) : Except DecodeError Instr :=
  let op : Byte := w.extractLsb' 0 8
  let arg : BitVec 24 := w.extractLsb' 8 24
  if op = tencOpcode then .ok (.tenc arg)
  else
    match opcodeMap.lookup op with
    | none => .error .unknownOpcode
    | some i => if arg = 0 then .ok i else .error .nonzeroArg

/-- A record as the port of TOK carries it (R61): the bits of the wire form, bit 0 first; with `extended` 0 the bits above
bit 40 are ignored. -/
def decodeRecord (y : List Byte) : Except DecodeError Instr :=
  let q := Machine.bitsLsb y
  let d : U16 := BitVec.ofNat 16 (Machine.bitField q 0 16)
  let l : U16 := BitVec.ofNat 16 (Machine.bitField q 16 16)
  if y.length ≠ 6 ∧ y.length ≠ 8 then .error .badLength
  else
    match Machine.decLiteral q (q[32]?.getD false) with
    | .simple b => .ok (.recSimple d l b)
    | .extended b0 b1 b2 => if y.length = 8 then .ok (.recExtended d l b0 b1 b2) else .error .badLength

/-- One serialized node (R101, R102). -/
def decodeTreeNode : List Byte → Except DecodeError Instr
  | [] => .error .badLength
  | m :: y =>
    if m = 0x00 then (if y = [] then .ok .treeInternal else .error .badLength)
    else if m = 0x01 then
      match y with
      | [v] => .ok (.treeLeaf v)
      | _ => .error .badLength
    else .error .badMarker

/-- A whole container (R108, R114). -/
def decodeContainer (y : List Byte) : Except DecodeError Instr :=
  match Machine.parseContainer y with
  | .error e => .error e
  | .ok c =>
    match Machine.walkContainer c with
    | .error e => .error (.badPayload e)
    | .ok _ => .ok (.container c)

/-- The decoder. The bytes of a command word come least significant first. -/
def decode : Source → List Byte → Except DecodeError Instr
  | .command, y => if y.length = 4 then decodeWord (BitVec.ofNat 32 (Machine.ofLeBytes y)) else .error .badLength
  | .record, y => decodeRecord y
  | .treeNode, y => decodeTreeNode y
  | .container, y => decodeContainer y

/-- How an instruction reaches the engine. -/
def Instr.source : Instr → Source
  | .clr | .find | .tokenize | .tenc _ | .tdec | .b2y | .y2b | .pack | .unpack | .replay | .hbuild | .ctab | .tser
  | .tdes | .epack | .eunpack | .compress | .decompress => .command
  | .recSimple _ _ _ | .recExtended _ _ _ _ _ => .record
  | .treeLeaf _ | .treeInternal => .treeNode
  | .container _ => .container

/-- The command word of a command (R90, R92); 0, which is no command, for a datum. -/
def encodeWord : Instr → Word
  | .clr => 0x01
  | .find => 0x10
  | .tokenize => 0x11
  | .tenc arg => arg ++ (0x20 : Byte)
  | .tdec => 0x21
  | .b2y => 0x22
  | .y2b => 0x23
  | .pack => 0x24
  | .unpack => 0x25
  | .replay => 0x28
  | .hbuild => 0x30
  | .ctab => 0x31
  | .tser => 0x32
  | .tdes => 0x33
  | .epack => 0x34
  | .eunpack => 0x35
  | .compress => 0x40
  | .decompress => 0x41
  | .recSimple _ _ _ | .recExtended _ _ _ _ _ | .treeLeaf _ | .treeInternal | .container _ => 0

/-- The encoder: the bytes of an instruction in the order they are stored. -/
def encode : Instr → List Byte
  | .recSimple d l b => Machine.bytesLsb (Machine.encRec ⟨d, l, .simple b⟩)
  | .recExtended d l b0 b1 b2 => Machine.bytesLsb (Machine.encRec ⟨d, l, .extended b0 b1 b2⟩)
  | .treeLeaf v => [0x01, v]
  | .treeInternal => [0x00]
  | .container c => Machine.containerBytes c
  | i@.clr | i@.find | i@.tokenize | i@(.tenc _) | i@.tdec | i@.b2y | i@.y2b | i@.pack | i@.unpack | i@.replay
  | i@.hbuild | i@.ctab | i@.tser | i@.tdes | i@.epack | i@.eunpack | i@.compress | i@.decompress =>
    Machine.leBytes 4 (encodeWord i).toNat

/-- How the bits of a row of spec/opcode_table.json are laid out: by its width, a command word, a record (41 or 57 bits,
in whole bytes), or a tree node, whose first byte is the leftmost of the row's pattern. Any other width is taken as the
bytes of a container. -/
def tableBytes (nbits w : Nat) : Source × List Byte :=
  if nbits = 32 then (.command, Machine.leBytes 4 w)
  else if nbits = 48 ∨ nbits = 41 then (.record, Machine.leBytes 6 w)
  else if nbits = 64 ∨ nbits = 57 then (.record, Machine.leBytes 8 w)
  else if nbits = 16 then (.treeNode, (Machine.leBytes 2 w).reverse)
  else if nbits = 8 then (.treeNode, Machine.leBytes 1 w)
  else (.container, Machine.leBytes (nbits / 8) w)

/-- The instruction the decoder reads from the bits `w` of a row of the opcode table. -/
def decodeTableWord (nbits w : Nat) : Option Instr :=
  match decode (tableBytes nbits w).1 (tableBytes nbits w).2 with
  | .ok i => some i
  | .error _ => none

end Sys2Proof
end

