-- ==== Sys2Proof/Machine/State.lean ====
section
/-! DEFINITION. The machine's state as plain data (10_state.md), what stops a command, and the state after reset. -/

namespace Sys2Proof.Machine

/-- A buffer of 10_state.md R24 to R28. Its valid elements are a list and its length register is that list's length
("A Lean model may represent every buffer as a list and every length register as that list's length"). Elements the host
wrote at or beyond the length, or left there by lowering the length (R37), are kept in `spare`, by rising index; every other
element at or beyond the length is unspecified (R42): the free value with seed `seed`. -/
structure Buffer (α : Type) where
  valid : List α
  spare : List (Nat × α)
  seed  : Nat
deriving DecidableEq, Repr

/-- A node of the arena (10_state.md R22; children are arena indices, 16 bits wide at the port, R61). -/
inductive Node where
  | leaf (weight : Word) (value : Byte)
  | internal (weight : Word) (left right : BitVec 16)
deriving DecidableEq, Repr

/-- An entry of the code table (R23). -/
abbrev Code := Option (List Bit)

/-- The recorded fault: one row of 60_exceptions.md R296, which fixes `STATUS.FAULT` and `FINFO`. -/
inductive Cause where
  /-- `IllegalCommand`: any `CMD` write -/
  | unknownOpcode
  | nonzeroArg
  /-- `OperandFault`: TENC, FIND, TDEC -/
  | tokIndex
  | txtPos
  | bitPos
  /-- `CapacityFault` -/
  | capTxt
  | capTok
  | capBit
  | capPre
  | capCon
  | capNode
  | capBitCount
  /-- `FormatFault` -/
  | badMarker
  | treeTruncated
  | headerTruncated
  | payloadTruncated
  | leafRootOneBit
  | partialCode
  | dupLeaf
deriving DecidableEq, Repr

/-- The eight element spaces of 20_memory.md R60 (the ninth, `REG`, has its own port). -/
inductive Space where
  | txt | tok | bit | pre | con | node | code | freq
deriving DecidableEq, Repr

/-- What the outside does to the engine: the host's accesses of 20_memory.md R66 and R67, the presenting of a command or
datum by its bytes, and a reset (70_reset_and_hazards.md R320). -/
inductive HostOp where
  /-- `HostRegRead(n)` -/
  | regRead (n : Nat)
  /-- `HostRegWrite(n, v)`; `n = 0` starts a command -/
  | regWrite (n : Nat) (v : Word)
  /-- `HostRead(SP, i)` -/
  | bufRead (sp : Space) (i : Nat)
  /-- `HostWrite(SP, i, v)` -/
  | bufWrite (sp : Space) (i v : Nat)
  /-- one row of the opcode table, by its bytes; for `Source.command`, the write of `CMD` -/
  | present (src : Source) (bytes : List Byte)
  /-- the reset event -/
  | reset
deriving DecidableEq, Repr

/-- What a command's rule lists under "Writes" (60_exceptions.md R297), in units of this model's state. The forms `…Tail`
are those of the commands that append: the elements below the old length are not listed. -/
inductive Res where
  | txt | tok | tokTail | bit | bitTail | pre | con | conTail | node | code | freq
  | pos | bitpos | conpos | bitcnt | trunc | oor
deriving DecidableEq, Repr

/-- Why the machine stops for good. -/
inductive Fault where
  /-- Raised by CTAB, TSER, EPACK, EUNPACK, COMPRESS, DECOMPRESS when the arena does not hold a finite tree below `ROOT`: a
  walk of it would not end or would leave the arena (20_memory.md R68). No state that a run from reset reaches has such an
  arena while commands are accepted (10_state.md R38). Safe: the machine stops where the spec has no state. -/
  | arenaNotATree
deriving DecidableEq, Repr

/-- Why an instruction has no meaning here. -/
inductive Refusal where
  /-- The instruction has no meaning in this model yet. Safe. -/
  | notModelled (mnemonic : String)
  /-- Raised by the fetch when the host presents bytes that are no datum of the format they are presented as. Such bytes
  are no instruction; the host can still store them one by one with `HostWrite`. Safe. -/
  | notADatum (e : DecodeError)
deriving DecidableEq, Repr

/-- What ends the body of a command early: `raise F(info)` (R297), or a stop for good. -/
inductive Stop where
  | raise (c : Cause)
  | stuck (f : Fault)
deriving DecidableEq, Repr

/-- The state. Registers of R34 that are views of a field are read through `regRead`: `STATUS` from `trunc`, `oor` and
`cause`; `FINFO` from `cause`; the five lengths from the buffers; `NODE_CNT` from `node`; `CFG_WINDOW` and `CFG_MAXMATCH`
from `cfg`. -/
structure State where
  /-- the parameters of the engine (R7, R36, R43); no step changes them -/
  cfg     : Params
  /-- the host's accesses still to come, in their one total order (20_memory.md R71) -/
  pending : List HostOp
  /-- the model's own: the number the last `HostRegRead` or `HostRead` returned -/
  reply   : Option Nat
  /-- the model's own: the seed for what next becomes unspecified -/
  draw    : Nat
  /-- `STATUS.FAULT` and `FINFO` (R35, R295, R296); none: no fault is recorded -/
  cause   : Option Cause
  /-- `STATUS` bit 0 (R40) -/
  trunc   : Bool
  /-- `STATUS` bit 1 (R41) -/
  oor     : Bool
  txt     : Buffer Sym
  tok     : Buffer Rec
  bit     : Buffer Bit
  pre     : Buffer Byte
  con     : Buffer Byte
  /-- the arena's nodes below `NODE_CNT` (R29) -/
  node    : List Node
  root    : Word
  code    : Vector Code 256
  freq    : Vector Word 256
  pos     : Word
  bitpos  : Word
  conpos  : Word
  bitcnt  : Word
deriving DecidableEq, Repr

/-- The state after reset (10_state.md R46, 70_reset_and_hazards.md R320): every register 0, `CFG_WINDOW` and
`CFG_MAXMATCH` at their parameters, every code `none`, every count 0, every buffer element unspecified, no host access
pending. The seeds and the reply are the model's own (DESIGN CHOICE, notes/assumptions/5.md and 6.md). -/
def State.reset : State where
  cfg := Config.params
  pending := []
  reply := none
  draw := 1
  cause := none
  trunc := false
  oor := false
  txt := ⟨[], [], 0⟩
  tok := ⟨[], [], 0⟩
  bit := ⟨[], [], 0⟩
  pre := ⟨[], [], 0⟩
  con := ⟨[], [], 0⟩
  node := []
  root := 0
  code := .replicate 256 none
  freq := .replicate 256 0
  pos := 0
  bitpos := 0
  conpos := 0
  bitcnt := 0

end Sys2Proof.Machine
end

