-- ==== Sys2Proof/Machine/Flags.lean ====
section
/-! DEFINITION. `STATUS` and `FINFO` (10_state.md R35, 60_exceptions.md R295, R296) and the two flags (R40, R41). -/

namespace Sys2Proof.Machine

/-- The fault code (R295). -/
def causeCode : Cause → Nat
  | .unknownOpcode | .nonzeroArg => 1
  | .tokIndex | .txtPos | .bitPos => 2
  | .capTxt | .capTok | .capBit | .capPre | .capCon | .capNode | .capBitCount => 3
  | .badMarker | .treeTruncated | .headerTruncated | .payloadTruncated | .leafRootOneBit | .partialCode | .dupLeaf => 4

/-- The sub-reason (R296). -/
def causeInfo : Cause → Nat
  | .unknownOpcode => 1
  | .nonzeroArg => 2
  | .tokIndex => 1
  | .txtPos => 2
  | .bitPos => 3
  | .capTxt => 1
  | .capTok => 2
  | .capBit => 3
  | .capPre => 4
  | .capCon => 5
  | .capNode => 6
  | .capBitCount => 7
  | .badMarker => 1
  | .treeTruncated => 2
  | .headerTruncated => 3
  | .payloadTruncated => 4
  | .leafRootOneBit => 5
  | .partialCode => 6
  | .dupLeaf => 7

/-- `STATUS.FAULT` (R35): 0 when no fault is recorded. -/
def faultField (s : State) : Nat := (s.cause.map causeCode).getD 0

/-- `STATUS` (R35): bit 0 `TRUNC`, bit 1 `OOR`, bits 15 to 8 `FAULT`, every other bit 0. -/
def statusWord (s : State) : Word := BitVec.ofNat 32 (s.trunc.toNat + 2 * s.oor.toNat + 256 * faultField s)

/-- `FINFO` (R296): 0 when no fault is recorded. -/
def finfoWord (s : State) : Word := BitVec.ofNat 32 ((s.cause.map causeInfo).getD 0)

/-- `TRUNC <- b` (R40). -/
def setTrunc (b : Bool) (s : State) : State := { s with trunc := b }

/-- `OOR <- b` (R41). -/
def setOor (b : Bool) (s : State) : State := { s with oor := b }

end Sys2Proof.Machine
end

