-- ==== Sys2Proof/Machine/Ops.lean ====
section
/-! DEFINITION. The named operations over buffers and registers (00_scope.md R16), what a fault does (60_exceptions.md
R297, R302), the return from it, and reset. -/

namespace Sys2Proof.Machine

/-! ## Buffers -/

/-- Element `i` of a buffer: valid, or kept beyond the length, or unspecified (R42). `free` gives the buffer's free
values. -/
def Buffer.elem {α : Type} (free : Nat → Nat → α) (b : Buffer α) (i : Nat) : α :=
  match b.valid[i]? with
  | some x => x
  | none => (b.spare.lookup i).getD (free b.seed i)

/-- The kept elements with element `i` stored, by rising index. -/
def storeSpare {α : Type} (i : Nat) (x : α) : List (Nat × α) → List (Nat × α)
  | [] => [(i, x)]
  | e :: es =>
    if i < e.1 then (i, x) :: e :: es
    else if i = e.1 then (i, x) :: es
    else e :: storeSpare i x es

/-- `MemWrite(SP, i, x)` by the host (20_memory.md R67). -/
def Buffer.store {α : Type} (i : Nat) (x : α) (b : Buffer α) : Buffer α :=
  if i < b.valid.length then { b with valid := b.valid.set i x } else { b with spare := storeSpare i x b.spare }

/-- Elements with their indices, counted from `i`. -/
def indexed {α : Type} : Nat → List α → List (Nat × α)
  | _, [] => []
  | i, x :: xs => (i, x) :: indexed (i + 1) xs

/-- The host's write of a length (10_state.md R37): it touches no element, so a lowered length keeps the elements above it
and a raised one exposes whatever the elements hold (R42). -/
def Buffer.resize {α : Type} (free : Nat → Nat → α) (n : Nat) (b : Buffer α) : Buffer α :=
  if n ≤ b.valid.length then { b with valid := b.valid.take n, spare := indexed n (b.valid.drop n) ++ b.spare }
  else
    { b with
      valid := b.valid ++ (List.range' b.valid.length (n - b.valid.length)).map (b.elem free)
      spare := b.spare.filter fun e => n ≤ e.1 }

/-- What a command leaves in a buffer that it writes: the elements below its length are `xs`, those at or beyond it are
unspecified (R42, 93_implementation_defined.md I10). -/
def Buffer.fill {α : Type} (seed : Nat) (xs : List α) : Buffer α := ⟨xs, [], seed⟩

/-- `n` unspecified elements from index `i` on. -/
def freeList {α : Type} (free : Nat → Nat → α) (seed i n : Nat) : List α := (List.range' i n).map (free seed)

/-- A buffer with `keep` at its head, otherwise unspecified, with an unspecified length up to `cap` (R297). -/
def Buffer.unspecified {α : Type} (free : Nat → Nat → α) (seed cap rawLen : Nat) (keep : List α) : Buffer α :=
  let n := rawLen % (cap + 1)
  { valid := keep.take n ++ freeList free seed keep.length (n - keep.length)
    spare := indexed n (keep.drop n)
    seed := seed }

/-! ## Writes by commands -/

def setTxt (xs : List Sym) (s : State) : State := { s with txt := .fill s.draw xs, draw := s.draw + 1 }
def setTok (xs : List Rec) (s : State) : State := { s with tok := .fill s.draw xs, draw := s.draw + 1 }
def setBit (xs : List Bit) (s : State) : State := { s with bit := .fill s.draw xs, draw := s.draw + 1 }
def setPre (xs : List Byte) (s : State) : State := { s with pre := .fill s.draw xs, draw := s.draw + 1 }
def setCon (xs : List Byte) (s : State) : State := { s with con := .fill s.draw xs, draw := s.draw + 1 }

/-- `NODE`, `NODE_CNT` and `ROOT`. -/
def setArena (nodes : List Node) (root : Nat) (s : State) : State :=
  { s with node := nodes, root := BitVec.ofNat 32 root }

def setCode (t : Vector Code 256) (s : State) : State := { s with code := t }
def setFreq (t : Vector Word 256) (s : State) : State := { s with freq := t }
def setPos (n : Nat) (s : State) : State := { s with pos := BitVec.ofNat 32 n }
def setBitpos (n : Nat) (s : State) : State := { s with bitpos := BitVec.ofNat 32 n }
def setConpos (n : Nat) (s : State) : State := { s with conpos := BitVec.ofNat 32 n }
def setBitcnt (n : Nat) (s : State) : State := { s with bitcnt := BitVec.ofNat 32 n }

/-- A table of 256 entries by byte value (R30, R31). -/
def tableOf {α : Type} (f : Nat → α) : Vector α 256 := ⟨((List.range 256).map f).toArray, by simp⟩

/-- The entry of byte value `v`. -/
def tableAt {α : Type} (t : Vector α 256) (v : Byte) : α := t[v.toNat]'(v.isLt)

/-- The table with the entry of `v` replaced. -/
def tableSet {α : Type} (t : Vector α 256) (v : Byte) (x : α) : Vector α 256 := t.set v.toNat x v.isLt

/-- `raise F` as a result. -/
def raise {α : Type} (c : Cause) : Except Stop α := .error (.raise c)

/-- `append` of several elements at once, checked before any is written (41_token_codec.md R153, 45_tree_serializer.md
R231; of one element, 00_scope.md R16). -/
def appended {α : Type} (cap : Nat) (c : Cause) (xs ys : List α) : Except Stop (List α) :=
  if xs.length + ys.length ≤ cap then .ok (xs ++ ys) else raise c

def appendTok (r : Rec) (s : State) : Except Stop State :=
  match appended s.cfg.tokCap .capTok s.tok.valid [r] with
  | .ok xs => .ok (setTok xs s)
  | .error e => .error e

def appendBit (q : List Bit) (s : State) : Except Stop State :=
  match appended s.cfg.bitCap .capBit s.bit.valid q with
  | .ok xs => .ok (setBit xs s)
  | .error e => .error e

def appendCon (y : List Byte) (s : State) : Except Stop State :=
  match appended s.cfg.conCap .capCon s.con.valid y with
  | .ok xs => .ok (setCon xs s)
  | .error e => .error e

/-! ## The tree in the arena -/

/-- The tree below arena index `i` (10_state.md R38): none when the walk leaves the arena or is deeper than the fuel. -/
def treeAt (nodes : List Node) : Nat → Nat → Option Tree
  | 0, _ => none
  | fuel + 1, i =>
    match nodes[i]? with
    | none => none
    | some (.leaf _ v) => some (.leaf v)
    | some (.internal _ l r) =>
      match treeAt nodes fuel l.toNat, treeAt nodes fuel r.toNat with
      | some tl, some tr => some (.node tl tr)
      | _, _ => none

/-- The tree below `ROOT`. A finite tree in the arena is no deeper than the arena is long, so the fuel suffices. -/
def rootTree (s : State) : Except Stop Tree :=
  match treeAt s.node s.node.length s.root.toNat with
  | some t => .ok t
  | none => .error (.stuck .arenaNotATree)

/-! ## Faults -/

/-- A code of the type of R23: lengths 1 to 255 only. -/
def boundCode : Code → Code
  | none => none
  | some q => if 1 ≤ q.length ∧ q.length ≤ 255 then some q else none

/-- An unspecified node. -/
def freeNode (seed i : Nat) : Node :=
  if Config.freeNodeKind seed i then .leaf (Config.freeNodeWeight seed i) (Config.freeNodeValue seed i)
  else .internal (Config.freeNodeWeight seed i) (Config.freeNodeLeft seed i) (Config.freeNodeRight seed i)

/-- One thing listed under "Writes" becomes unspecified (R297): any value of its type, a length any value up to its
capacity. Each register, flag and length draws its own value. -/
def scramble (k : Nat) (s : State) : Res → State
  | .txt => { s with txt := .unspecified Config.freeSym k s.cfg.txtCap (Config.freeWord k 0).toNat [] }
  | .tok => { s with tok := .unspecified Config.freeRec k s.cfg.tokCap (Config.freeWord k 1).toNat [] }
  | .tokTail => { s with tok := .unspecified Config.freeRec k s.cfg.tokCap (Config.freeWord k 1).toNat s.tok.valid }
  | .bit => { s with bit := .unspecified Config.freeBit k s.cfg.bitCap (Config.freeWord k 2).toNat [] }
  | .bitTail => { s with bit := .unspecified Config.freeBit k s.cfg.bitCap (Config.freeWord k 2).toNat s.bit.valid }
  | .pre => { s with pre := .unspecified Config.freePre k s.cfg.preCap (Config.freeWord k 3).toNat [] }
  | .con => { s with con := .unspecified Config.freeCon k s.cfg.conCap (Config.freeWord k 4).toNat [] }
  | .conTail => { s with con := .unspecified Config.freeCon k s.cfg.conCap (Config.freeWord k 4).toNat s.con.valid }
  | .node => { s with node := freeList freeNode k 0 (Config.freeWord k 5).toNat, root := Config.freeWord k 6 }
  | .code => { s with code := tableOf fun v => boundCode (Config.freeCode k v) }
  | .freq => { s with freq := tableOf (Config.freeCount k) }
  | .pos => { s with pos := Config.freeWord k 7 }
  | .bitpos => { s with bitpos := Config.freeWord k 8 }
  | .conpos => { s with conpos := Config.freeWord k 9 }
  | .bitcnt => { s with bitcnt := Config.freeWord k 10 }
  | .trunc => { s with trunc := Config.freeFlag k 0 }
  | .oor => { s with oor := Config.freeFlag k 1 }

/-- TAKING A FAULT (R297, R302): the cause is recorded, what the command lists under "Writes" becomes unspecified, all else
keeps its value. -/
def takeFault (writes : List Res) (c : Cause) (s : State) : State :=
  { writes.foldl (scramble s.draw) s with cause := some c, draw := s.draw + 1 }

/-- Every command but CLR: refused without any change while a fault is recorded (R302); otherwise its body runs, and a
fault that the body raises is taken. -/
def runCommand (writes : List Res) (body : State → Except Stop State) (s : State) :
    Host.Outcome State Fault Refusal :=
  if s.cause.isSome then .next s
  else
    match body s with
    | .ok t => .next t
    | .error (.raise c) => .next (takeFault writes c s)
    | .error (.stuck f) => .fault f

/-- An illegal command word (R298): recorded, unless a fault is recorded already (R302); nothing else changes. -/
def takeIllegal (c : Cause) (s : State) : State := if s.cause.isSome then s else { s with cause := some c }

/-- THE RETURN FROM A FAULT, and CLR from any state (47_pipeline.md R275): every register but the configuration, CODE and
FREQ at their reset values; the elements of the buffers stay where they are (70_reset_and_hazards.md R329). -/
def clearAll (s : State) : State :=
  { s with
    cause := none, trunc := false, oor := false
    txt := s.txt.resize Config.freeSym 0
    tok := s.tok.resize Config.freeRec 0
    bit := s.bit.resize Config.freeBit 0
    pre := s.pre.resize Config.freePre 0
    con := s.con.resize Config.freeCon 0
    node := [], root := 0
    code := State.reset.code, freq := State.reset.freq
    pos := 0, bitpos := 0, conpos := 0, bitcnt := 0 }

/-- The reset event (70_reset_and_hazards.md R320): the state of R46, with every buffer element newly unspecified. The
parameters, and the host's side of the ports, are not the engine's to reset. -/
def resetEvent (s : State) : State :=
  { State.reset with
    cfg := s.cfg, pending := s.pending, reply := s.reply, draw := s.draw + 1
    txt := .fill s.draw [], tok := .fill s.draw [], bit := .fill s.draw [], pre := .fill s.draw [], con := .fill s.draw [] }

/-- The canonical form of a buffer: no more elements than its capacity, and the kept elements rising by index, each at or
beyond the length and below the capacity. -/
abbrev Buffer.Wf {α : Type} (cap : Nat) (b : Buffer α) : Prop :=
  b.valid.length ≤ cap ∧ (b.spare.map Prod.fst).Pairwise (· < ·) ∧
  ∀ e ∈ b.spare, b.valid.length ≤ e.1 ∧ e.1 < cap

/-- The canonical form of memory: every buffer's. -/
abbrev Memory.wf (s : State) : Prop :=
  s.txt.Wf s.cfg.txtCap ∧ s.tok.Wf s.cfg.tokCap ∧ s.bit.Wf s.cfg.bitCap ∧ s.pre.Wf s.cfg.preCap ∧
  s.con.Wf s.cfg.conCap

end Sys2Proof.Machine
end

