-- ==== Sys2Proof/Machine/Operands.lean ====
section
/-! DEFINITION. The operands of the single-step commands, with the check each makes before anything else
(30_encoding.md R91, 60_exceptions.md R296 `OperandFault`). Every other input of a command is a whole buffer or the tree. -/

namespace Sys2Proof.Machine

/-- `TOK[idx]` of `TENC idx` (41_token_codec.md R153). -/
def tokOperand (idx : Nat) (s : State) : Except Stop Rec :=
  match s.tok.valid[idx]? with
  | some r => .ok r
  | none => raise .tokIndex

/-- `POS` of `FIND`, which must point at a symbol (40_match_finder.md R133). -/
def posOperand (s : State) : Except Stop Nat :=
  if s.pos.toNat < s.txt.valid.length then .ok s.pos.toNat else raise .txtPos

/-- `BITPOS` of `TDEC`, which must point at a bit (41_token_codec.md R158). -/
def bitposOperand (s : State) : Except Stop Nat :=
  if s.bitpos.toNat < s.bit.valid.length then .ok s.bitpos.toNat else raise .bitPos

end Sys2Proof.Machine
end

