-- ==== Sys2Proof/Machine/HostPort.lean ====
section
/-! DEFINITION. The host's two ports (20_memory.md R60, R61, R66 to R68) and the register map (10_state.md R34). -/

namespace Sys2Proof.Machine

/-! ## How the port shows an element (R61) -/

def symNumber : Sym → Nat
  | .simple b => b.toNat
  | .extended b0 b1 b2 => b0.toNat + 2 ^ 8 * b1.toNat + 2 ^ 16 * b2.toNat + 2 ^ 24

/-- "`val_lsb` of the record's wire bits". -/
def recNumber (r : Rec) : Nat := valLsb (encRec r)

def nodeNumber : Node → Nat
  | .leaf w v => 1 + 2 * w.toNat + 2 ^ 33 * v.toNat
  | .internal w l r => 2 * w.toNat + 2 ^ 41 * l.toNat + 2 ^ 57 * r.toNat

def codeNumber : Code → Nat
  | none => 0
  | some q => q.length + 2 ^ 8 * valLsb q

/-! ## What the port stores (R61's narrowing) -/

/-- The byte of `v` from bit `i` on. -/
def byteAt (v i : Nat) : Byte := BitVec.ofNat 8 (v >>> i)

/-- The symbol of a written number; bits above bit 24 are dropped (DESIGN CHOICE, notes/assumptions/20.md). -/
def symOfNumber (v : Nat) : Sym :=
  if v.testBit 24 then .extended (byteAt v 0) (byteAt v 8) (byteAt v 16) else .simple (byteAt v 0)

/-- The record of a written number; bits above bit 56 are dropped (DESIGN CHOICE, notes/assumptions/20.md). -/
def recOfNumber (v : Nat) : Rec where
  distance := BitVec.ofNat 16 v
  runLength := BitVec.ofNat 16 (v >>> 16)
  literal := if v.testBit 32 then .extended (byteAt v 33) (byteAt v 41) (byteAt v 49) else .simple (byteAt v 33)

/-! ## The register port (R66) -/

/-- `HostRegRead(n)`: 0 for the write-only `CMD` and for absent registers. -/
def regRead (s : State) : Nat → Word
  | 1 => statusWord s
  | 2 => finfoWord s
  | 3 => BitVec.ofNat 32 s.cfg.windowSize
  | 4 => BitVec.ofNat 32 s.cfg.maxMatch
  | 5 => BitVec.ofNat 32 s.txt.valid.length
  | 6 => BitVec.ofNat 32 s.tok.valid.length
  | 7 => BitVec.ofNat 32 s.bit.valid.length
  | 8 => BitVec.ofNat 32 s.pre.valid.length
  | 9 => BitVec.ofNat 32 s.con.valid.length
  | 10 => s.pos
  | 11 => s.bitpos
  | 12 => s.conpos
  | 13 => BitVec.ofNat 32 s.node.length
  | 14 => s.root
  | 15 => s.bitcnt
  | _ => 0

/-- A length register takes a value up to the capacity and ignores any other (10_state.md R37). -/
def lengthWrite {α : Type} (free : Nat → Nat → α) (cap n : Nat) (b : Buffer α) : Buffer α :=
  if n ≤ cap then b.resize free n else b

def writeTxtLen (n : Nat) (s : State) : State := { s with txt := lengthWrite Config.freeSym s.cfg.txtCap n s.txt }
def writeTokLen (n : Nat) (s : State) : State := { s with tok := lengthWrite Config.freeRec s.cfg.tokCap n s.tok }
def writeBitLen (n : Nat) (s : State) : State := { s with bit := lengthWrite Config.freeBit s.cfg.bitCap n s.bit }
def writePreLen (n : Nat) (s : State) : State := { s with pre := lengthWrite Config.freePre s.cfg.preCap n s.pre }
def writeConLen (n : Nat) (s : State) : State := { s with con := lengthWrite Config.freeCon s.cfg.conCap n s.con }

/-- `HostRegWrite(n, v)` for every register but `CMD`: read-only and absent registers ignore it. -/
def regWrite (n : Nat) (v : Word) (s : State) : State :=
  match n with
  | 5 => writeTxtLen v.toNat s
  | 6 => writeTokLen v.toNat s
  | 7 => writeBitLen v.toNat s
  | 8 => writePreLen v.toNat s
  | 9 => writeConLen v.toNat s
  | 10 => { s with pos := v }
  | 11 => { s with bitpos := v }
  | 12 => { s with conpos := v }
  | _ => s

/-! ## The buffer port (R67, R68) -/

/-- The number the port returns for element `i` of a buffer: 0 beyond the capacity; between length and capacity an
unspecified element, newly drawn. -/
def portRead {α : Type} (free : Nat → Nat → α) (number : α → Nat) (draw cap : Nat) (valid : List α) (i : Nat) : Nat :=
  if i < cap then number (valid[i]?.getD (free draw i)) else 0

/-- `HostRead(SP, i)`. -/
def bufRead (s : State) (sp : Space) (i : Nat) : Nat :=
  match sp with
  | .txt => portRead Config.freeSym symNumber s.draw s.cfg.txtCap s.txt.valid i
  | .tok => portRead Config.freeRec recNumber s.draw s.cfg.tokCap s.tok.valid i
  | .bit => portRead Config.freeBit Bool.toNat s.draw s.cfg.bitCap s.bit.valid i
  | .pre => portRead Config.freePre BitVec.toNat s.draw s.cfg.preCap s.pre.valid i
  | .con => portRead Config.freeCon BitVec.toNat s.draw s.cfg.conCap s.con.valid i
  | .node => portRead freeNode nodeNumber s.draw nodeCap s.node i
  | .code => if h : i < 256 then codeNumber s.code[i] else 0
  | .freq => if h : i < 256 then s.freq[i].toNat else 0

/-- A store below the capacity; nothing at or beyond it. -/
def portStore {α : Type} (cap i : Nat) (x : α) (b : Buffer α) : Buffer α := if i < cap then b.store i x else b

def storeTxt (i : Nat) (x : Sym) (s : State) : State := { s with txt := portStore s.cfg.txtCap i x s.txt }
def storeTok (i : Nat) (x : Rec) (s : State) : State := { s with tok := portStore s.cfg.tokCap i x s.tok }
def storeBit (i : Nat) (x : Bit) (s : State) : State := { s with bit := portStore s.cfg.bitCap i x s.bit }
def storePre (i : Nat) (x : Byte) (s : State) : State := { s with pre := portStore s.cfg.preCap i x s.pre }
def storeCon (i : Nat) (x : Byte) (s : State) : State := { s with con := portStore s.cfg.conCap i x s.con }

/-- `HostWrite(SP, i, v)`: the element narrowed as R61 says; NODE, CODE and FREQ ignore it (R68). Of a number wider than
the element, which R61 and R67 say nothing of, the bits above the element's width are dropped (DESIGN CHOICE, unsafe,
notes/assumptions/20.md). -/
def bufWrite (sp : Space) (i v : Nat) (s : State) : State :=
  match sp with
  | .txt => storeTxt i (symOfNumber v) s
  | .tok => storeTok i (recOfNumber v) s
  | .bit => storeBit i (v.testBit 0) s
  | .pre => storePre i (byteAt v 0) s
  | .con => storeCon i (byteAt v 0) s
  | .node | .code | .freq => s

/-! ## A datum presented at the port (30_encoding.md R95 `LOAD`; DESIGN CHOICE, notes/assumptions/1.md) -/

/-- One record at the end of TOK: its element is written and the length raised over it. -/
def presentRec (r : Rec) (s : State) : State :=
  writeTokLen (s.tok.valid.length + 1) (storeTok s.tok.valid.length r s)

/-- Bytes written into CON from index `i` on. -/
def storeBytes : Nat → List Byte → State → State
  | _, [], s => s
  | i, x :: y, s => storeBytes (i + 1) y (storeCon i x s)

/-- Bytes at the end of CON, and the length raised over them. -/
def presentBytes (y : List Byte) (s : State) : State :=
  writeConLen (s.con.valid.length + y.length) (storeBytes s.con.valid.length y s)

/-- `LOAD CON <- y`: the bytes from index 0 on, and the length. -/
def loadCon (y : List Byte) (s : State) : State := writeConLen y.length (storeBytes 0 y s)

end Sys2Proof.Machine
end

