-- ==== Sys2Proof/Machine/DataFormats.lean ====
section
/-! DEFINITION. The five data-format rows of the opcode table: the host presents one datum in that format at the port of
the buffer that holds it (20_memory.md R61, R67, R70 "load input"; DESIGN CHOICE, notes/assumptions/1.md). They are host accesses, not
commands, so a recorded fault does not refuse them (60_exceptions.md R302 speaks of `CMD` writes only). -/

namespace Sys2Proof.Machine

/-- REC_SIMPLE (30_encoding.md R97): the record is stored at the end of TOK. -/
def execRecSimple (d l : U16) (b : Byte) (s : State) : Host.Outcome State Fault Refusal :=
  .next (presentRec ⟨d, l, .simple b⟩ s)

/-- REC_EXTENDED (R97): the record is stored at the end of TOK. -/
def execRecExtended (d l : U16) (b0 b1 b2 : Byte) (s : State) : Host.Outcome State Fault Refusal :=
  .next (presentRec ⟨d, l, .extended b0 b1 b2⟩ s)

/-- TREE_LEAF (R101): the marker 0x01 and the value are stored at the end of CON. -/
def execTreeLeaf (v : Byte) (s : State) : Host.Outcome State Fault Refusal := .next (presentBytes [0x01, v] s)

/-- TREE_INTERNAL (R101): the marker 0x00 is stored at the end of CON. -/
def execTreeInternal (s : State) : Host.Outcome State Fault Refusal := .next (presentBytes [0x00] s)

/-- CONTAINER (R108): `LOAD CON` with its bytes. -/
def execContainer (c : Container) (s : State) : Host.Outcome State Fault Refusal := .next (loadCon (containerBytes c) s)

end Sys2Proof.Machine
end

