-- ==== Sys2Proof/Machine/TokenCodec.lean ====
section
/-! DEFINITION. The token codec: TENC and TDEC (41_token_codec.md). -/

namespace Sys2Proof.Machine

/-- The change of state of `TENC idx` (R153). -/
def tenc (idx : Nat) (s : State) : Except Stop State :=
  match tokOperand idx s with
  | .error e => .error e
  | .ok r => appendBit (encRec r) s

/-- The change of state of TDEC (R158). -/
def tdec (s : State) : Except Stop State :=
  match bitposOperand s with
  | .error e => .error e
  | .ok p =>
    match appendTok (dec s.bit.valid p).record s with
    | .error e => .error e
    | .ok t => .ok (setTrunc (dec s.bit.valid p).truncated (setBitpos (p + (dec s.bit.valid p).consumed) t))

def writesTenc : List Res := [.bitTail]
def writesTdec : List Res := [.tokTail, .bitpos, .trunc]

/-- TENC (R153). -/
def execTenc (arg : BitVec 24) (s : State) : Host.Outcome State Fault Refusal :=
  runCommand writesTenc (tenc arg.toNat) s

/-- TDEC (R158). -/
def execTdec (s : State) : Host.Outcome State Fault Refusal := runCommand writesTdec tdec s

end Sys2Proof.Machine
end

