-- ==== Sys2Proof/Machine/Bitstream.lean ====
section
/-! DEFINITION. The bitstream packer and unpacker: B2Y, Y2B, PACK, UNPACK (42_bitstream.md). -/

namespace Sys2Proof.Machine

/-- The change of state of B2Y (R170). -/
def b2y (s : State) : Except Stop State :=
  if ceil8 s.bit.valid.length ≤ s.cfg.preCap then .ok (setPre (bytesLsb s.bit.valid) s) else raise .capPre

/-- The change of state of Y2B (R171). -/
def y2b (s : State) : Except Stop State :=
  if 8 * s.pre.valid.length ≤ s.cfg.bitCap then .ok (setBit (bitsLsb s.pre.valid) s) else raise .capBit

/-- The loop of PACK (R172): the records' wire forms one after the other, each checked against `BIT_CAP` as TENC does. -/
def packBits (cap : Nat) : List Rec → List Bit → Except Stop (List Bit)
  | [], q => .ok q
  | r :: rs, q =>
    match appended cap .capBit q (encRec r) with
    | .error e => .error e
    | .ok q => packBits cap rs q

/-- The change of state of PACK (R172). -/
def pack (s : State) : Except Stop State :=
  match packBits s.cfg.bitCap s.tok.valid [] with
  | .error e => .error e
  | .ok q => b2y (setBit q s)

/-- What the loop of UNPACK leaves: the records, the bits consumed, and the last record's truncation. -/
structure Unpacked where
  records   : List Rec
  consumed  : Nat
  truncated : Bool
deriving DecidableEq, Repr

/-- The loop of UNPACK (R173, R174) on the bits `q` from the cursor on, with room for `room` more records: it goes on while
8 or more bits are left and no tag was truncated. Each round consumes a bit at least, so as many rounds as there are bits
suffice. -/
def unpackFrom : Nat → List Bit → Nat → Except Stop Unpacked
  | 0, _, _ => .ok ⟨[], 0, false⟩
  | fuel + 1, q, room =>
    if 8 ≤ q.length then
      match room with
      | 0 => raise .capTok
      | room + 1 =>
        if (decBits q).truncated then .ok ⟨[(decBits q).record], (decBits q).consumed, true⟩
        else
          match unpackFrom fuel (q.drop (decBits q).consumed) room with
          | .error e => .error e
          | .ok u => .ok ⟨(decBits q).record :: u.records, (decBits q).consumed + u.consumed, u.truncated⟩
    else .ok ⟨[], 0, false⟩

/-- The change of state of UNPACK (R173). -/
def unpack (s : State) : Except Stop State :=
  match y2b s with
  | .error e => .error e
  | .ok s =>
    match unpackFrom s.bit.valid.length s.bit.valid s.cfg.tokCap with
    | .error e => .error e
    | .ok u => .ok (setTrunc u.truncated (setBitpos u.consumed (setTok u.records s)))

def writesB2y : List Res := [.pre]
def writesY2b : List Res := [.bit]
def writesPack : List Res := [.bit, .pre]
def writesUnpack : List Res := [.bit, .tok, .bitpos, .trunc]

/-- B2Y (R170). -/
def execB2y (s : State) : Host.Outcome State Fault Refusal := runCommand writesB2y b2y s

/-- Y2B (R171). -/
def execY2b (s : State) : Host.Outcome State Fault Refusal := runCommand writesY2b y2b s

/-- PACK (R172). -/
def execPack (s : State) : Host.Outcome State Fault Refusal := runCommand writesPack pack s

/-- UNPACK (R173). -/
def execUnpack (s : State) : Host.Outcome State Fault Refusal := runCommand writesUnpack unpack s

end Sys2Proof.Machine
end

