-- ==== Sys2Proof/Machine/PrefixTree.lean ====
section
/-! DEFINITION. The prefix tree builder and the code table: HBUILD and CTAB (44_prefix_tree.md). -/

namespace Sys2Proof.Machine

/-- `FREQ` of a byte buffer (R207). -/
def freqOf (y : List Byte) : Vector Word 256 := tableOf fun v => BitVec.ofNat 32 (y.count (BitVec.ofNat 8 v))

/-- The byte values that stand in the buffer, ascending (R208). -/
def usedValues (f : Vector Word 256) : List Byte :=
  ((List.range 256).map (BitVec.ofNat 8)).filter fun v => tableAt f v ≠ 0

/-- The leaves, at arena indices 0, 1, ... (R208). -/
def leavesOf (f : Vector Word 256) : List Node := (usedValues f).map fun v => .leaf (tableAt f v) v

/-- A member of the priority structure: an arena index and its node's weight. -/
structure Member where
  weight : Word
  index  : Nat
deriving DecidableEq, Repr

/-- The order of R209: the pair (weight, arena index), lexicographic. -/
def before (a b : Member) : Bool := a.weight.toNat < b.weight.toNat || (a.weight = b.weight && a.index < b.index)

/-- The priority structure is the list of its members in the order of R209: a new one goes before the first it precedes. -/
def enqueue (m : Member) : List Member → List Member
  | [] => [m]
  | x :: q => if before m x then m :: x :: q else x :: enqueue m q

/-- The priority structure over the leaves (R208): index and weight of each node. -/
def queueOf (i : Nat) : List Node → List Member
  | [] => []
  | n :: ns => enqueue ⟨match n with | .leaf w _ => w | .internal w _ _ => w, i⟩ (queueOf (i + 1) ns)

/-- The merge loop (R210): the first two members become the children, first removed left, of a new node at the next free
index, which is enqueued; the last member left is the root. Each round has one member less, so as many rounds as members
suffice. -/
def mergeFrom : Nat → List Node → List Member → List Node × Nat
  | fuel + 1, nodes, a :: b :: q =>
    mergeFrom fuel
      (nodes ++ [.internal (a.weight + b.weight) (BitVec.ofNat 16 a.index) (BitVec.ofNat 16 b.index)])
      (enqueue ⟨a.weight + b.weight, nodes.length⟩ q)
  | _, nodes, a :: _ => (nodes, a.index)
  | _, nodes, [] => (nodes, 0)

/-- The arena and the root for a frequency table (R208 to R210); no leaves, no tree (R206). -/
def buildArena (f : Vector Word 256) : List Node × Nat :=
  mergeFrom (leavesOf f).length (leavesOf f) (queueOf 0 (leavesOf f))

/-- The change of state of HBUILD (R211). -/
def hbuild (s : State) : Except Stop State :=
  .ok (setArena (buildArena (freqOf s.pre.valid)).1 (buildArena (freqOf s.pre.valid)).2 (setFreq (freqOf s.pre.valid) s))

/-- The empty code table. -/
def noCodes : Vector Code 256 := tableOf fun _ => none

/-- `walk` of CTAB (R217): a preorder walk that appends 0 for a left edge and 1 for a right edge; a byte value met twice is
a fault. -/
def codeWalk : Tree → List Bit → Vector Code 256 → Except Stop (Vector Code 256)
  | .leaf v, path, t => if tableAt t v = none then .ok (tableSet t v (some path)) else raise .dupLeaf
  | .node l r, path, t =>
    match codeWalk l (path ++ [false]) t with
    | .error e => .error e
    | .ok t => codeWalk r (path ++ [true]) t

/-- The code table of a tree (R213 to R217): a root that is a leaf gets the one-bit code `[0]`. -/
def codesOf : Tree → Except Stop (Vector Code 256)
  | .leaf v => .ok (tableSet noCodes v (some [false]))
  | .node l r => codeWalk (.node l r) [] noCodes

/-- The change of state of CTAB (R217). -/
def ctab (s : State) : Except Stop State :=
  if s.node = [] then .ok (setCode noCodes s)
  else
    match rootTree s with
    | .error e => .error e
    | .ok t =>
      match codesOf t with
      | .error e => .error e
      | .ok c => .ok (setCode c s)

def writesHbuild : List Res := [.freq, .node]
def writesCtab : List Res := [.code]

/-- HBUILD (R211). -/
def execHbuild (s : State) : Host.Outcome State Fault Refusal := runCommand writesHbuild hbuild s

/-- CTAB (R217). -/
def execCtab (s : State) : Host.Outcome State Fault Refusal := runCommand writesCtab ctab s

end Sys2Proof.Machine
end

