-- ==== Sys2Proof/Machine/TreeSerializer.lean ====
section
/-! DEFINITION. The tree serializer and deserializer: TSER and TDES (45_tree_serializer.md). -/

namespace Sys2Proof.Machine

/-- The change of state of TSER (R231). -/
def tser (s : State) : Except Stop State :=
  if s.node = [] then .ok s
  else
    match rootTree s with
    | .error e => .error e
    | .ok t => appendCon (serTree t) s

/-- The arena of a deserialized tree whose root has index `i` (R235): preorder numbering, every weight 0. -/
def arenaFrom : Nat → Tree → List Node
  | _, .leaf v => [.leaf 0 v]
  | i, .node l r =>
    .internal 0 (BitVec.ofNat 16 (i + 1)) (BitVec.ofNat 16 (i + 1 + treeSize l)) ::
      (arenaFrom (i + 1) l ++ arenaFrom (i + 1 + treeSize l) r)

/-- The fault of a tree that does not parse (R236). -/
def treeCause : TreeError → Cause
  | .badMarker => .badMarker
  | .truncated => .treeTruncated
  | .noRoom => .capNode

/-- The change of state of TDES (R237): the tree is parsed from `CONPOS`, which ends at the first byte after it. -/
def tdes (s : State) : Except Stop State :=
  match parseTree (s.con.valid.drop s.conpos.toNat) with
  | .error e => raise (treeCause e)
  | .ok (t, rest) => .ok (setConpos (s.con.valid.length - rest.length) (setArena (arenaFrom 0 t) 0 s))

def writesTser : List Res := [.conTail]
def writesTdes : List Res := [.node, .conpos]

/-- TSER (R231). -/
def execTser (s : State) : Host.Outcome State Fault Refusal := runCommand writesTser tser s

/-- TDES (R237). -/
def execTdes (s : State) : Host.Outcome State Fault Refusal := runCommand writesTdes tdes s

end Sys2Proof.Machine
end

