-- ==== Sys2Proof/Machine/Entropy.lean ====
section
/-! DEFINITION. The entropy packer and unpacker: EPACK and EUNPACK (46_entropy.md). -/

namespace Sys2Proof.Machine

/-- The coded bits (R252): the codes of the bytes, in input order. -/
def codedBits (t : Vector Code 256) (y : List Byte) : List Bit := y.flatMap fun v => (tableAt t v).getD []

/-- What EPACK writes after the tree (R250): the bit count and the payload, with both checks before any byte. -/
def appendPayload (s : State) : Except Stop State :=
  let coded := codedBits s.code s.pre.valid
  if 2 ^ 32 ≤ coded.length then raise .capBitCount
  else
    match appendCon (be32 (BitVec.ofNat 32 coded.length) ++ bytesMsb coded) s with
    | .error e => .error e
    | .ok s => .ok (setBitcnt coded.length s)

/-- The change of state of EPACK (R250, R251). -/
def epack (s : State) : Except Stop State :=
  match hbuild (setBitcnt 0 (setCon [] s)) with
  | .error e => .error e
  | .ok s =>
    match ctab s with
    | .error e => .error e
    | .ok s =>
      if s.pre.valid = [] then .ok s
      else
        match tser s with
        | .error e => .error e
        | .ok s => appendPayload s

/-- The fault of a payload that does not decode (R260, R261; 60_exceptions.md R296). -/
def walkCause : WalkError → Cause
  | .oneBit => .leafRootOneBit
  | .partialCode => .partialCode
  | .noRoom => .capPre

/-- The part of EUNPACK after the bit count `b` (R256), the payload being `y`. -/
def readPayload (b : Nat) (y : List Byte) (s : State) : Except Stop State :=
  if y.length < ceil8 b then raise .payloadTruncated
  else
    match rootTree s with
    | .error e => .error e
    | .ok t =>
      match walkPayload t ((bitsMsb y).take b) s.cfg.preCap with
      | .error e => raise (walkCause e)
      | .ok out => .ok (setConpos (s.con.valid.length - y.length + ceil8 b) (setPre out s))

/-- The part of EUNPACK after the tree (R256). -/
def readHeader (s : State) : Except Stop State :=
  match s.con.valid.drop s.conpos.toNat with
  | y0 :: y1 :: y2 :: y3 :: y =>
    readPayload (ofBe32 y0 y1 y2 y3).toNat y
      (setBitcnt (ofBe32 y0 y1 y2 y3).toNat (setConpos (s.con.valid.length - y.length) s))
  | _ => raise .headerTruncated

/-- The change of state of EUNPACK (R256, R257). -/
def eunpack (s : State) : Except Stop State :=
  let s := setConpos 0 (setBitcnt 0 (setPre [] s))
  if s.con.valid = [] then .ok (setArena [] 0 s)
  else
    match tdes s with
    | .error e => .error e
    | .ok s => readHeader s

def writesEpack : List Res := [.freq, .node, .code, .con, .bitcnt]
def writesEunpack : List Res := [.node, .conpos, .bitcnt, .pre]

/-- EPACK (R250). -/
def execEpack (s : State) : Host.Outcome State Fault Refusal := runCommand writesEpack epack s

/-- EUNPACK (R256). -/
def execEunpack (s : State) : Host.Outcome State Fault Refusal := runCommand writesEunpack eunpack s

end Sys2Proof.Machine
end

