-- ==== Sys2Proof/Machine/MatchFinder.lean ====
section
/-! DEFINITION. The match finder: FIND and TOKENIZE (40_match_finder.md). -/

namespace Sys2Proof.Machine

/-- Length of the common run of two sequences, at most `m` (R130: the sequences start at the candidate and at the
position; R135: the first runs on past the position). -/
def commonRun : Nat → List Sym → List Sym → Nat
  | m + 1, a :: as, b :: bs => if a = b then commonRun m as bs + 1 else 0
  | _, _, _ => 0

/-- `mlen(T, j, p)` (R130). -/
def matchLen (maxMatch : Nat) (T : List Sym) (j p : Nat) : Nat := commonRun maxMatch (T.drop j) (T.drop p)

/-- The scan of R132 over the candidates at distances `d, d + 1, ...`, `n` of them, the best so far being
`(bestDist, bestLen)`: only a strictly longer match replaces it. -/
def scan (maxMatch : Nat) (T : List Sym) (p : Nat) : Nat → Nat → Nat × Nat → Nat × Nat
  | 0, _, best => best
  | n + 1, d, best =>
    scan maxMatch T p n (d + 1)
      (if best.2 < matchLen maxMatch T (p - d) p then (d, matchLen maxMatch T (p - d) p) else best)

/-- `best(T, p)` (R131, R132): distances 1 to `min(p, WINDOW_SIZE)`, nearest first. -/
def best (c : Params) (T : List Sym) (p : Nat) : Nat × Nat := scan c.maxMatch T p (min p c.windowSize) 1 (0, 0)

/-- `record_at(T, p)` (R136). Below the length of the text, `T[i]?.getD sentinel` is `T[i]`; beyond it, the sentinel. -/
def recordAt (c : Params) (T : List Sym) (p : Nat) : Rec where
  distance := BitVec.ofNat 16 (best c T p).1
  runLength := BitVec.ofNat 16 (best c T p).2
  literal := T[p + (best c T p).2]?.getD sentinel

/-- The change of state of FIND (R133). -/
def find (s : State) : Except Stop State :=
  match posOperand s with
  | .error e => .error e
  | .ok p =>
    match appendTok (recordAt s.cfg s.txt.valid p) s with
    | .error e => .error e
    | .ok t => .ok (setPos (p + (recordAt s.cfg s.txt.valid p).runLength.toNat + 1) t)

/-- The loop of TOKENIZE (R138) from position `p`, with room for `room` more records: the records and the final position.
Each round raises the position (R134), so as many rounds as the text has symbols suffice. -/
def tokenizeFrom (c : Params) (T : List Sym) : Nat → Nat → Nat → Except Stop (List Rec × Nat)
  | 0, p, _ => .ok ([], p)
  | fuel + 1, p, room =>
    if p < T.length then
      match room with
      | 0 => raise .capTok
      | room + 1 =>
        match tokenizeFrom c T fuel (p + (recordAt c T p).runLength.toNat + 1) room with
        | .error e => .error e
        | .ok (rs, q) => .ok (recordAt c T p :: rs, q)
    else .ok ([], p)

/-- The change of state of TOKENIZE (R138). -/
def tokenize (s : State) : Except Stop State :=
  match tokenizeFrom s.cfg s.txt.valid s.txt.valid.length 0 s.cfg.tokCap with
  | .error e => .error e
  | .ok (rs, p) => .ok (setPos p (setTok rs s))

def writesFind : List Res := [.tokTail, .pos]
def writesTokenize : List Res := [.tok, .pos]

/-- FIND (R133). -/
def execFind (s : State) : Host.Outcome State Fault Refusal := runCommand writesFind find s

/-- TOKENIZE (R138). -/
def execTokenize (s : State) : Host.Outcome State Fault Refusal := runCommand writesTokenize tokenize s

end Sys2Proof.Machine
end

