-- ==== Sys2Proof/Machine/Replayer.lean ====
section
/-! DEFINITION. The token-stream replayer: REPLAY (43_replayer.md). -/

namespace Sys2Proof.Machine

/-- What a replay has made so far: the text, and whether a copy position was skipped. -/
structure Replayed where
  text : List Sym
  oor  : Bool
deriving DecidableEq, Repr

/-- `append(TXT, x)`. -/
def emit (cap : Nat) (x : Sym) (a : Replayed) : Except Stop Replayed :=
  match appended cap .capTxt a.text [x] with
  | .error e => .error e
  | .ok xs => .ok { a with text := xs }

/-- The copy of `n` symbols from index `idx` on (R190 to R193): an index below 0 or not below the present length is
skipped, and the index moves on. -/
def copyRun (cap : Nat) : Nat → Int → Replayed → Except Stop Replayed
  | 0, _, a => .ok a
  | n + 1, idx, a =>
    match (if 0 ≤ idx then a.text[idx.toNat]? else none) with
    | none => copyRun cap n (idx + 1) { a with oor := true }
    | some x =>
      match emit cap x a with
      | .error e => .error e
      | .ok a => copyRun cap n (idx + 1) a

/-- One record (R190): the copy from `TXT_LEN - distance`, then the literal unless it is the sentinel (R194). -/
def replayRec (cap : Nat) (r : Rec) (a : Replayed) : Except Stop Replayed :=
  match copyRun cap r.runLength.toNat ((a.text.length : Int) - (r.distance.toNat : Int)) a with
  | .error e => .error e
  | .ok a => if r.literal = sentinel then .ok a else emit cap r.literal a

/-- The records in order. -/
def replayRecs (cap : Nat) : List Rec → Replayed → Except Stop Replayed
  | [], a => .ok a
  | r :: rs, a =>
    match replayRec cap r a with
    | .error e => .error e
    | .ok a => replayRecs cap rs a

/-- The symbols that the final strip removes (R195). -/
def lineEnd (x : Sym) : Bool := x = .simple 0x0A || x = .simple 0x0D

/-- The trailing strip (R195). -/
def strip (t : List Sym) : List Sym := (t.reverse.dropWhile lineEnd).reverse

/-- The change of state of REPLAY (R190). -/
def replay (s : State) : Except Stop State :=
  match replayRecs s.cfg.txtCap s.tok.valid ⟨[], false⟩ with
  | .error e => .error e
  | .ok a => .ok (setOor a.oor (setTxt (strip a.text) s))

def writesReplay : List Res := [.txt, .oor]

/-- REPLAY (R190). -/
def execReplay (s : State) : Host.Outcome State Fault Refusal := runCommand writesReplay replay s

end Sys2Proof.Machine
end

