-- ==== Sys2Proof/Machine/Pipeline.lean ====
section
/-! DEFINITION. The whole pipeline and the return to the reset state: CLR, COMPRESS, DECOMPRESS (47_pipeline.md). -/

namespace Sys2Proof.Machine

/-- The change of state of COMPRESS (R277). -/
def compress (s : State) : Except Stop State :=
  match tokenize s with
  | .error e => .error e
  | .ok s =>
    match pack s with
    | .error e => .error e
    | .ok s => epack s

/-- The change of state of DECOMPRESS (R279). -/
def decompress (s : State) : Except Stop State :=
  match eunpack s with
  | .error e => .error e
  | .ok s =>
    match unpack s with
    | .error e => .error e
    | .ok s => replay s

def writesCompress : List Res := [.tok, .pos, .bit, .pre, .freq, .node, .code, .con, .bitcnt]
def writesDecompress : List Res := [.node, .conpos, .bitcnt, .pre, .bit, .tok, .bitpos, .trunc, .txt, .oor]

/-- CLR (R275): the only command accepted while a fault is recorded (60_exceptions.md R302). -/
def execClr (s : State) : Host.Outcome State Fault Refusal := .next (clearAll s)

/-- COMPRESS (R277). -/
def execCompress (s : State) : Host.Outcome State Fault Refusal := runCommand writesCompress compress s

/-- DECOMPRESS (R279). -/
def execDecompress (s : State) : Host.Outcome State Fault Refusal := runCommand writesDecompress decompress s

end Sys2Proof.Machine
end

