-- ==== Sys2Proof/Machine/Dispatch.lean ====
section
/-! DEFINITION. The meaning of every instruction: one arm per row of spec/opcode_table.json. -/

namespace Sys2Proof.Machine

def exec (i : Instr) (s : State) : Host.Outcome State Fault Refusal :=
  match i with
  | .clr => Sys2Proof.Machine.execClr s
  | .find => Sys2Proof.Machine.execFind s
  | .tokenize => Sys2Proof.Machine.execTokenize s
  | .tenc arg => Sys2Proof.Machine.execTenc arg s
  | .tdec => Sys2Proof.Machine.execTdec s
  | .b2y => Sys2Proof.Machine.execB2y s
  | .y2b => Sys2Proof.Machine.execY2b s
  | .pack => Sys2Proof.Machine.execPack s
  | .unpack => Sys2Proof.Machine.execUnpack s
  | .replay => Sys2Proof.Machine.execReplay s
  | .hbuild => Sys2Proof.Machine.execHbuild s
  | .ctab => Sys2Proof.Machine.execCtab s
  | .tser => Sys2Proof.Machine.execTser s
  | .tdes => Sys2Proof.Machine.execTdes s
  | .epack => Sys2Proof.Machine.execEpack s
  | .eunpack => Sys2Proof.Machine.execEunpack s
  | .compress => Sys2Proof.Machine.execCompress s
  | .decompress => Sys2Proof.Machine.execDecompress s
  | .recSimple d l b => Sys2Proof.Machine.execRecSimple d l b s
  | .recExtended d l b0 b1 b2 => Sys2Proof.Machine.execRecExtended d l b0 b1 b2 s
  | .treeLeaf v => Sys2Proof.Machine.execTreeLeaf v s
  | .treeInternal => Sys2Proof.Machine.execTreeInternal s
  | .container c => Sys2Proof.Machine.execContainer c s

end Sys2Proof.Machine
end

