-- ==== Sys2Proof/Machine/Fetch.lean ====
section
/-! DEFINITION. How the engine takes its next instruction. It has no program counter and fetches nothing from memory
(10_state.md R33, 20_memory.md R74): the host's accesses come one at a time, in one total order (R71), and the write of `CMD` starts a
command (R66). -/

namespace Sys2Proof.Machine

/-- What the next host access asks for. -/
inductive Fetched where
  /-- an instruction to run, and the state it runs in -/
  | run (i : Instr) (s : State)
  /-- the access is complete and leaves this state -/
  | done (s : State)
  /-- bytes that are no instruction -/
  | stop (r : Refusal)
deriving DecidableEq, Repr

/-- Bytes presented in a format, in a state from which the access is already taken. A command word that decodes to no
command is an illegal command (60_exceptions.md R298). -/
def fetchBytes (src : Source) (y : List Byte) (s : State) : Fetched :=
  match decode src y with
  | .ok i => .run i s
  | .error .unknownOpcode => .done (takeIllegal .unknownOpcode s)
  | .error .nonzeroArg => .done (takeIllegal .nonzeroArg s)
  | .error e => .stop (.notADatum e)

/-- One host access. -/
def fetchOp (op : HostOp) (s : State) : Fetched :=
  match op with
  | .regRead n => .done { s with reply := some (regRead s n).toNat }
  | .regWrite n v => if n = 0 then fetchBytes .command (leBytes 4 v.toNat) s else .done (regWrite n v s)
  | .bufRead sp i => .done { s with reply := some (bufRead s sp i), draw := s.draw + 1 }
  | .bufWrite sp i v => .done (bufWrite sp i v s)
  | .present src y => fetchBytes src y s
  | .reset => .done (resetEvent s)

/-- The next host access is taken from those pending; with none pending the engine rests. -/
def fetch (s : State) : Fetched :=
  match s.pending with
  | [] => .done s
  | op :: rest => fetchOp op { s with pending := rest }

/-- The host access that presents the bits `w` of a row of spec/opcode_table.json; for a command word it is the write of
`CMD`. -/
def opOfTableWord (nbits w : Nat) : HostOp :=
  if nbits = 32 then .regWrite 0 (BitVec.ofNat 32 w) else .present (tableBytes nbits w).1 (tableBytes nbits w).2

/-- The state in which that access comes next. -/
def placeNext (op : HostOp) (s : State) : State := { s with pending := op :: s.pending }

end Sys2Proof.Machine
end

