-- ==== Sys2Proof/Machine/Step.lean ====
section
/-! DEFINITION. One step: one host access and, when it presents an instruction, the whole effect of that instruction
(00_scope.md R17, 20_memory.md R71: "the `CMD` write and the command's whole effect are one step"). -/

namespace Sys2Proof.Machine

def step (s : State) : Host.Outcome State Fault Refusal :=
  match fetch s with
  | .run i s => exec i s
  | .done s => .next s
  | .stop r => .refused r

/-- `s` with the instruction of `nbits` bits `w` presented by the very next host access. -/
def State.withFetchWord (s : State) (nbits w : Nat) : State := placeNext (opOfTableWord nbits w) s

end Sys2Proof.Machine
end

