-- ==== Sys2Proof/Safety.lean ====
section
/-! DEFINITION. The terms claims are stated in: the invariants of a state, what a command leaves unchanged, and the rules of
the spec that describe a result without saying how it is computed (the greatest match, the merge order, the path of a
code). Nothing here is used by the machine. -/

namespace Sys2Proof.Safety

open Sys2Proof.Machine

/-! ## Invariants -/

/-- The parameters are legal (00_scope.md R7) and every buffer is in its canonical form, no longer than its capacity
(10_state.md R37). -/
def MemoryOk (s : State) : Prop := s.cfg.Wf ∧ Memory.wf s

/-- The children of a node stay below `n`. -/
def childrenBelow (n : Nat) : Node → Prop
  | .leaf _ _ => True
  | .internal _ l r => l.toNat < n ∧ r.toNat < n

/-- The indices met in a walk from arena index `i`, one entry per path that reaches a node; none when the walk leaves the
arena or is deeper than the fuel. -/
def visits (nodes : List Node) : Nat → Nat → Option (List Nat)
  | 0, _ => none
  | fuel + 1, i =>
    match nodes[i]? with
    | none => none
    | some (.leaf _ _) => some [i]
    | some (.internal _ l r) =>
      match visits nodes fuel l.toNat, visits nodes fuel r.toNat with
      | some xs, some ys => some (i :: (xs ++ ys))
      | _, _ => none

/-- 10_state.md R38: `ROOT` and every child are below `NODE_CNT`, which is at most `NODE_CAP`, and the nodes reachable from
`ROOT` form a finite tree that reaches each by exactly one path. -/
def ArenaTree (nodes : List Node) (root : Nat) : Prop :=
  nodes.length ≤ nodeCap ∧
  (nodes ≠ [] →
    root < nodes.length ∧ (∀ n ∈ nodes, childrenBelow nodes.length n) ∧
    ∃ ixs, visits nodes nodes.length root = some ixs ∧ ixs.Nodup)

/-- R38's invariant: "when `FAULT = 0` and `NODE_CNT > 0`". -/
def ArenaOk (s : State) : Prop := s.cause = none → ArenaTree s.node s.root.toNat

/-- No code begins with another value's code (44_prefix_tree.md R216). -/
def PrefixFree (t : Vector Code 256) : Prop :=
  ∀ v w q q', tableAt t v = some q → tableAt t w = some q' → v ≠ w → ¬ q <+: q'

/-- Every code has 1 to 255 bits (10_state.md R23), and no code begins with another's while no fault is recorded (after a
fault CODE may be unspecified, 60_exceptions.md R297). -/
def CodesOk (s : State) : Prop :=
  (∀ v q, tableAt s.code v = some q → 1 ≤ q.length ∧ q.length ≤ 255) ∧ (s.cause = none → PrefixFree s.code)

/-! ## What a command leaves unchanged (60_exceptions.md R297: "everything the rule does not list under "Writes" keeps its
value") -/

/-- One unit of the state is the same in `s` and `t`. For the `…Tail` units, which stand for the elements of an appending
command's buffer below the old length, the elements below the length in `s` are the same. -/
def sameRes (s t : State) : Res → Prop
  | .txt => t.txt = s.txt
  | .tok => t.tok = s.tok
  | .tokTail => ∀ i < s.tok.valid.length, t.tok.elem Config.freeRec i = s.tok.elem Config.freeRec i
  | .bit => t.bit = s.bit
  | .bitTail => ∀ i < s.bit.valid.length, t.bit.elem Config.freeBit i = s.bit.elem Config.freeBit i
  | .pre => t.pre = s.pre
  | .con => t.con = s.con
  | .conTail => ∀ i < s.con.valid.length, t.con.elem Config.freeCon i = s.con.elem Config.freeCon i
  | .node => t.node = s.node ∧ t.root = s.root
  | .code => t.code = s.code
  | .freq => t.freq = s.freq
  | .pos => t.pos = s.pos
  | .bitpos => t.bitpos = s.bitpos
  | .conpos => t.conpos = s.conpos
  | .bitcnt => t.bitcnt = s.bitcnt
  | .trunc => t.trunc = s.trunc
  | .oor => t.oor = s.oor

/-- Every unit but those in `written` is the same, and so are the parameters and the host's side of the ports; a fault that
was recorded stays recorded as it was. -/
def Unchanged (written : List Res) (s t : State) : Prop :=
  t.cfg = s.cfg ∧ t.pending = s.pending ∧ t.reply = s.reply ∧
  (s.cause.isSome → t.cause = s.cause) ∧ ∀ u : Res, u ∉ written → sameRes s t u

/-- The command ended in a fault with this code and sub-reason, recorded in `STATUS` and `FINFO`. -/
def Faulted (code info : Nat) (o : Host.Outcome State Fault Refusal) : Prop :=
  ∃ t, o = .next t ∧ t.cause.isSome ∧ faultField t = code ∧ finfoWord t = BitVec.ofNat 32 info

/-- The command ran to its end without a fault and left a state with this property. -/
def Completes (o : Host.Outcome State Fault Refusal) (P : State → Prop) : Prop :=
  ∃ t, o = .next t ∧ t.cause = none ∧ P t

/-- What each instruction may write: the "Writes" line of its rule, in units of the state. The units `tokTail`, `bitTail`
and `conTail`, the elements below the old length, are left out for the four commands that append (70_reset_and_hazards.md
R326) and listed for the commands that overwrite. -/
def writes : Instr → List Res
  | .clr => [.txt, .tok, .bit, .pre, .con, .node, .code, .freq, .pos, .bitpos, .conpos, .bitcnt, .trunc, .oor]
  | .find => [.tok, .pos]
  | .tokenize => [.tok, .tokTail, .pos]
  | .tenc _ => [.bit]
  | .tdec => [.tok, .bitpos, .trunc]
  | .b2y => [.pre]
  | .y2b => [.bit, .bitTail]
  | .pack => [.bit, .bitTail, .pre]
  | .unpack => [.bit, .bitTail, .tok, .tokTail, .bitpos, .trunc]
  | .replay => [.txt, .oor]
  | .hbuild => [.freq, .node]
  | .ctab => [.code]
  | .tser => [.con]
  | .tdes => [.node, .conpos]
  | .epack => [.freq, .node, .code, .con, .conTail, .bitcnt]
  | .eunpack => [.node, .conpos, .bitcnt, .pre]
  | .compress => [.tok, .tokTail, .pos, .bit, .bitTail, .pre, .freq, .node, .code, .con, .conTail, .bitcnt]
  | .decompress =>
    [.node, .conpos, .bitcnt, .pre, .bit, .bitTail, .tok, .tokTail, .bitpos, .trunc, .txt, .oor]
  | .recSimple _ _ _ | .recExtended _ _ _ _ _ => [.tok]
  | .treeLeaf _ | .treeInternal => [.con]
  | .container _ => [.con, .conTail]

/-- Every element of the five buffers, at whatever index, is the same in `s` and `t`. -/
def SameElements (s t : State) : Prop :=
  ∀ i, t.txt.elem Config.freeSym i = s.txt.elem Config.freeSym i ∧
    t.tok.elem Config.freeRec i = s.tok.elem Config.freeRec i ∧
    t.bit.elem Config.freeBit i = s.bit.elem Config.freeBit i ∧
    t.pre.elem Config.freePre i = s.pre.elem Config.freePre i ∧
    t.con.elem Config.freeCon i = s.con.elem Config.freeCon i

/-! ## The match finder (40_match_finder.md) -/

/-- The three conditions of R130 on a match length. -/
def Agree (maxMatch : Nat) (T : List Sym) (j p L : Nat) : Prop :=
  L ≤ maxMatch ∧ p + L ≤ T.length ∧ ∀ k < L, T[j + k]? = T[p + k]?

/-- The distances of the candidates at position `p` (R131). -/
def Candidate (c : Params) (p d : Nat) : Prop := 1 ≤ d ∧ d ≤ p ∧ d ≤ c.windowSize

/-- `r` is the record for position `p` (R132, R136): no candidate matches a symbol and `r` carries the symbol at `p`; or
`r` carries the greatest match length over all candidates, the smallest distance that reaches it, and the symbol after the
run, the sentinel when the run reaches the end of the text. -/
def IsRecordAt (c : Params) (T : List Sym) (p : Nat) (r : Rec) : Prop :=
  ((∀ d L, Candidate c p d → Agree c.maxMatch T (p - d) p L → L = 0) ∧
    r.distance = 0 ∧ r.runLength = 0 ∧ T[p]? = some r.literal) ∨
  (Candidate c p r.distance.toNat ∧ 1 ≤ r.runLength.toNat ∧
    Agree c.maxMatch T (p - r.distance.toNat) p r.runLength.toNat ∧
    (∀ d L, Candidate c p d → Agree c.maxMatch T (p - d) p L →
      L ≤ r.runLength.toNat ∧ (L = r.runLength.toNat → r.distance.toNat ≤ d)) ∧
    r.literal = T[p + r.runLength.toNat]?.getD sentinel)

/-- The position after the first `i` records: each accounts for its run and one more (R133). -/
def positionAfter (rs : List Rec) (i : Nat) : Nat := ((rs.take i).map fun r => r.runLength.toNat + 1).sum

/-- The number of bits of the records' wire forms. -/
def totalWidth (rs : List Rec) : Nat := (rs.map recWidth).sum

/-! ## The token codec (41_token_codec.md) -/

/-- The record whose first bit is `q[0]` is whole (R154). -/
def Whole (q : List Bit) : Prop := ∃ e, q[32]? = some e ∧ 41 + 16 * e.toNat ≤ q.length

/-- The degraded record of a truncated tag (R156): missing bits of the two fields are 0, the literal is the sentinel. -/
def IsTruncatedRecord (q : List Bit) (r : Rec) : Prop :=
  (∀ i < 16, r.distance.getLsbD i = q[i]?.getD false) ∧
  (∀ i < 16, r.runLength.getLsbD i = q[16 + i]?.getD false) ∧ r.literal = sentinel

/-- The records that the bits `q` are cut into (42_bitstream.md R173, R174), whether the last of them is the degraded one
of a truncated tag, and how many bits are consumed: whole records from the start, then fewer than 8 bits, which are left, or
8 or more that hold no whole record, which are all consumed. -/
def CutsInto (q : List Bit) (rs : List Rec) (truncated : Bool) (consumed : Nat) : Prop :=
  ∃ whole rest, q = whole.flatMap encRec ++ rest ∧
    ((rest.length < 8 ∧ rs = whole ∧ truncated = false ∧ consumed = totalWidth whole) ∨
      (8 ≤ rest.length ∧ ¬ Whole rest ∧ truncated = true ∧ consumed = q.length ∧
        ∃ r, IsTruncatedRecord rest r ∧ rs = whole ++ [r]))

/-! ## The replayer (43_replayer.md) -/

/-- What one record copies onto the output `O` (R191 to R193): nothing when no position is in range; otherwise a run that
is shorter than `run_length` by the positions before the start of the output, each symbol equal to the one `distance`
before it (before the start of the output: the first one). -/
def IsCopy (O : List Sym) (r : Rec) (run : List Sym) : Prop :=
  if r.distance = 0 ∨ O = [] then run = []
  else
    run.length = r.runLength.toNat - (r.distance.toNat - O.length) ∧
    ∀ k < run.length, (O ++ run)[O.length + k]? = (O ++ run)[O.length - r.distance.toNat + k]?

/-- At least one copy position of the record is out of range (R193). -/
def SkipsPosition (O : List Sym) (r : Rec) : Prop :=
  1 ≤ r.runLength.toNat ∧ (r.distance = 0 ∨ O.length < r.distance.toNat)

/-- The replay of the records onto the output `O` gives `O'`, before the final strip; `oor` says whether a position was
skipped. The literal is appended unless it is the sentinel (R194). -/
def Replays : List Rec → List Sym → List Sym → Bool → Prop
  | [], O, O', oor => O' = O ∧ oor = false
  | r :: rs, O, O', oor =>
    ∃ run rest, IsCopy O r run ∧
      Replays rs (O ++ run ++ (if r.literal = sentinel then [] else [r.literal])) O' rest ∧
      (oor = true ↔ SkipsPosition O r ∨ rest = true)

/-- `S(0x0A)` or `S(0x0D)` (R195). -/
def IsLineEnd (x : Sym) : Prop := x = .simple 0x0A ∨ x = .simple 0x0D

/-- `T` is `O` without its trailing line ends (R195). -/
def IsStripOf (O T : List Sym) : Prop :=
  ∃ tail, O = T ++ tail ∧ (∀ x ∈ tail, IsLineEnd x) ∧ ∀ x, T.getLast? = some x → ¬ IsLineEnd x

/-! ## The prefix tree (44_prefix_tree.md) -/

/-- The weight of the node at an index. -/
def weightAt (nodes : List Node) (i : Nat) : Nat :=
  match nodes[i]? with
  | some (.leaf w _) => w.toNat
  | some (.internal w _ _) => w.toNat
  | none => 0

/-- The priority order of R209 on arena indices. -/
def Sooner (nodes : List Node) (i j : Nat) : Prop :=
  weightAt nodes i < weightAt nodes j ∨ (weightAt nodes i = weightAt nodes j ∧ i < j)

/-- Node `j` is internal and has `i` as a child. -/
def ChildOf (nodes : List Node) (i j : Nat) : Prop :=
  ∃ w l r, nodes[j]? = some (.internal w l r) ∧ (l.toNat = i ∨ r.toNat = i)

/-- The merge rule of R210: the children of each internal node are, in the order of R209, the first and the second of the
nodes that came before it and were not yet taken, the first on the left, and its weight is the sum of theirs. -/
def MergeOrder (nodes : List Node) : Prop :=
  ∀ k w l r, nodes[k]? = some (.internal w l r) →
    l.toNat < k ∧ r.toNat < k ∧ Sooner nodes l.toNat r.toNat ∧
    w.toNat = weightAt nodes l.toNat + weightAt nodes r.toNat ∧
    (∀ j < k, ¬ ChildOf nodes l.toNat j ∧ ¬ ChildOf nodes r.toNat j) ∧
    ∀ i < k, (∀ j < k, ¬ ChildOf nodes i j) → i ≠ l.toNat → i ≠ r.toNat → Sooner nodes r.toNat i

/-- The subtree that a sequence of edges leads to, left on 0 and right on 1 (R213). -/
def follow : Tree → List Bit → Option Tree
  | t, [] => some t
  | .leaf _, _ :: _ => none
  | .node l r, b :: q => follow (if b then r else l) q

/-- The byte values in the leaves, left to right. -/
def leafValues : Tree → List Byte
  | .leaf v => [v]
  | .node l r => leafValues l ++ leafValues r

/-- `q` is a code of the byte value `v` in the tree (R213, R214): the path to a leaf that holds `v`, or the one bit 0 when
the tree is that leaf. -/
def IsCode : Tree → Byte → List Bit → Prop
  | .leaf w, v, q => v = w ∧ q = [false]
  | .node l r, v, q => follow (.node l r) q = some (.leaf v)

/-- The bits are codes of these bytes, one after the other (46_entropy.md R252, R259, R260). -/
def Spells (t : Tree) : List Byte → List Bit → Prop
  | [], q => q = []
  | v :: y, q => ∃ c rest, q = c ++ rest ∧ IsCode t v c ∧ Spells t y rest

/-- `q` is the first `b` bits of the payload `y`: bit `k` is `msb_bit(y, k)` (20_memory.md R64, 46_entropy.md R259). -/
def PayloadBits (y : List Byte) (b : Nat) (q : List Bit) : Prop :=
  q.length = b ∧ ∀ k < b, q[k]? = y[k / 8]?.map fun x => x.getLsbD (7 - k % 8)

/-- A tree's bytes read so far, in the order of R101 (45_tree_serializer.md R234): after `y`, which holds `k` nodes, a
marker is due when `n` subtrees still to come are one or more, and the tree is complete when they are none. -/
inductive InTree : (y : List Byte) → (n k : Nat) → Prop
  /-- nothing read: the tree itself is to come -/
  | start : InTree [] 1 0
  /-- an internal node's marker: two subtrees are to come in place of one -/
  | internal {y n k} : InTree y (n + 1) k → InTree (y ++ [0x00]) (n + 2) (k + 1)
  /-- a leaf's marker and value: one subtree less is to come -/
  | leaf {y n k} (v : Byte) : InTree y (n + 1) k → InTree (y ++ [0x01, v]) n (k + 1)

/-- The byte values of a buffer, each once, ascending (R208). -/
def valuesOf (y : List Byte) : List Byte := ((List.range 256).map (BitVec.ofNat 8)).filter (· ∈ y)

/-! ## The whole pipeline -/

/-- The sufficient capacities of 00_scope.md R9. -/
def CapacitiesSuffice (c : Params) : Prop :=
  c.txtCap ≤ c.tokCap ∧ 57 * c.tokCap ≤ c.bitCap ∧ ceil8 c.bitCap ≤ c.preCap ∧
  771 + ceil8 (255 * c.preCap) ≤ c.conCap ∧ 255 * c.preCap < 2 ^ 32

/-- The eighteen opcodes of 30_encoding.md R92. -/
def commandOpcodes : List Byte :=
  [0x01, 0x10, 0x11, 0x20, 0x21, 0x22, 0x23, 0x24, 0x25, 0x28, 0x30, 0x31, 0x32, 0x33, 0x34, 0x35, 0x40, 0x41]

end Sys2Proof.Safety
end

