-- ==== Sys2Proof/Certificates/Slice0/Obligations.lean ====
section
/-! DEFINITION. The statements for the provers, from the numbered rules of spec/. Each docstring names the rules; the
vocabulary is Safety's. A statement about a free value holds for every value of it. -/

open Sys2Proof Sys2Proof.Machine Sys2Proof.Safety

/-! ## The command word and the step -/

/-- R71, R90: a `CMD` write, or any other presenting of bytes that decode to an instruction, makes one step: the
instruction's whole effect, on the state from which that host access is taken off the list of those to come. -/
def Obligations.StepRunsTheInstruction : Prop :=
  (∀ s rest w i, s.pending = .regWrite 0 w :: rest → decodeWord w = .ok i →
    step s = exec i { s with pending := rest }) ∧
  ∀ s rest src y i, s.pending = .present src y :: rest → decode src y = .ok i →
    step s = exec i { s with pending := rest }

/-- R66, R67, R71, R320: every other host access is one step too: a read answers its number and changes nothing of the
engine, a write stores, a reset resets; with no access to come nothing happens. -/
def Obligations.StepTakesEveryOtherAccess : Prop :=
  (∀ s, s.pending = [] → step s = .next s) ∧
  (∀ s rest n, s.pending = .regRead n :: rest →
    step s = .next { s with pending := rest, reply := some (regRead s n).toNat }) ∧
  (∀ s rest n v, s.pending = .regWrite n v :: rest → n ≠ 0 →
    step s = .next (regWrite n v { s with pending := rest })) ∧
  (∀ s rest sp i, s.pending = .bufRead sp i :: rest →
    step s = .next { s with pending := rest, reply := some (bufRead s sp i), draw := s.draw + 1 }) ∧
  (∀ s rest sp i v, s.pending = .bufWrite sp i v :: rest →
    step s = .next (bufWrite sp i v { s with pending := rest })) ∧
  ∀ s rest, s.pending = .reset :: rest → step s = .next (resetEvent { s with pending := rest })

/-- R92, R97, R101, R112, R113: a few words, written out bit by bit, and what they spell. -/
def Obligations.SampleWordsDecode : Prop :=
  decodeTableWord 32 0b00000000000000000000000000000001 = some .clr ∧
  decodeTableWord 32 0b00000000000000000000000000010001 = some .tokenize ∧
  decodeTableWord 32 0b00000000000000000000001100100000 = some (.tenc 3) ∧
  decodeTableWord 32 0b00000000000000000000000001000000 = some .compress ∧
  decodeTableWord 41 0b01000001000000000000000110000000000000010 = some (.recSimple 2 3 0x41) ∧
  decodeTableWord 57 0b100000101000001011100010100000000000000000000000000000000 =
    some (.recExtended 0 0 0xE2 0x82 0x82) ∧
  decodeTableWord 16 0b0000000101000001 = some (.treeLeaf 0x41) ∧
  decodeTableWord 8 0b00000000 = some .treeInternal ∧
  decode .container [] = .ok (.container .empty) ∧
  decode .container [0x01, 0x41, 0x00, 0x00, 0x00, 0x05, 0x00] =
    .ok (.container (.coded (.leaf 0x41) 5 [0x00]))

/-- R90 to R92, R96, R98, R101, R108, R114: decoding what the encoder writes gives the instruction back, for every
well-formed instruction and every value of its operands. -/
def Obligations.DecodeInvertsEncode : Prop :=
  ∀ i : Instr, i.wellFormed = true → decode i.source (encode i) = .ok i

/-- R90 to R93, R96, R98, R101, R114: bytes that decode are those that the encoder writes for that instruction, which is
well formed; for a record, whose bits need not fill the bytes (20_memory.md R61), the record's bits come first. -/
def Obligations.EncodeInvertsDecode : Prop :=
  ∀ src y i, decode src y = .ok i →
    i.source = src ∧ i.wellFormed = true ∧
    match i with
    | .recSimple d l b => encRec ⟨d, l, .simple b⟩ <+: bitsLsb y
    | .recExtended d l b0 b1 b2 => encRec ⟨d, l, .extended b0 b1 b2⟩ <+: bitsLsb y
    | i => y = encode i

/-- R93, R298: a `CMD` write whose opcode is none of the eighteen, or whose bits 31 to 8 are not 0 where they must be,
records `IllegalCommand` with its sub-reason and changes nothing else; every other word is the word of a command. -/
def Obligations.IllegalWordsAreRecorded : Prop :=
  (∀ s rest w, s.pending = .regWrite 0 w :: rest → s.cause = none → w.extractLsb' 0 8 ∉ commandOpcodes →
    ∃ c, causeCode c = 1 ∧ causeInfo c = 1 ∧ step s = .next { s with pending := rest, cause := some c }) ∧
  (∀ s rest w, s.pending = .regWrite 0 w :: rest → s.cause = none → w.extractLsb' 0 8 ∈ commandOpcodes →
    w.extractLsb' 0 8 ≠ 0x20 → w.extractLsb' 8 24 ≠ 0 →
    ∃ c, causeCode c = 1 ∧ causeInfo c = 2 ∧ step s = .next { s with pending := rest, cause := some c }) ∧
  ∀ w : Word, w.extractLsb' 0 8 ∈ commandOpcodes → w.extractLsb' 0 8 = 0x20 ∨ w.extractLsb' 8 24 = 0 →
    ∃ i, decodeWord w = .ok i ∧ i.source = .command ∧ encodeWord i = w

/-! ## Faults -/

/-- R302: while a fault is recorded, every `CMD` write but that of the word 1 is refused and changes nothing (the access
itself is taken); the word 1 is `CLR`, which clears the fault and every register of a call. The same holds of every command as an instruction. -/
def Obligations.FaultRefusesEveryCommandButClr : Prop :=
  (∀ s rest w, s.pending = .regWrite 0 w :: rest → s.cause.isSome → w ≠ 1 →
    step s = .next { s with pending := rest }) ∧
  (∀ s rest, s.pending = .regWrite 0 1 :: rest → step s = .next (clearAll { s with pending := rest })) ∧
  (∀ s, (clearAll s).cause = none ∧ ∀ n, n ≠ 3 → n ≠ 4 → regRead (clearAll s) n = 0) ∧
  ∀ i s, i.source = .command → i ≠ .clr → s.cause.isSome → exec i s = .next s

/-- R35, R302: no step but the write of `CLR` (or its presenting) and a reset changes a recorded fault. -/
def Obligations.FaultClearsOnlyByClrOrReset : Prop :=
  ∀ s t, step s = .next t → s.cause.isSome → t.cause ≠ s.cause →
    ∃ op rest, s.pending = op :: rest ∧
      (op = .regWrite 0 1 ∨ op = .present .command [1, 0, 0, 0] ∨ op = .reset) ∧ t.cause = none

/-- R35, R295, R296: the fields of `STATUS`, bit by bit, and that the host cannot write it; the fault field is 0 exactly
when no fault is recorded and never above 4, `FINFO` is 0 exactly when none is, and the two together name the fault. -/
def Obligations.StatusAndFinfoNameTheFault : Prop :=
  (∀ s, (regRead s 1).getLsbD 0 = s.trunc ∧ (regRead s 1).getLsbD 1 = s.oor ∧
    ((regRead s 1).extractLsb' 2 6).toNat = 0 ∧ ((regRead s 1).extractLsb' 8 8).toNat = faultField s ∧
    ((regRead s 1).extractLsb' 16 16).toNat = 0 ∧ ∀ v, regWrite 1 v s = s) ∧
  (∀ s, (faultField s = 0 ↔ s.cause = none) ∧ faultField s ≤ 4 ∧ (regRead s 2 = 0 ↔ s.cause = none)) ∧
  ∀ s t, faultField s = faultField t → regRead s 2 = regRead t 2 → s.cause = t.cause

/-! ## Registers and ports -/

/-- R34, R66, R75: a host write of an `RW` register is read back (of a length, when it fits) and leaves every other
register as it reads; a write of an `R` or absent register does nothing; `CMD` and absent registers read 0. -/
def Obligations.RegisterPort : Prop :=
  (∀ s v n m, (n = 10 ∨ n = 11 ∨ n = 12) → regRead (regWrite n v s) m = if m = n then v else regRead s m) ∧
  (∀ (s : State) (v : Word) (n m : Nat),
    (n = 5 ∧ v.toNat ≤ s.cfg.txtCap) ∨ (n = 6 ∧ v.toNat ≤ s.cfg.tokCap) ∨ (n = 7 ∧ v.toNat ≤ s.cfg.bitCap) ∨
      (n = 8 ∧ v.toNat ≤ s.cfg.preCap) ∨ (n = 9 ∧ v.toNat ≤ s.cfg.conCap) →
    regRead (regWrite n v s) m = if m = n then v else regRead s m) ∧
  (∀ (s : State) (v : Word) (n : Nat), n ∈ [1, 2, 3, 4, 13, 14, 15] ∨ 16 ≤ n → regWrite n v s = s) ∧
  ∀ (s : State) (n : Nat), n = 0 ∨ 16 ≤ n → regRead s n = 0

/-- R37, R42: a length register takes any value up to the capacity, ignores every other, and touches no element: a raised
length exposes whatever the elements hold, a lowered one keeps them. Nothing else changes. -/
def Obligations.LengthWrites : Prop :=
  (∀ (s : State) (v : Word),
    (v.toNat ≤ s.cfg.txtCap → (regWrite 5 v s).txt.valid.length = v.toNat ∧ SameElements s (regWrite 5 v s) ∧
      regWrite 5 v s = { s with txt := (regWrite 5 v s).txt }) ∧
    (s.cfg.txtCap < v.toNat → regWrite 5 v s = s)) ∧
  (∀ (s : State) (v : Word),
    (v.toNat ≤ s.cfg.tokCap → (regWrite 6 v s).tok.valid.length = v.toNat ∧ SameElements s (regWrite 6 v s) ∧
      regWrite 6 v s = { s with tok := (regWrite 6 v s).tok }) ∧
    (s.cfg.tokCap < v.toNat → regWrite 6 v s = s)) ∧
  (∀ (s : State) (v : Word),
    (v.toNat ≤ s.cfg.bitCap → (regWrite 7 v s).bit.valid.length = v.toNat ∧ SameElements s (regWrite 7 v s) ∧
      regWrite 7 v s = { s with bit := (regWrite 7 v s).bit }) ∧
    (s.cfg.bitCap < v.toNat → regWrite 7 v s = s)) ∧
  (∀ (s : State) (v : Word),
    (v.toNat ≤ s.cfg.preCap → (regWrite 8 v s).pre.valid.length = v.toNat ∧ SameElements s (regWrite 8 v s) ∧
      regWrite 8 v s = { s with pre := (regWrite 8 v s).pre }) ∧
    (s.cfg.preCap < v.toNat → regWrite 8 v s = s)) ∧
  ∀ (s : State) (v : Word),
    (v.toNat ≤ s.cfg.conCap → (regWrite 9 v s).con.valid.length = v.toNat ∧ SameElements s (regWrite 9 v s) ∧
      regWrite 9 v s = { s with con := (regWrite 9 v s).con }) ∧
    (s.cfg.conCap < v.toNat → regWrite 9 v s = s)

/-- R67: a host write below the capacity stores the element, narrowed as R61 says, and no other; one at or beyond the
capacity does nothing. The length register and everything outside the buffer stay. That a number wider than the element
loses its upper bits is the model's choice (notes/assumptions/20.md). -/
def Obligations.BufferPortWrites : Prop :=
  (∀ (s : State) (i v : Nat),
    (i < s.cfg.txtCap → (∀ j, (bufWrite .txt i v s).txt.elem Config.freeSym j =
        if j = i then symOfNumber v else s.txt.elem Config.freeSym j) ∧
      (bufWrite .txt i v s).txt.valid.length = s.txt.valid.length ∧
      bufWrite .txt i v s = { s with txt := (bufWrite .txt i v s).txt }) ∧
    (s.cfg.txtCap ≤ i → bufWrite .txt i v s = s)) ∧
  (∀ (s : State) (i v : Nat),
    (i < s.cfg.tokCap → (∀ j, (bufWrite .tok i v s).tok.elem Config.freeRec j =
        if j = i then recOfNumber v else s.tok.elem Config.freeRec j) ∧
      (bufWrite .tok i v s).tok.valid.length = s.tok.valid.length ∧
      bufWrite .tok i v s = { s with tok := (bufWrite .tok i v s).tok }) ∧
    (s.cfg.tokCap ≤ i → bufWrite .tok i v s = s)) ∧
  (∀ (s : State) (i v : Nat),
    (i < s.cfg.bitCap → (∀ j, (bufWrite .bit i v s).bit.elem Config.freeBit j =
        if j = i then v.testBit 0 else s.bit.elem Config.freeBit j) ∧
      (bufWrite .bit i v s).bit.valid.length = s.bit.valid.length ∧
      bufWrite .bit i v s = { s with bit := (bufWrite .bit i v s).bit }) ∧
    (s.cfg.bitCap ≤ i → bufWrite .bit i v s = s)) ∧
  (∀ (s : State) (i v : Nat),
    (i < s.cfg.preCap → (∀ j, (bufWrite .pre i v s).pre.elem Config.freePre j =
        if j = i then BitVec.ofNat 8 v else s.pre.elem Config.freePre j) ∧
      (bufWrite .pre i v s).pre.valid.length = s.pre.valid.length ∧
      bufWrite .pre i v s = { s with pre := (bufWrite .pre i v s).pre }) ∧
    (s.cfg.preCap ≤ i → bufWrite .pre i v s = s)) ∧
  ∀ (s : State) (i v : Nat),
    (i < s.cfg.conCap → (∀ j, (bufWrite .con i v s).con.elem Config.freeCon j =
        if j = i then BitVec.ofNat 8 v else s.con.elem Config.freeCon j) ∧
      (bufWrite .con i v s).con.valid.length = s.con.valid.length ∧
      bufWrite .con i v s = { s with con := (bufWrite .con i v s).con }) ∧
    (s.cfg.conCap ≤ i → bufWrite .con i v s = s)

/-- R68: the host cannot write NODE, CODE or FREQ. -/
def Obligations.ReadOnlySpaces : Prop :=
  ∀ (s : State) (i v : Nat), bufWrite .node i v s = s ∧ bufWrite .code i v s = s ∧ bufWrite .freq i v s = s

/-- R67: a host read below the length gives the element's number, one at or beyond the capacity gives 0, and one between
the two gives the number of some element of the type (which one is unspecified). -/
def Obligations.BufferPortReads : Prop :=
  (∀ (s : State) (i : Nat),
    (s.cfg.txtCap ≤ i → bufRead s .txt i = 0) ∧
    (i < s.cfg.txtCap → ∃ x, bufRead s .txt i = symNumber x ∧ ∀ y, s.txt.valid[i]? = some y → x = y)) ∧
  (∀ (s : State) (i : Nat),
    (s.cfg.tokCap ≤ i → bufRead s .tok i = 0) ∧
    (i < s.cfg.tokCap → ∃ x, bufRead s .tok i = recNumber x ∧ ∀ y, s.tok.valid[i]? = some y → x = y)) ∧
  (∀ (s : State) (i : Nat),
    (s.cfg.bitCap ≤ i → bufRead s .bit i = 0) ∧
    (i < s.cfg.bitCap → ∃ x : Bit, bufRead s .bit i = x.toNat ∧ ∀ y, s.bit.valid[i]? = some y → x = y)) ∧
  (∀ (s : State) (i : Nat),
    (s.cfg.preCap ≤ i → bufRead s .pre i = 0) ∧
    (i < s.cfg.preCap → ∃ x : Byte, bufRead s .pre i = x.toNat ∧ ∀ y, s.pre.valid[i]? = some y → x = y)) ∧
  (∀ (s : State) (i : Nat),
    (s.cfg.conCap ≤ i → bufRead s .con i = 0) ∧
    (i < s.cfg.conCap → ∃ x : Byte, bufRead s .con i = x.toNat ∧ ∀ y, s.con.valid[i]? = some y → x = y)) ∧
  (∀ (s : State) (i : Nat),
    (511 ≤ i → bufRead s .node i = 0) ∧
    (i < 511 → ∃ x, bufRead s .node i = nodeNumber x ∧ ∀ y, s.node[i]? = some y → x = y)) ∧
  ∀ (s : State),
    (∀ v : Byte, bufRead s .code v.toNat = codeNumber (tableAt s.code v) ∧
      bufRead s .freq v.toNat = (tableAt s.freq v).toNat) ∧
    ∀ i, 256 ≤ i → bufRead s .code i = 0 ∧ bufRead s .freq i = 0

/-- R61: the layout of each element at the port, field by field, and the narrowing of a written symbol or record (of a
number wider than the element the upper bits are dropped: the model's choice, notes/assumptions/20.md). -/
def Obligations.PortLayout : Prop :=
  (∀ b : Byte, symNumber (.simple b) = b.toNat) ∧
  (∀ b0 b1 b2 : Byte, symNumber (.extended b0 b1 b2) / 2 ^ 24 = 1 ∧
    symNumber (.extended b0 b1 b2) % 2 ^ 8 = b0.toNat ∧ symNumber (.extended b0 b1 b2) / 2 ^ 8 % 2 ^ 8 = b1.toNat ∧
    symNumber (.extended b0 b1 b2) / 2 ^ 16 % 2 ^ 8 = b2.toNat) ∧
  (∀ r i, (recNumber r).testBit i = ((encRec r)[i]?).getD false) ∧
  (∀ r, recNumber r % 2 ^ 16 = r.distance.toNat ∧ recNumber r / 2 ^ 16 % 2 ^ 16 = r.runLength.toNat ∧
    recNumber r / 2 ^ 32 % 2 = (symExt r.literal).toNat ∧
    recNumber r / 2 ^ 33 = symNumber r.literal % 2 ^ 24) ∧
  (∀ w v, nodeNumber (.leaf w v) % 2 = 1 ∧ nodeNumber (.leaf w v) / 2 % 2 ^ 32 = w.toNat ∧
    nodeNumber (.leaf w v) / 2 ^ 33 = v.toNat) ∧
  (∀ w l r, nodeNumber (.internal w l r) % 2 = 0 ∧ nodeNumber (.internal w l r) / 2 % 2 ^ 32 = w.toNat ∧
    nodeNumber (.internal w l r) / 2 ^ 33 % 2 ^ 8 = 0 ∧ nodeNumber (.internal w l r) / 2 ^ 41 % 2 ^ 16 = l.toNat ∧
    nodeNumber (.internal w l r) / 2 ^ 57 = r.toNat) ∧
  codeNumber none = 0 ∧
  (∀ q, 1 ≤ q.length → q.length ≤ 255 → codeNumber (some q) % 2 ^ 8 = q.length ∧
    ∀ i, (codeNumber (some q)).testBit (8 + i) = q[i]?.getD false) ∧
  (∀ v : Nat, symOfNumber v =
    if v / 2 ^ 24 % 2 = 0 then .simple (BitVec.ofNat 8 v)
    else .extended (BitVec.ofNat 8 v) (BitVec.ofNat 8 (v / 2 ^ 8)) (BitVec.ofNat 8 (v / 2 ^ 16))) ∧
  (∀ v : Nat, recOfNumber v =
    ⟨BitVec.ofNat 16 v, BitVec.ofNat 16 (v / 2 ^ 16), symOfNumber (v / 2 ^ 33 % 2 ^ 24 + v / 2 ^ 32 % 2 * 2 ^ 24)⟩) ∧
  (∀ x, symOfNumber (symNumber x) = x) ∧ ∀ r, recOfNumber (recNumber r) = r

/-! ## Reset, CLR and the invariants -/

/-- R46, R321: after reset every register reads its reset value, every code is absent, every count 0 (the elements of the
buffers are unspecified, so nothing is said of them); the reset event leads from any state to such a state; and `CLR` gives
the same registers, lengths, codes and counts as the reset event. -/
def Obligations.ResetStateAndClrAgree : Prop :=
  (∀ n, regRead State.reset n = if n = 3 then BitVec.ofNat 32 Config.params.windowSize
    else if n = 4 then BitVec.ofNat 32 Config.params.maxMatch else 0) ∧
  (∀ v, tableAt State.reset.code v = none ∧ tableAt State.reset.freq v = 0) ∧
  (∀ s n, regRead (resetEvent s) n = if n = 3 then BitVec.ofNat 32 s.cfg.windowSize
    else if n = 4 then BitVec.ofNat 32 s.cfg.maxMatch else 0) ∧
  (∀ s v, tableAt (resetEvent s).code v = none ∧ tableAt (resetEvent s).freq v = 0) ∧
  ∀ s t, exec .clr s = .next t →
    (∀ n, regRead t n = regRead (resetEvent s) n) ∧ t.code = (resetEvent s).code ∧ t.freq = (resetEvent s).freq ∧
    t.txt.valid = (resetEvent s).txt.valid ∧ t.tok.valid = (resetEvent s).tok.valid ∧
    t.bit.valid = (resetEvent s).bit.valid ∧ t.pre.valid = (resetEvent s).pre.valid ∧
    t.con.valid = (resetEvent s).con.valid ∧ t.node = (resetEvent s).node

/-- R275: `CLR` completes from every state, also a faulted one: every register but the two configuration registers reads
0, every code is absent, every count 0. R329: the elements of the buffers still hold what they held. -/
def Obligations.ClrClearsEveryRegister : Prop :=
  ∀ s, Completes (exec .clr s) fun t =>
    (∀ n, regRead t n = if n = 3 ∨ n = 4 then regRead s n else 0) ∧
    (∀ v, tableAt t.code v = none ∧ tableAt t.freq v = 0) ∧ SameElements s t ∧
    t.cfg = s.cfg ∧ t.pending = s.pending ∧ t.reply = s.reply

/-- The three invariants hold at reset (R7, R37; R38; R23 and R216). -/
def Obligations.InvariantsHoldAtReset : Prop :=
  MemoryOk State.reset ∧ ArenaOk State.reset ∧ CodesOk State.reset

/-- R7, R37: every step keeps every buffer within its capacity and in its canonical form. -/
def Obligations.StepsKeepMemoryOk : Prop := ∀ s t, MemoryOk s → step s = .next t → MemoryOk t

/-- R38: every step keeps the arena a finite tree below `ROOT`, while no fault is recorded. -/
def Obligations.StepsKeepArenaOk : Prop := ∀ s t, ArenaOk s → step s = .next t → ArenaOk t

/-- R23, R215, R216: every step keeps every code at 1 to 255 bits, and, while no fault is recorded, the code table
prefix-free: whatever tree it came from, and whatever the host does between. -/
def Obligations.StepsKeepCodesOk : Prop := ∀ s t, ArenaOk s → CodesOk s → step s = .next t → CodesOk t

/-- R36: no command and no host write changes the parameters, and the two registers always read them. -/
def Obligations.ParametersNeverChange : Prop :=
  (∀ s t, step s = .next t → t.cfg = s.cfg) ∧ (∀ i s t, exec i s = .next t → t.cfg = s.cfg) ∧
  ∀ s, regRead s 3 = BitVec.ofNat 32 s.cfg.windowSize ∧ regRead s 4 = BitVec.ofNat 32 s.cfg.maxMatch

/-- R38, R285: every instruction ends in a next state, from every state whose arena is as R38 says; and no step from such
a state stops the machine with a fault of the model. -/
def Obligations.EveryCommandEnds : Prop :=
  (∀ i s, ArenaOk s → ∃ t, exec i s = .next t) ∧ ∀ s f, ArenaOk s → step s ≠ .fault f

/-! ## The match finder -/

/-- R132, R136 (and R133): `FIND` appends the record of the current position and moves behind it, to a position that fits
the register (the one that does not, after a text of `2^32 - 1` symbols, is notes/assumptions/13.md's). -/
def Obligations.FindAppendsTheRecord : Prop :=
  ∀ s, s.cause = none → s.cfg.Wf → s.pos.toNat < s.txt.valid.length → s.tok.valid.length < s.cfg.tokCap →
    Completes (exec .find s) fun t =>
      ∃ r, t.tok.valid = s.tok.valid ++ [r] ∧ IsRecordAt s.cfg s.txt.valid s.pos.toNat r ∧
        (s.pos.toNat + r.runLength.toNat + 1 < 2 ^ 32 → t.pos.toNat = s.pos.toNat + r.runLength.toNat + 1)

/-- R134, R138, R139, R140: `TOKENIZE` leaves the records of the positions from 0 on, each behind the one before; at most
one per symbol; `POS` ends at the length, or one behind it exactly when the last record's run reached the end (its
literal is then the sentinel); so runs and literals taken from the text add up to the length. That `POS` holds a position
of `2^32` is not claimed (notes/assumptions/13.md). -/
def Obligations.TokenizeCoversTheText : Prop :=
  ∀ s, s.cause = none → s.cfg.Wf → s.txt.valid.length ≤ s.cfg.tokCap →
    Completes (exec .tokenize s) fun t =>
      (∀ i r, t.tok.valid[i]? = some r →
        positionAfter t.tok.valid i < s.txt.valid.length ∧
        IsRecordAt s.cfg s.txt.valid (positionAfter t.tok.valid i) r) ∧
      t.tok.valid.length ≤ s.txt.valid.length ∧
      (s.txt.valid.length + 1 < 2 ^ 32 → t.pos.toNat = positionAfter t.tok.valid t.tok.valid.length) ∧
      ((positionAfter t.tok.valid t.tok.valid.length = s.txt.valid.length ∧
          ∀ r, t.tok.valid.getLast? = some r →
            positionAfter t.tok.valid (t.tok.valid.length - 1) + r.runLength.toNat < s.txt.valid.length) ∨
        (positionAfter t.tok.valid t.tok.valid.length = s.txt.valid.length + 1 ∧
          ∃ r, t.tok.valid.getLast? = some r ∧ r.literal = sentinel ∧
            positionAfter t.tok.valid (t.tok.valid.length - 1) + r.runLength.toNat = s.txt.valid.length))

/-- R133, R138, R296, R301: `FIND` checks the position before the capacity; `TOKENIZE` faults when the records made so far
fill TOK and symbols are left. -/
def Obligations.FinderFaults : Prop :=
  (∀ s, s.cause = none → s.txt.valid.length ≤ s.pos.toNat → Faulted 2 2 (exec .find s)) ∧
  (∀ s, s.cause = none → s.pos.toNat < s.txt.valid.length → s.cfg.tokCap ≤ s.tok.valid.length →
    Faulted 3 2 (exec .find s)) ∧
  ∀ (s : State) (rs : List Rec), s.cause = none → s.cfg.Wf → rs.length = s.cfg.tokCap →
    (∀ i r, rs[i]? = some r →
      positionAfter rs i < s.txt.valid.length ∧ IsRecordAt s.cfg s.txt.valid (positionAfter rs i) r) →
    positionAfter rs rs.length < s.txt.valid.length → Faulted 3 2 (exec .tokenize s)

/-- R142, R143: a text in which no symbol comes again within the window (pairwise different symbols among them) gives one
no-match record per symbol; and the text `ABABABAB` at position 2, for every window of 2 or more and every maximum match
length: the position before it matches nothing, the one two before it all six symbols that are left. -/
def Obligations.FinderTestProperties : Prop :=
  (∀ s, s.cause = none → s.txt.valid.length ≤ s.cfg.tokCap →
    (∀ i j, i < j → j < s.txt.valid.length → j - i ≤ s.cfg.windowSize → s.txt.valid[i]? ≠ s.txt.valid[j]?) →
    Completes (exec .tokenize s) fun t =>
      t.tok.valid = s.txt.valid.map (fun x => ⟨0, 0, x⟩) ∧ t.tok.valid.length = s.txt.valid.length) ∧
  ∀ s, s.cause = none → s.cfg.Wf → 2 ≤ s.cfg.windowSize → s.tok.valid.length < s.cfg.tokCap →
    s.txt.valid = [0x41, 0x42, 0x41, 0x42, 0x41, 0x42, 0x41, 0x42].map Sym.simple → s.pos = 2 →
    (∀ L, Agree s.cfg.maxMatch s.txt.valid 1 2 L → L = 0) ∧
    (∀ L, Agree s.cfg.maxMatch s.txt.valid 0 2 L ↔ L ≤ min 6 s.cfg.maxMatch) ∧
    Completes (exec .find s) fun t =>
      t.tok.valid = s.tok.valid ++
        [⟨2, BitVec.ofNat 16 (min 6 s.cfg.maxMatch), (s.txt.valid[2 + s.cfg.maxMatch]?).getD sentinel⟩]

/-! ## The token codec -/

/-- R97, R151: the wire form of a record, bit by bit, and its width. -/
def Obligations.RecordFieldPositions : Prop :=
  ∀ r : Rec,
    (encRec r).length = (if symExt r.literal then 57 else 41) ∧
    (∀ i < 16, (encRec r)[i]? = some (r.distance.getLsbD i) ∧ (encRec r)[16 + i]? = some (r.runLength.getLsbD i)) ∧
    (encRec r)[32]? = some (symExt r.literal) ∧
    match r.literal with
    | .simple b => ∀ i < 8, (encRec r)[33 + i]? = some (b.getLsbD i)
    | .extended b0 b1 b2 => ∀ i < 8, (encRec r)[33 + i]? = some (b0.getLsbD i) ∧
        (encRec r)[41 + i]? = some (b1.getLsbD i) ∧ (encRec r)[49 + i]? = some (b2.getLsbD i)

/-- R159: decoding a record's wire form, wherever it stands in a bit sequence, gives the record and its width. -/
def Obligations.TokenCodecInverse : Prop :=
  ∀ (r : Rec) (a b : List Bit), dec (a ++ encRec r ++ b) a.length = ⟨r, recWidth r, false⟩

/-- R153: `TENC` appends the wire form of the record that its operand names. -/
def Obligations.TencAppendsTheWireForm : Prop :=
  ∀ (s : State) (arg : BitVec 24) (r : Rec), s.cause = none → s.tok.valid[arg.toNat]? = some r →
    s.bit.valid.length + recWidth r ≤ s.cfg.bitCap →
    Completes (exec (.tenc arg) s) fun t => t.bit.valid = s.bit.valid ++ encRec r

/-- R154, R156, R158: `TDEC` appends the record whose wire form stands at the cursor and moves behind it, `TRUNC` 0; when
the record there is not whole, it appends the degraded record and moves to the end of BIT, `TRUNC` 1. -/
def Obligations.TdecDecodesAtTheCursor : Prop :=
  (∀ s, s.cause = none → s.bitpos.toNat < s.bit.valid.length → s.tok.valid.length < s.cfg.tokCap →
    Whole (s.bit.valid.drop s.bitpos.toNat) →
    Completes (exec .tdec s) fun t =>
      ∃ r, encRec r <+: s.bit.valid.drop s.bitpos.toNat ∧ t.tok.valid = s.tok.valid ++ [r] ∧ t.trunc = false ∧
        t.bitpos = BitVec.ofNat 32 (s.bitpos.toNat + recWidth r)) ∧
  ∀ s, s.cause = none → s.bitpos.toNat < s.bit.valid.length → s.tok.valid.length < s.cfg.tokCap →
    ¬ Whole (s.bit.valid.drop s.bitpos.toNat) →
    Completes (exec .tdec s) fun t =>
      ∃ r, IsTruncatedRecord (s.bit.valid.drop s.bitpos.toNat) r ∧ t.tok.valid = s.tok.valid ++ [r] ∧
        t.trunc = true ∧ t.bitpos = BitVec.ofNat 32 s.bit.valid.length

/-- R153, R158, R296, R301: `TENC` checks its index, then the capacity; `TDEC` its cursor, then the capacity. -/
def Obligations.CodecFaults : Prop :=
  (∀ (s : State) (arg : BitVec 24), s.cause = none → s.tok.valid.length ≤ arg.toNat →
    Faulted 2 1 (exec (.tenc arg) s)) ∧
  (∀ (s : State) (arg : BitVec 24) (r : Rec), s.cause = none → s.tok.valid[arg.toNat]? = some r →
    s.cfg.bitCap < s.bit.valid.length + recWidth r → Faulted 3 3 (exec (.tenc arg) s)) ∧
  (∀ s, s.cause = none → s.bit.valid.length ≤ s.bitpos.toNat → Faulted 2 3 (exec .tdec s)) ∧
  ∀ s, s.cause = none → s.bitpos.toNat < s.bit.valid.length → s.cfg.tokCap ≤ s.tok.valid.length →
    Faulted 3 2 (exec .tdec s)

/-! ## The bitstream packer and unpacker -/

/-- R63, R170, R171: `B2Y` leaves in PRE the bits of BIT, least significant bit of each byte first, the last byte filled up
with zeros; `Y2B` leaves in BIT the bits of the bytes of PRE in that order; each faults when its buffer has no room. -/
def Obligations.BitsToBytesAndBack : Prop :=
  (∀ s, s.cause = none → ceil8 s.bit.valid.length ≤ s.cfg.preCap →
    Completes (exec .b2y s) fun t =>
      t.pre.valid.length = ceil8 s.bit.valid.length ∧
      ∀ k x, t.pre.valid[k]? = some x → ∀ m < 8, x.getLsbD m = (s.bit.valid[8 * k + m]?).getD false) ∧
  (∀ s, s.cause = none → s.cfg.preCap < ceil8 s.bit.valid.length → Faulted 3 4 (exec .b2y s)) ∧
  (∀ s, s.cause = none → 8 * s.pre.valid.length ≤ s.cfg.bitCap →
    Completes (exec .y2b s) fun t =>
      t.bit.valid.length = 8 * s.pre.valid.length ∧
      ∀ k m, m < 8 → t.bit.valid[8 * k + m]? = s.pre.valid[k]?.map fun x => x.getLsbD m) ∧
  ∀ s, s.cause = none → s.cfg.bitCap < 8 * s.pre.valid.length → Faulted 3 3 (exec .y2b s)

/-- R99, R172: `PACK` leaves in BIT the records' wire forms one after the other and in PRE their bytes; it faults when the
bits do not fit BIT, or fit it but not PRE. -/
def Obligations.PackConcatenatesTheWireForms : Prop :=
  (∀ s, s.cause = none → totalWidth s.tok.valid ≤ s.cfg.bitCap → ceil8 (totalWidth s.tok.valid) ≤ s.cfg.preCap →
    Completes (exec .pack s) fun t =>
      t.bit.valid = s.tok.valid.flatMap encRec ∧ t.pre.valid = bytesLsb (s.tok.valid.flatMap encRec)) ∧
  (∀ s, s.cause = none → s.cfg.bitCap < totalWidth s.tok.valid → Faulted 3 3 (exec .pack s)) ∧
  ∀ s, s.cause = none → totalWidth s.tok.valid ≤ s.cfg.bitCap → s.cfg.preCap < ceil8 (totalWidth s.tok.valid) →
    Faulted 3 4 (exec .pack s)

/-- R173, R174: `UNPACK` cuts the bits of PRE into whole records from the start and stops at fewer than 8 bits, which it
ignores whatever they are, or with the degraded record of a truncated tag, which is the last. It completes whenever TOK
holds those records; and any bits can be cut so. -/
def Obligations.UnpackCutsTheBitsIntoRecords : Prop :=
  (∀ q : List Bit, ∃ rs truncated consumed, CutsInto q rs truncated consumed) ∧
  ∀ s rs truncated consumed, s.cause = none → 8 * s.pre.valid.length ≤ s.cfg.bitCap →
    CutsInto (bitsLsb s.pre.valid) rs truncated consumed → rs.length ≤ s.cfg.tokCap →
    Completes (exec .unpack s) fun t =>
      t.bit.valid = bitsLsb s.pre.valid ∧ t.tok.valid = rs ∧ t.trunc = truncated ∧
      t.bitpos = BitVec.ofNat 32 consumed

/-- R173, R296: `UNPACK` faults when the bits do not fit BIT, and when 8 or more bits are left after as many whole records
as TOK holds. -/
def Obligations.UnpackFaults : Prop :=
  (∀ s, s.cause = none → s.cfg.bitCap < 8 * s.pre.valid.length → Faulted 3 3 (exec .unpack s)) ∧
  ∀ (s : State) (rs : List Rec) (rest : List Bit), s.cause = none → 8 * s.pre.valid.length ≤ s.cfg.bitCap →
    bitsLsb s.pre.valid = rs.flatMap encRec ++ rest → rs.length = s.cfg.tokCap → 8 ≤ rest.length →
    Faulted 3 2 (exec .unpack s)

/-- R175: `PACK` followed by `UNPACK` restores the records. -/
def Obligations.UnpackInvertsPack : Prop :=
  ∀ s, s.cause = none → s.tok.valid.length ≤ s.cfg.tokCap → totalWidth s.tok.valid ≤ s.cfg.bitCap →
    ceil8 (totalWidth s.tok.valid) ≤ s.cfg.preCap → 8 * ceil8 (totalWidth s.tok.valid) ≤ s.cfg.bitCap →
    Completes (exec .pack s) fun t => Completes (exec .unpack t) fun u =>
      u.tok.valid = s.tok.valid ∧ u.trunc = false ∧ u.bitpos = BitVec.ofNat 32 (totalWidth s.tok.valid)

/-! ## The replayer -/

/-- R190 to R195: `REPLAY` rebuilds the text record by record, position by position, skips what is out of range and says
so in `OOR`, and strips the trailing line ends; it faults exactly when the text before the strip does not fit TXT. -/
def Obligations.ReplayRebuildsTheText : Prop :=
  ∀ s, s.cause = none →
    ∃ O oor, Replays s.tok.valid [] O oor ∧
      (O.length ≤ s.cfg.txtCap →
        Completes (exec .replay s) fun t => IsStripOf O t.txt.valid ∧ t.oor = oor) ∧
      (s.cfg.txtCap < O.length → Faulted 3 1 (exec .replay s))

/-- R197: `REPLAY` inverts `TOKENIZE` up to the strip, for a text without the sentinel. -/
def Obligations.ReplayInvertsTokenize : Prop :=
  ∀ s, s.cause = none → s.cfg.Wf → sentinel ∉ s.txt.valid → s.txt.valid.length ≤ s.cfg.tokCap →
    s.txt.valid.length ≤ s.cfg.txtCap →
    Completes (exec .tokenize s) fun t => Completes (exec .replay t) fun u =>
      IsStripOf s.txt.valid u.txt.valid ∧ u.oor = false

/-! ## The prefix tree -/

/-- R206, R207, R208, R211, R212: `HBUILD` counts the bytes, creates one leaf per byte value that stands in PRE, ascending,
and merges them under a root that is the last node and weighs as much as PRE is long; no bytes, no tree. -/
def Obligations.HbuildCountsAndMerges : Prop :=
  ∀ s, s.cause = none → s.pre.valid.length < 2 ^ 32 →
    Completes (exec .hbuild s) fun t =>
      (∀ v, (tableAt t.freq v).toNat = s.pre.valid.count v) ∧
      (s.pre.valid = [] → t.node = [] ∧ t.root = 0) ∧
      (s.pre.valid ≠ [] →
        t.node.length = 2 * (valuesOf s.pre.valid).length - 1 ∧ t.node.length ≤ 511 ∧
        t.root.toNat = t.node.length - 1 ∧ weightAt t.node t.root.toNat = s.pre.valid.length ∧
        t.node.take (valuesOf s.pre.valid).length =
          (valuesOf s.pre.valid).map (fun v => .leaf (BitVec.ofNat 32 (s.pre.valid.count v)) v) ∧
        ∀ n ∈ t.node.drop (valuesOf s.pre.valid).length, ∃ w l r, n = .internal w l r)

/-- R209, R210: the children of each merged node are the first two, in the order of (weight, arena index), of the nodes
there at the time that were not yet children; the first is the left one; the new weight is their sum; and in the end
every node but the root has been merged. -/
def Obligations.HbuildMergesTheTwoLowest : Prop :=
  ∀ s, s.cause = none → s.pre.valid.length < 2 ^ 32 →
    Completes (exec .hbuild s) fun t =>
      MergeOrder t.node ∧ ∀ i < t.node.length, i = t.root.toNat ∨ ∃ j, ChildOf t.node i j

/-- R213, R214, R217: `CTAB` gives each byte value in a leaf its path, the one bit 0 when the tree is that leaf, and every
other value none; two leaves of one value are a fault; no tree gives an empty table. -/
def Obligations.CtabGivesThePaths : Prop :=
  (∀ s, s.cause = none → s.node = [] → Completes (exec .ctab s) fun t => ∀ v, tableAt t.code v = none) ∧
  (∀ s T, s.cause = none → treeAt s.node s.node.length s.root.toNat = some T → (leafValues T).Nodup →
    Completes (exec .ctab s) fun t => ∀ v q, tableAt t.code v = some q ↔ IsCode T v q) ∧
  ∀ s T, s.cause = none → treeAt s.node s.node.length s.root.toNat = some T → ¬ (leafValues T).Nodup →
    Faulted 4 7 (exec .ctab s)

/-- R216: after `HBUILD` then `CTAB`, exactly the byte values in PRE have a code, and no code begins with another's. -/
def Obligations.BuiltCodeIsPrefixFree : Prop :=
  ∀ s, s.cause = none → s.pre.valid.length < 2 ^ 32 →
    Completes (exec .hbuild s) fun t => Completes (exec .ctab t) fun u =>
      (∀ v, (tableAt u.code v).isSome ↔ tableAt u.freq v ≠ 0) ∧ (∀ v, tableAt u.freq v ≠ 0 ↔ v ∈ s.pre.valid) ∧
      PrefixFree u.code

/-! ## The tree serializer and deserializer -/

/-- R231, R233: `TSER` appends the serialized tree, `3k - 1` bytes for `k` leaves, and faults when CON has no room for it;
no tree, nothing written. -/
def Obligations.TserAppendsTheTree : Prop :=
  (∀ s, s.cause = none → s.node = [] → exec .tser s = .next s) ∧
  (∀ s T, s.cause = none → treeAt s.node s.node.length s.root.toNat = some T →
    s.con.valid.length + (serTree T).length ≤ s.cfg.conCap →
    Completes (exec .tser s) fun t => t.con.valid = s.con.valid ++ serTree T) ∧
  (∀ s T, s.cause = none → treeAt s.node s.node.length s.root.toNat = some T →
    s.cfg.conCap < s.con.valid.length + (serTree T).length → Faulted 3 5 (exec .tser s)) ∧
  ∀ T, (serTree T).length = 3 * (leafValues T).length - 1

/-- R234, R235, R237, R238: `TDES` reads the tree that stands at the cursor into the arena, numbered in preorder with
weights 0 and the root at 0, and moves behind it; repeated leaf values are accepted. -/
def Obligations.TdesReadsTheTree : Prop :=
  ∀ s T rest, s.cause = none → s.con.valid.drop s.conpos.toNat = serTree T ++ rest → treeSize T ≤ 511 →
    Completes (exec .tdes s) fun t =>
      treeAt t.node t.node.length 0 = some T ∧ t.root = 0 ∧ t.node = arenaFrom 0 T ∧
      t.node.length = 2 * (leafValues T).length - 1 ∧
      t.conpos = BitVec.ofNat 32 (s.conpos.toNat + (serTree T).length)

/-- R236, R237, R239, R301: how `TDES` faults. Per node, in this order: the bytes end where a marker is due, the byte there
is no marker, a 512th node is needed, a leaf's value is missing. So it faults on every proper beginning of a tree that fits
the arena, and on every tree that does not fit it. -/
def Obligations.TdesFaults : Prop :=
  (∀ s T y z, s.cause = none → s.con.valid.drop s.conpos.toNat = y → serTree T = y ++ z → z ≠ [] →
    treeSize T ≤ 511 → Faulted 4 2 (exec .tdes s)) ∧
  (∀ s y n k, s.cause = none → s.con.valid.drop s.conpos.toNat = y → InTree y (n + 1) k → k ≤ 511 →
    Faulted 4 2 (exec .tdes s)) ∧
  (∀ s y n k m rest, s.cause = none → s.con.valid.drop s.conpos.toNat = y ++ m :: rest → InTree y (n + 1) k →
    k ≤ 511 → m ≠ 0x00 → m ≠ 0x01 → Faulted 4 1 (exec .tdes s)) ∧
  (∀ s y n m rest, s.cause = none → s.con.valid.drop s.conpos.toNat = y ++ m :: rest → InTree y (n + 1) 511 →
    m = 0x00 ∨ m = 0x01 → Faulted 3 6 (exec .tdes s)) ∧
  (∀ s y n k, s.cause = none → s.con.valid.drop s.conpos.toNat = y ++ [0x01] → InTree y (n + 1) k → k < 511 →
    Faulted 4 2 (exec .tdes s)) ∧
  ∀ s T rest, s.cause = none → s.con.valid.drop s.conpos.toNat = serTree T ++ rest → 511 < treeSize T →
    Faulted 3 6 (exec .tdes s)

/-- R240: deserializing what was serialized gives a structurally identical tree, the cursor at the end; the code table is
the same before and after, and a further `TSER` appends the same bytes again. The premise on CON_CAP is R233's length of
the serialized tree. -/
def Obligations.TdesInvertsTser : Prop :=
  ∀ s, s.cause = none → s.pre.valid ≠ [] → s.pre.valid.length < 2 ^ 32 →
    3 * (valuesOf s.pre.valid).length - 1 ≤ s.cfg.conCap →
    Completes (exec .hbuild s) fun h => Completes (exec .tser (regWrite 9 0 h)) fun t =>
      Completes (exec .tdes (regWrite 12 0 t)) fun u =>
        (∃ T, treeAt h.node h.node.length h.root.toNat = some T ∧
          treeAt u.node u.node.length u.root.toNat = some T) ∧
        u.conpos.toNat = u.con.valid.length ∧
        (Completes (exec .ctab h) fun c => Completes (exec .ctab u) fun d => d.code = c.code) ∧
        ∀ w, exec .tser u = .next w → w.cause = none → w.con.valid = t.con.valid ++ t.con.valid

/-! ## The entropy packer and unpacker -/

/-- R250 to R253, R255, R113: `EPACK` makes the tree and the codes that `HBUILD` and `CTAB` make, and the container: the
tree, the bit count, and the codes of the bytes in input order, most significant bit of each byte first (R9's condition on
`CON_CAP` suffices); no bytes give the empty container, and bytes of one value the single-symbol container. -/
def Obligations.EpackWritesTheContainer : Prop :=
  (∀ s, s.cause = none → s.pre.valid = [] →
    Completes (exec .epack s) fun t =>
      t.con.valid = [] ∧ t.bitcnt = 0 ∧ t.node = [] ∧ ∀ v, tableAt t.freq v = 0 ∧ tableAt t.code v = none) ∧
  (∀ s, s.cause = none → s.pre.valid ≠ [] → 255 * s.pre.valid.length < 2 ^ 32 →
    771 + ceil8 (255 * s.pre.valid.length) ≤ s.cfg.conCap →
    Completes (exec .epack s) fun t =>
      (Completes (exec .hbuild s) fun h => Completes (exec .ctab h) fun c =>
        t.freq = h.freq ∧ t.node = h.node ∧ t.root = h.root ∧ t.code = c.code) ∧
      ∃ T coded payload,
        treeAt t.node t.node.length t.root.toNat = some T ∧
        t.con.valid = serTree T ++ be32 t.bitcnt ++ payload ∧
        coded = s.pre.valid.flatMap (fun v => (tableAt t.code v).getD []) ∧ Spells T s.pre.valid coded ∧
        t.bitcnt.toNat = coded.length ∧ payload = bytesMsb coded ∧ payload.length = ceil8 coded.length ∧
        PayloadBits payload coded.length coded) ∧
  ∀ s n v, s.cause = none → 1 ≤ n → n < 2 ^ 32 → s.pre.valid = List.replicate n v →
    6 + ceil8 n ≤ s.cfg.conCap →
    Completes (exec .epack s) fun t =>
      t.con.valid = [0x01, v] ++ be32 (BitVec.ofNat 32 n) ++ List.replicate (ceil8 n) 0x00 ∧
      t.bitcnt = BitVec.ofNat 32 n ∧ tableAt t.code v = some [false] ∧
      t.node = [.leaf (BitVec.ofNat 32 n) v] ∧ t.root = 0

/-- R256, R257, R259, R260, R262, R264: `EUNPACK` decodes any well-formed container, whatever its tree, ignoring padding
bits and bytes after the payload; the empty container gives no bytes. -/
def Obligations.EunpackDecodesTheContainer : Prop :=
  (∀ s, s.cause = none → s.con.valid = [] →
    Completes (exec .eunpack s) fun t =>
      t.pre.valid = [] ∧ t.node = [] ∧ t.root = 0 ∧ t.bitcnt = 0 ∧ t.conpos = 0) ∧
  ∀ s T b y q out, s.cause = none → s.con.valid = serTree T ++ be32 b ++ y → treeSize T ≤ 511 →
    ceil8 b.toNat ≤ y.length → PayloadBits y b.toNat q → Spells T out q → out.length ≤ s.cfg.preCap →
    Completes (exec .eunpack s) fun t =>
      t.pre.valid = out ∧ t.bitcnt = b ∧ treeAt t.node t.node.length 0 = some T ∧ t.root = 0 ∧
      t.conpos = BitVec.ofNat 32 ((serTree T).length + 4 + ceil8 b.toNat)

/-- R258, R260, R261, R296, R301: how `EUNPACK` faults, in the order of its checks: the tree as `TDES` at cursor 0, the
header, the payload's presence, then bit by bit a 1 under a root that is a leaf or a byte without room, then an end
inside a code. -/
def Obligations.EunpackFaults : Prop :=
  (∀ s code info, s.cause = none → s.con.valid ≠ [] → Faulted code info (exec .tdes { s with conpos := 0 }) →
    Faulted code info (exec .eunpack s)) ∧
  (∀ s T z, s.cause = none → s.con.valid = serTree T ++ z → treeSize T ≤ 511 → z.length < 4 →
    Faulted 4 3 (exec .eunpack s)) ∧
  (∀ s T b y, s.cause = none → s.con.valid = serTree T ++ be32 b ++ y → treeSize T ≤ 511 →
    y.length < ceil8 b.toNat → Faulted 4 4 (exec .eunpack s)) ∧
  (∀ s v b y q k, s.cause = none → s.con.valid = serTree (.leaf v) ++ be32 b ++ y → ceil8 b.toNat ≤ y.length →
    PayloadBits y b.toNat q → q[k]? = some true → (∀ i < k, q[i]? = some false) → k ≤ s.cfg.preCap →
    Faulted 4 5 (exec .eunpack s)) ∧
  (∀ s T b y c rest out, s.cause = none → s.con.valid = serTree T ++ be32 b ++ y → treeSize T ≤ 511 →
    ceil8 b.toNat ≤ y.length → PayloadBits y b.toNat (c ++ rest) → Spells T out c →
    out.length = s.cfg.preCap + 1 → Faulted 3 4 (exec .eunpack s)) ∧
  ∀ s T b y c rest out l r, s.cause = none → s.con.valid = serTree T ++ be32 b ++ y → treeSize T ≤ 511 →
    ceil8 b.toNat ≤ y.length → PayloadBits y b.toNat (c ++ rest) → Spells T out c → out.length ≤ s.cfg.preCap →
    rest ≠ [] → follow T rest = some (.node l r) → Faulted 4 6 (exec .eunpack s)

/-- R250, R254, R296: how `EPACK` faults: the tree does not fit CON; the coded bits number 2^32 or more; the header and
payload do not fit. -/
def Obligations.EpackFaults : Prop :=
  ∀ s h c T coded, s.cause = none → s.pre.valid ≠ [] → s.pre.valid.length < 2 ^ 32 → exec .hbuild s = .next h →
    exec .ctab h = .next c → treeAt h.node h.node.length h.root.toNat = some T →
    coded = s.pre.valid.flatMap (fun v => (tableAt c.code v).getD []) →
    (s.cfg.conCap < (serTree T).length → Faulted 3 5 (exec .epack s)) ∧
    ((serTree T).length ≤ s.cfg.conCap → 2 ^ 32 ≤ coded.length → Faulted 3 7 (exec .epack s)) ∧
    ((serTree T).length ≤ s.cfg.conCap → coded.length < 2 ^ 32 →
      s.cfg.conCap < (serTree T).length + 4 + ceil8 coded.length → Faulted 3 5 (exec .epack s))

/-- R263: `EPACK` followed by `EUNPACK` restores the bytes. -/
def Obligations.EunpackInvertsEpack : Prop :=
  ∀ s, s.cause = none → 255 * s.pre.valid.length < 2 ^ 32 →
    771 + ceil8 (255 * s.pre.valid.length) ≤ s.cfg.conCap → s.pre.valid.length ≤ s.cfg.preCap →
    Completes (exec .epack s) fun t => Completes (exec .eunpack t) fun u => u.pre.valid = s.pre.valid

/-! ## The whole pipeline -/

/-- R277, R279: `COMPRESS` is `TOKENIZE`, `PACK`, `EPACK` and `DECOMPRESS` is `EUNPACK`, `UNPACK`, `REPLAY`: the fault of
the first stage that faults is the fault recorded, and where none faults the last stage's state is the result. -/
def Obligations.PipelineStagesInOrder : Prop :=
  ∀ i j k whole, (i, j, k, whole) ∈ [(Instr.tokenize, Instr.pack, Instr.epack, Instr.compress),
      (Instr.eunpack, Instr.unpack, Instr.replay, Instr.decompress)] →
    ∀ s t, s.cause = none → exec i s = .next t →
      (t.cause.isSome → ∃ z, exec whole s = .next z ∧ z.cause = t.cause) ∧
      (t.cause = none → ∀ u, exec j t = .next u →
        (u.cause.isSome → ∃ z, exec whole s = .next z ∧ z.cause = u.cause) ∧
        (u.cause = none → ∀ v, exec k u = .next v →
          ∃ z, exec whole s = .next z ∧ z.cause = v.cause ∧ (v.cause = none → z = v)))

/-- R9, R277: under the sufficient capacities `COMPRESS` completes for every text that fits TXT, with the result of its
three stages. -/
def Obligations.CompressCompletes : Prop :=
  ∀ s, s.cause = none → s.cfg.Wf → s.txt.valid.length ≤ s.cfg.txtCap → CapacitiesSuffice s.cfg →
    Completes (exec .tokenize s) fun t => Completes (exec .pack t) fun u => Completes (exec .epack u) fun v =>
      exec .compress s = .next v

/-- R257, R279, R283: `DECOMPRESS` completes for every well-formed container whose bytes, bits, records and symbols fit
their buffers (the symbols before the strip), with the result of its three stages and their flags; for the empty container
that is nothing, and no flag. -/
def Obligations.DecompressCompletes : Prop :=
  (∀ s, s.cause = none → s.con.valid = [] →
    Completes (exec .decompress s) fun v =>
      v.pre.valid = [] ∧ v.tok.valid = [] ∧ v.txt.valid = [] ∧ v.trunc = false ∧ v.oor = false) ∧
  ∀ s T b y q out rs truncated consumed O oor, s.cause = none → s.con.valid = serTree T ++ be32 b ++ y →
    treeSize T ≤ 511 → ceil8 b.toNat ≤ y.length → PayloadBits y b.toNat q → Spells T out q →
    out.length ≤ s.cfg.preCap → 8 * out.length ≤ s.cfg.bitCap → CutsInto (bitsLsb out) rs truncated consumed →
    rs.length ≤ s.cfg.tokCap → Replays rs [] O oor → O.length ≤ s.cfg.txtCap →
    Completes (exec .eunpack s) fun t => t.pre.valid = out ∧
      Completes (exec .unpack t) fun u => u.tok.valid = rs ∧
        Completes (exec .replay u) fun v =>
          exec .decompress s = .next v ∧ IsStripOf O v.txt.valid ∧ v.trunc = truncated ∧ v.oor = oor

/-- R281: compressing and decompressing a text without the sentinel gives it back, but for its trailing line ends, with no
fault and no flag. -/
def Obligations.RoundTrip : Prop :=
  ∀ s, s.cause = none → s.cfg.Wf → sentinel ∉ s.txt.valid → s.txt.valid.length ≤ s.cfg.txtCap →
    CapacitiesSuffice s.cfg → 57 * s.cfg.tokCap + 7 ≤ s.cfg.bitCap →
    Completes (exec .compress s) fun t => Completes (exec .decompress t) fun u =>
      IsStripOf s.txt.valid u.txt.valid ∧ u.trunc = false ∧ u.oor = false

/-! ## The data formats presented at the ports -/

/-- The model's choice (notes/assumptions/1.md) on R61, R67, R97, R101 and R108: a presented record is stored at the end of
TOK, a presented tree node at the end of CON, a presented container from the start of CON, and the length covers it, when
there is room, also while a fault is recorded; when there is none, no length changes. -/
def Obligations.PresentedDataIsStored : Prop :=
  (∀ (s : State) (d l : U16) (b : Byte), s.tok.valid.length < s.cfg.tokCap →
    ∃ t, exec (.recSimple d l b) s = .next t ∧ t.tok.valid = s.tok.valid ++ [⟨d, l, .simple b⟩]) ∧
  (∀ (s : State) (d l : U16) (b0 b1 b2 : Byte), s.tok.valid.length < s.cfg.tokCap →
    ∃ t, exec (.recExtended d l b0 b1 b2) s = .next t ∧
      t.tok.valid = s.tok.valid ++ [⟨d, l, .extended b0 b1 b2⟩]) ∧
  (∀ (s : State) (v : Byte), s.con.valid.length + 2 ≤ s.cfg.conCap →
    ∃ t, exec (.treeLeaf v) s = .next t ∧ t.con.valid = s.con.valid ++ [0x01, v]) ∧
  (∀ s : State, s.con.valid.length + 1 ≤ s.cfg.conCap →
    ∃ t, exec .treeInternal s = .next t ∧ t.con.valid = s.con.valid ++ [0x00]) ∧
  (∀ (s : State) (c : Container), (containerBytes c).length ≤ s.cfg.conCap →
    ∃ t, exec (.container c) s = .next t ∧ t.con.valid = containerBytes c) ∧
  ∀ s : State,
    (s.cfg.tokCap ≤ s.tok.valid.length → ∀ d l b b0 b1 b2,
      exec (.recSimple d l b) s = .next s ∧ exec (.recExtended d l b0 b1 b2) s = .next s) ∧
    (s.cfg.conCap < s.con.valid.length + 2 → ∀ v,
      ∃ t, exec (.treeLeaf v) s = .next t ∧ t.con.valid = s.con.valid) ∧
    (s.cfg.conCap < s.con.valid.length + 1 →
      ∃ t, exec .treeInternal s = .next t ∧ t.con.valid = s.con.valid) ∧
    ∀ c, s.cfg.conCap < (containerBytes c).length →
      ∃ t, exec (.container c) s = .next t ∧ t.con.valid.length = s.con.valid.length

/-! ## Frames -/

/-- R133, R138, R153, R158, R170 to R173, R190, R297: the commands of the first stage leave everything as it was but what
their rules list under "Writes", whether they complete, fault or are refused. That the elements below the old length of
the buffer that `FIND`, `TENC` and `TDEC` append to survive a fault is the model's reading (notes/assumptions/10.md). -/
def Obligations.FirstStageFrames : Prop :=
  ∀ i, (i ∈ [.find, .tokenize, .tdec, .b2y, .y2b, .pack, .unpack, .replay] ∨ ∃ arg, i = .tenc arg) →
    ∀ s t, exec i s = .next t → Unchanged (writes i) s t

/-- R211, R217, R231, R237, R250, R256, R297: so do the commands of the entropy stage. That the bytes of CON below the old
length survive a fault of `TSER` is the model's reading (notes/assumptions/10.md). -/
def Obligations.EntropyStageFrames : Prop :=
  ∀ i ∈ [Instr.hbuild, .ctab, .tser, .tdes, .epack, .eunpack], ∀ s t, exec i s = .next t → Unchanged (writes i) s t

/-- R277, R279, R297: so do the two composite commands; and a presented datum changes its buffer only, there no element
but those that it is stored over, and never the record of a fault. -/
def Obligations.PipelineAndDataFrames : Prop :=
  (∀ i ∈ [Instr.compress, .decompress], ∀ s t, exec i s = .next t → Unchanged (writes i) s t) ∧
  (∀ i, i.source = .record → ∀ s t, exec i s = .next t →
    Unchanged (writes i) s t ∧ t.cause = s.cause ∧
    ∀ j, j ≠ s.tok.valid.length → t.tok.elem Config.freeRec j = s.tok.elem Config.freeRec j) ∧
  (∀ i, i.source = .treeNode → ∀ s t, exec i s = .next t →
    Unchanged (writes i) s t ∧ t.cause = s.cause ∧
    ∀ j, (j < s.con.valid.length ∨ s.con.valid.length + (encode i).length ≤ j) →
      t.con.elem Config.freeCon j = s.con.elem Config.freeCon j) ∧
  ∀ c s t, exec (.container c) s = .next t →
    Unchanged (writes (.container c)) s t ∧ t.cause = s.cause ∧
    ∀ j, (containerBytes c).length ≤ j → t.con.elem Config.freeCon j = s.con.elem Config.freeCon j
end

