-- ==== Sys2Proof/Laws/Bits.lean ====
section
/-! SUPPORT. Bits, bytes and the two packings: lengths, the bit at a place, and that packing loses nothing. -/

namespace Sys2Proof.Machine

@[simp] theorem length_lsbBits (v n : Nat) : (lsbBits v n).length = n := by simp [lsbBits]

theorem getElem?_lsbBits (v n i : Nat) : (lsbBits v n)[i]? = if i < n then some (v.testBit i) else none := by
  by_cases h : i < n <;> simp [lsbBits, h]

theorem testBit_valLsb (q : List Bit) (i : Nat) : (valLsb q).testBit i = q[i]?.getD false := by
  induction q generalizing i with
  | nil => simp [valLsb]
  | cons b q ih =>
    cases i with
    | zero => cases b <;> simp [valLsb, Nat.testBit_zero]
    | succ i =>
      have h : (b.toNat + 2 * valLsb q) / 2 = valLsb q := by cases b <;> (simp; try omega)
      rw [valLsb, Nat.testBit_succ, h, ih]; simp

theorem valLsb_lt (q : List Bit) : valLsb q < 2 ^ q.length := by
  induction q with
  | nil => simp [valLsb]
  | cons b q ih =>
    have hb : b.toNat ≤ 1 := by cases b <;> simp
    simp only [valLsb, List.length_cons, pow_succ]; omega

theorem valLsb_lsbBits (v n : Nat) : valLsb (lsbBits v n) = v % 2 ^ n := by
  apply Nat.eq_of_testBit_eq
  intro i
  rw [testBit_valLsb, getElem?_lsbBits, Nat.testBit_mod_two_pow]
  by_cases h : i < n <;> simp [h]

theorem lsbBits_valLsb (q : List Bit) : lsbBits (valLsb q) q.length = q := by
  apply List.ext_getElem (by simp)
  intro i h1 h2
  simp [lsbBits, testBit_valLsb, h2]

/-- Two numbers with the same low bits. -/
theorem lsbBits_congr {v w n : Nat} (h : ∀ i < n, v.testBit i = w.testBit i) : lsbBits v n = lsbBits w n := by
  apply List.ext_getElem (by simp)
  intro i h1 h2
  simpa [lsbBits] using h i (by simpa using h1)

theorem lsbBits_toNat_valLsb (q : List Bit) (h : q.length = 8) : lsbBits (BitVec.ofNat 8 (valLsb q)).toNat 8 = q := by
  have hlt := valLsb_lt q
  rw [h] at hlt
  conv_rhs => rw [← lsbBits_valLsb q, h]
  rw [BitVec.toNat_ofNat, Nat.mod_eq_of_lt hlt]

theorem ofNat_valLsb_lsbBits (b : Byte) : BitVec.ofNat 8 (valLsb (lsbBits b.toNat 8)) = b := by
  rw [valLsb_lsbBits, Nat.mod_eq_of_lt b.isLt]; simp

/-! ## Groups of eight -/

@[simp] theorem length_groups8 {α : Type} (n : Nat) (q : List α) : (groups8 n q).length = n := by
  induction n generalizing q with
  | zero => rfl
  | succ n ih => simp [groups8, ih]

theorem getElem?_groups8 {α : Type} (n k : Nat) (q : List α) :
    (groups8 n q)[k]? = if k < n then some ((q.drop (8 * k)).take 8) else none := by
  induction n generalizing q k with
  | zero => simp [groups8]
  | succ n ih =>
    cases k with
    | zero => simp [groups8]
    | succ k =>
      have h : 8 + 8 * k = 8 * (k + 1) := by ring
      simp [groups8, ih, List.drop_drop, h]

@[simp] theorem length_bytesLsb (q : List Bit) : (bytesLsb q).length = ceil8 q.length := by simp [bytesLsb]
@[simp] theorem length_bytesMsb (q : List Bit) : (bytesMsb q).length = ceil8 q.length := by simp [bytesMsb]
@[simp] theorem length_bitsLsb (y : List Byte) : (bitsLsb y).length = 8 * y.length := by
  induction y with
  | nil => rfl
  | cons b y ih => simp only [bitsLsb, List.flatMap_cons, List.length_append, length_lsbBits, List.length_cons] at *; omega
@[simp] theorem length_bitsMsb (y : List Byte) : (bitsMsb y).length = 8 * y.length := by
  induction y with
  | nil => rfl
  | cons b y ih =>
    simp only [bitsMsb, List.flatMap_cons, List.length_append, List.length_reverse, length_lsbBits, List.length_cons] at *
    omega

/-- 20_memory.md R63: the bit at place `m` of byte `k`. -/
theorem getLsbD_byteLsb (g : List Bit) (m : Nat) (h : m < 8) : (byteLsb g).getLsbD m = g[m]?.getD false := by
  rw [byteLsb, BitVec.getLsbD_ofNat, testBit_valLsb, List.getElem?_take, if_pos h]; simp [h]

theorem getElem?_bytesLsb (q : List Bit) (k : Nat) :
    (bytesLsb q)[k]? = if k < ceil8 q.length then some (byteLsb (q.drop (8 * k))) else none := by
  simp only [bytesLsb, List.getElem?_map, getElem?_groups8]
  split <;> simp [byteLsb, List.take_take]

theorem getElem?_bytesMsb (q : List Bit) (k : Nat) :
    (bytesMsb q)[k]? = if k < ceil8 q.length then some (byteMsb (q.drop (8 * k) |>.take 8)) else none := by
  simp only [bytesMsb, List.getElem?_map, getElem?_groups8]
  split <;> simp

/-- 20_memory.md R64: the bit at place `7 - m` of a byte. -/
theorem getLsbD_byteMsb (g : List Bit) (m : Nat) (h : m < 8) (hc : g.length ≤ 8) :
    (byteMsb g).getLsbD (7 - m) = g[m]?.getD false := by
  rw [byteMsb, getLsbD_byteLsb _ _ (by omega), List.take_of_length_le hc, List.getElem?_reverse (by simp; omega)]
  have hl : (g ++ List.replicate (8 - g.length) false).length = 8 := by simp; omega
  rw [hl, show 8 - 1 - (7 - m) = m by omega, List.getElem?_append]
  by_cases hm : m < g.length
  · simp [hm]
  · simp [hm, List.getElem?_replicate]
    split <;> rfl

/-! ## Packing and unpacking -/

theorem ceil8_add_eight (n : Nat) : ceil8 (n + 8) = ceil8 n + 1 := by unfold ceil8; omega

theorem bytesLsb_append (c q : List Bit) (h : c.length = 8) : bytesLsb (c ++ q) = byteLsb c :: bytesLsb q := by
  have hl : ceil8 (c ++ q).length = ceil8 q.length + 1 := by
    rw [List.length_append, h, Nat.add_comm, ceil8_add_eight]
  rw [bytesLsb, hl, groups8, List.map_cons, List.take_append_of_le_length (by omega), List.drop_append_of_le_length (by omega)]
  have h1 : c.drop 8 = [] := by simp [h]
  have h2 : c.take 8 = c := by rw [List.take_of_length_le (by omega)]
  rw [h1, h2]; simp [bytesLsb]

theorem bytesMsb_append (c q : List Bit) (h : c.length = 8) : bytesMsb (c ++ q) = byteMsb c :: bytesMsb q := by
  have hl : ceil8 (c ++ q).length = ceil8 q.length + 1 := by
    rw [List.length_append, h, Nat.add_comm, ceil8_add_eight]
  rw [bytesMsb, hl, groups8, List.map_cons, List.take_append_of_le_length (by omega), List.drop_append_of_le_length (by omega)]
  have h1 : c.drop 8 = [] := by simp [h]
  have h2 : c.take 8 = c := by rw [List.take_of_length_le (by omega)]
  rw [h1, h2]; simp [bytesMsb]

theorem bytesLsb_bitsLsb (y : List Byte) : bytesLsb (bitsLsb y) = y := by
  induction y with
  | nil => rfl
  | cons b y ih =>
    rw [bitsLsb, List.flatMap_cons, bytesLsb_append _ _ (length_lsbBits _ _)]
    rw [bitsLsb] at ih
    rw [ih, byteLsb, List.take_of_length_le (by simp), ofNat_valLsb_lsbBits]

/-- The bits a short group lacks, as zeros. -/
theorem byteLsb_pad (c : List Bit) (n : Nat) : byteLsb (c ++ List.replicate n false) = byteLsb c := by
  apply BitVec.eq_of_getLsbD_eq
  intro i hi
  rw [getLsbD_byteLsb _ _ hi, getLsbD_byteLsb _ _ hi, List.getElem?_append]
  split
  · rfl
  · rename_i h
    simp only [List.getElem?_replicate, List.getElem?_eq_none (Nat.not_lt.mp h)]
    split <;> rfl

theorem byteMsb_pad (c : List Bit) (n : Nat) (h : c.length + n ≤ 8) :
    byteMsb (c ++ List.replicate n false) = byteMsb c := by
  apply BitVec.eq_of_getLsbD_eq
  intro i hi
  have hi : i = 7 - (7 - i) := by omega
  rw [hi, getLsbD_byteMsb _ _ (by omega) (by simpa using h), getLsbD_byteMsb _ _ (by omega) (by omega), List.getElem?_append]
  split
  · rfl
  · rename_i h
    simp only [List.getElem?_replicate, List.getElem?_eq_none (Nat.not_lt.mp h)]
    split <;> rfl

/-- The number of padding bits. -/
def padding (n : Nat) : Nat := 8 * ceil8 n - n

theorem bitsLsb_bytesLsb (q : List Bit) : bitsLsb (bytesLsb q) = q ++ List.replicate (padding q.length) false := by
  induction hn : q.length using Nat.strongRecOn generalizing q with
  | _ n ih =>
    subst hn
    by_cases h : q.length < 8
    · by_cases h0 : q = []
      · subst h0; rfl
      · have hp : 0 < q.length := List.length_pos_iff.mpr h0
        have hc : ceil8 q.length = 1 := by unfold ceil8; omega
        rw [bytesLsb, hc]
        have hq : q.take 8 = q := List.take_of_length_le (by omega)
        simp only [groups8, List.map_cons, List.map_nil, bitsLsb, List.flatMap_cons, List.flatMap_nil, List.append_nil, hq]
        rw [← byteLsb_pad q (8 - q.length), byteLsb, List.take_of_length_le (by simp; omega)]
        rw [lsbBits_toNat_valLsb _ (by simp; omega), padding, hc]
    · have hq : q.take 8 ++ q.drop 8 = q := List.take_append_drop 8 q
      have hl : (q.take 8).length = 8 := by simp; omega
      have hd : (q.drop 8).length = q.length - 8 := by simp
      have h1 := ih (q.drop 8).length (by omega) (q.drop 8) rfl
      conv_lhs => rw [← hq]
      rw [bytesLsb_append _ _ hl, bitsLsb, List.flatMap_cons, byteLsb, List.take_of_length_le (by omega)]
      rw [lsbBits_toNat_valLsb _ hl]
      rw [bitsLsb] at h1
      rw [h1, ← List.append_assoc, hq]
      congr 2
      unfold padding ceil8; omega

/-- The coded bits come back from the payload bytes (20_memory.md R64). -/
theorem bitsMsb_bytesMsb (q : List Bit) : bitsMsb (bytesMsb q) = q ++ List.replicate (padding q.length) false := by
  have hbyte : ∀ c : List Bit, c.length = 8 → (lsbBits (byteMsb c).toNat 8).reverse = c := by
    intro c hc
    rw [byteMsb, hc, Nat.sub_self, List.replicate_zero, List.append_nil, List.take_of_length_le (by omega), byteLsb,
      List.take_of_length_le (by simp; omega), lsbBits_toNat_valLsb _ (by simpa using hc), List.reverse_reverse]
  induction hn : q.length using Nat.strongRecOn generalizing q with
  | _ n ih =>
    subst hn
    by_cases h : q.length < 8
    · by_cases h0 : q = []
      · subst h0; rfl
      · have hp : 0 < q.length := List.length_pos_iff.mpr h0
        have hc : ceil8 q.length = 1 := by unfold ceil8; omega
        rw [bytesMsb, hc]
        have hq : q.take 8 = q := List.take_of_length_le (by omega)
        simp only [groups8, List.map_cons, List.map_nil, bitsMsb, List.flatMap_cons, List.flatMap_nil, List.append_nil, hq]
        rw [← byteMsb_pad q (8 - q.length) (by omega), hbyte _ (by simp; omega), padding, hc]
    · have hq : q.take 8 ++ q.drop 8 = q := List.take_append_drop 8 q
      have hl : (q.take 8).length = 8 := by simp; omega
      have hd : (q.drop 8).length = q.length - 8 := by simp
      have h1 := ih (q.drop 8).length (by omega) (q.drop 8) rfl
      conv_lhs => rw [← hq]
      rw [bytesMsb_append _ _ hl, bitsMsb, List.flatMap_cons, hbyte _ hl]
      rw [bitsMsb] at h1
      rw [h1, ← List.append_assoc, hq]
      congr 2
      unfold padding ceil8; omega

/-! ## Numbers and bytes -/

@[simp] theorem length_leBytes (n w : Nat) : (leBytes n w).length = n := by
  induction n generalizing w with
  | zero => rfl
  | succ n ih => simp [leBytes, ih]

theorem ofLeBytes_leBytes (n w : Nat) : ofLeBytes (leBytes n w) = w % 256 ^ n := by
  induction n generalizing w with
  | zero => simp [leBytes, ofLeBytes, Nat.mod_one]
  | succ n ih =>
    have h : w % (256 * 256 ^ n) = w % 256 + 256 * (w / 256 % 256 ^ n) := Nat.mod_mul
    rw [leBytes, ofLeBytes, ih, BitVec.toNat_ofNat, pow_succ' 256 n, h]

theorem ofBe32_be32 (v : Word) : ∀ y0 y1 y2 y3, be32 v = [y0, y1, y2, y3] → ofBe32 y0 y1 y2 y3 = v := by
  intro y0 y1 y2 y3 h
  simp only [be32, List.cons.injEq, and_true] at h
  obtain ⟨rfl, rfl, rfl, rfl⟩ := h
  apply BitVec.eq_of_toNat_eq
  have := v.isLt
  simp only [ofBe32, BitVec.toNat_ofNat, BitVec.extractLsb'_toNat, Nat.shiftRight_eq_div_pow]
  omega

end Sys2Proof.Machine
end

