-- ==== Sys2Proof/Laws/Formats.lean ====
section
/-! SUPPORT. The data formats: a record decodes from its wire form, a tree parses from its serialized form, and the arena
of a deserialized tree reads back as the tree. -/

namespace Sys2Proof.Machine

/-! ## The record -/

theorem length_litBits (x : Sym) : (litBits x).length = 8 + 16 * (symExt x).toNat := by
  cases x <;> simp [litBits, symExt]

theorem length_encRec (r : Rec) : (encRec r).length = recWidth r := by
  simp [encRec, recWidth, length_litBits]; omega

theorem bitField_append (p q : List Bit) (i n : Nat) (h : p.length = i) :
    bitField (p ++ q) i n = valLsb (q.take n) := by
  simp [bitField, ← h]

theorem ofNat_valLsb_lsbBits_append (w : Nat) (x : BitVec w) (q : List Bit) :
    BitVec.ofNat w (valLsb ((lsbBits x.toNat w ++ q).take w)) = x := by
  rw [List.take_append_of_le_length (by simp), List.take_of_length_le (by simp), valLsb_lsbBits,
    Nat.mod_eq_of_lt x.isLt]
  simp

/-- 41_token_codec.md R159, at offset 0: a record decodes from its wire form, whatever follows. -/
theorem decBits_encRec (r : Rec) (b : List Bit) : decBits (encRec r ++ b) = ⟨r, recWidth r, false⟩ := by
  obtain ⟨d, l, x⟩ := r
  have h32 : (encRec ⟨d, l, x⟩ ++ b)[32]? = some (symExt x) := by
    simp [encRec, List.getElem?_append]
  have hl : recWidth ⟨d, l, x⟩ ≤ (encRec ⟨d, l, x⟩ ++ b).length := by
    rw [List.length_append, length_encRec]; omega
  have hd : BitVec.ofNat 16 (bitField (encRec ⟨d, l, x⟩ ++ b) 0 16) = d := by
    simp only [encRec, List.append_assoc, bitField, List.drop_zero]
    exact ofNat_valLsb_lsbBits_append 16 d _
  have hr : BitVec.ofNat 16 (bitField (encRec ⟨d, l, x⟩ ++ b) 16 16) = l := by
    simp only [encRec, List.append_assoc]
    rw [bitField_append _ _ _ _ (length_lsbBits _ _)]
    exact ofNat_valLsb_lsbBits_append 16 l _
  have hx : decLiteral (encRec ⟨d, l, x⟩ ++ b) (symExt x) = x := by
    cases x with
    | simple b0 =>
      have h1 : encRec ⟨d, l, .simple b0⟩ ++ b =
          (lsbBits d.toNat 16 ++ lsbBits l.toNat 16 ++ [false]) ++ (lsbBits b0.toNat 8 ++ b) := by
        simp [encRec, symExt, litBits]
      rw [h1, symExt, decLiteral, bitField_append _ _ _ _ (by simp), ofNat_valLsb_lsbBits_append]
    | extended b0 b1 b2 =>
      have h1 : encRec ⟨d, l, .extended b0 b1 b2⟩ ++ b =
          (lsbBits d.toNat 16 ++ lsbBits l.toNat 16 ++ [true]) ++
            (lsbBits b0.toNat 8 ++ (lsbBits b1.toNat 8 ++ (lsbBits b2.toNat 8 ++ b))) := by
        simp [encRec, symExt, litBits]
      have h2 : encRec ⟨d, l, .extended b0 b1 b2⟩ ++ b =
          (lsbBits d.toNat 16 ++ lsbBits l.toNat 16 ++ [true] ++ lsbBits b0.toNat 8) ++
            (lsbBits b1.toNat 8 ++ (lsbBits b2.toNat 8 ++ b)) := by
        simp [encRec, symExt, litBits]
      have h3 : encRec ⟨d, l, .extended b0 b1 b2⟩ ++ b =
          (lsbBits d.toNat 16 ++ lsbBits l.toNat 16 ++ [true] ++ lsbBits b0.toNat 8 ++ lsbBits b1.toNat 8) ++
            (lsbBits b2.toNat 8 ++ b) := by
        simp [encRec, symExt, litBits]
      rw [symExt, decLiteral]
      have f1 := bitField_append (lsbBits d.toNat 16 ++ lsbBits l.toNat 16 ++ [true])
        (lsbBits b0.toNat 8 ++ (lsbBits b1.toNat 8 ++ (lsbBits b2.toNat 8 ++ b))) 33 8 (by simp)
      have f2 := bitField_append (lsbBits d.toNat 16 ++ lsbBits l.toNat 16 ++ [true] ++ lsbBits b0.toNat 8)
        (lsbBits b1.toNat 8 ++ (lsbBits b2.toNat 8 ++ b)) 41 8 (by simp)
      have f3 := bitField_append
        (lsbBits d.toNat 16 ++ lsbBits l.toNat 16 ++ [true] ++ lsbBits b0.toNat 8 ++ lsbBits b1.toNat 8)
        (lsbBits b2.toNat 8 ++ b) 49 8 (by simp)
      rw [← h1] at f1
      rw [← h2] at f2
      rw [← h3] at f3
      rw [f1, f2, f3, ofNat_valLsb_lsbBits_append, ofNat_valLsb_lsbBits_append, ofNat_valLsb_lsbBits_append]
  have hw : 41 + 16 * (symExt x).toNat = recWidth ⟨d, l, x⟩ := rfl
  simp only [decBits, h32, hw, if_pos hl, decWhole, hd, hr, hx]

/-! ## The tree -/

theorem one_le_treeSize (t : Tree) : 1 ≤ treeSize t := by cases t <;> simp [treeSize]; omega

/-- A serialized tree parses, whatever follows, when the arena has room for its nodes. -/
theorem parseTreeFrom_serTree (t : Tree) (rest : List Byte) (fuel used : Nat) (hf : treeSize t ≤ fuel)
    (hu : used + treeSize t ≤ nodeCap) : parseTreeFrom fuel used (serTree t ++ rest) = .ok (t, rest) := by
  induction t generalizing rest fuel used with
  | leaf v =>
    obtain ⟨fuel, rfl⟩ : ∃ k, fuel = k + 1 := ⟨fuel - 1, by have := one_le_treeSize (.leaf v); omega⟩
    have h : ¬ nodeCap ≤ used := by simp only [treeSize] at hu; omega
    simp [serTree, parseTreeFrom, h]
  | node l r ihl ihr =>
    simp only [treeSize] at hf hu
    obtain ⟨fuel, rfl⟩ : ∃ k, fuel = k + 1 := ⟨fuel - 1, by omega⟩
    have h : ¬ nodeCap ≤ used := by omega
    have h1 := ihl (serTree r ++ rest) fuel (used + 1) (by omega) (by omega)
    have h2 := ihr rest fuel (used + 1 + treeSize l) (by omega) (by omega)
    simp [serTree, parseTreeFrom, h, h1, h2]

theorem parseTree_serTree (t : Tree) (rest : List Byte) (h : treeSize t ≤ nodeCap) :
    parseTree (serTree t ++ rest) = .ok (t, rest) :=
  parseTreeFrom_serTree t rest _ _ (by omega) (by omega)

/-- What a parse consumed is the serialized form of its tree, and the arena has room for it. -/
theorem parseTreeFrom_ok {fuel used : Nat} {y rest : List Byte} {t : Tree}
    (h : parseTreeFrom fuel used y = .ok (t, rest)) :
    y = serTree t ++ rest ∧ used + treeSize t ≤ nodeCap := by
  induction fuel generalizing used y rest t with
  | zero => simp [parseTreeFrom] at h
  | succ fuel ih =>
    cases y with
    | nil => simp [parseTreeFrom] at h
    | cons m y =>
      simp only [parseTreeFrom] at h
      split at h
      · simp at h
      · rename_i hm
        split at h
        · simp at h
        · rename_i hu
          split at h
          · rename_i h1
            cases y with
            | nil => simp at h
            | cons v y =>
              simp only [Except.ok.injEq, Prod.mk.injEq] at h
              obtain ⟨rfl, rfl⟩ := h
              exact ⟨by simp [serTree, h1], by simp only [treeSize]; omega⟩
          · rename_i h1
            have h0 : m = 0x00 := by
              by_contra h0; exact hm ⟨h0, h1⟩
            split at h
            · simp at h
            · rename_i l r1 hl
              split at h
              · simp at h
              · rename_i r r2 hr
                simp only [Except.ok.injEq, Prod.mk.injEq] at h
                obtain ⟨rfl, rfl⟩ := h
                obtain ⟨rfl, hl2⟩ := ih hl
                obtain ⟨rfl, hr2⟩ := ih hr
                exact ⟨by simp [serTree, h0], by simp only [treeSize]; omega⟩

theorem parseTree_ok {y rest : List Byte} {t : Tree} (h : parseTree y = .ok (t, rest)) :
    y = serTree t ++ rest ∧ treeSize t ≤ nodeCap := by
  have := parseTreeFrom_ok h
  exact ⟨this.1, by omega⟩

@[simp] theorem length_arenaFrom (i : Nat) (t : Tree) : (arenaFrom i t).length = treeSize t := by
  induction t generalizing i with
  | leaf v => rfl
  | node l r ihl ihr => simp [arenaFrom, treeSize, ihl, ihr]; omega

/-- The arena of a deserialized tree, standing anywhere in an arena at its own indices, reads back as the tree. -/
theorem treeAt_arenaFrom (t : Tree) (pre post : List Node) (fuel : Nat) (hf : treeSize t ≤ fuel)
    (hc : pre.length + treeSize t ≤ nodeCap) :
    treeAt (pre ++ arenaFrom pre.length t ++ post) fuel pre.length = some t := by
  induction t generalizing pre post fuel with
  | leaf v =>
    obtain ⟨fuel, rfl⟩ : ∃ k, fuel = k + 1 := ⟨fuel - 1, by have := one_le_treeSize (.leaf v); omega⟩
    simp [treeAt, arenaFrom]
  | node l r ihl ihr =>
    simp only [treeSize] at hf hc
    obtain ⟨fuel, rfl⟩ : ∃ k, fuel = k + 1 := ⟨fuel - 1, by omega⟩
    have hn : nodeCap = 511 := rfl
    have e1 : (BitVec.ofNat 16 (pre.length + 1)).toNat = pre.length + 1 := by
      rw [BitVec.toNat_ofNat, Nat.mod_eq_of_lt (by omega)]
    have e2 : (BitVec.ofNat 16 (pre.length + 1 + treeSize l)).toNat = pre.length + 1 + treeSize l := by
      rw [BitVec.toNat_ofNat, Nat.mod_eq_of_lt (by omega)]
    let n : Node := .internal 0 (BitVec.ofNat 16 (pre.length + 1)) (BitVec.ofNat 16 (pre.length + 1 + treeSize l))
    have h1 := ihl (pre ++ [n]) (arenaFrom (pre.length + 1 + treeSize l) r ++ post) fuel (by omega) (by simp; omega)
    have h2 := ihr (pre ++ [n] ++ arenaFrom (pre.length + 1) l) post fuel (by omega) (by simp; omega)
    simp only [List.length_append, List.length_singleton, length_arenaFrom] at h1 h2
    have a : pre ++ arenaFrom pre.length (.node l r) ++ post =
        pre ++ [n] ++ arenaFrom (pre.length + 1) l ++ (arenaFrom (pre.length + 1 + treeSize l) r ++ post) := by
      simp [arenaFrom, n]
    have b : pre ++ arenaFrom pre.length (.node l r) ++ post =
        pre ++ [n] ++ arenaFrom (pre.length + 1) l ++ arenaFrom (pre.length + 1 + treeSize l) r ++ post := by
      simp [arenaFrom, n]
    have hi : (pre ++ arenaFrom pre.length (.node l r) ++ post)[pre.length]? = some n := by
      simp [arenaFrom, n]
    rw [treeAt, hi]
    simp only [n, e1, e2]
    rw [show treeAt (pre ++ arenaFrom pre.length (.node l r) ++ post) fuel (pre.length + 1) = some l by rw [a]; exact h1,
      show treeAt (pre ++ arenaFrom pre.length (.node l r) ++ post) fuel (pre.length + 1 + treeSize l) = some r by
        rw [b]; exact h2]

/-- After a deserialization the arena holds the tree (45_tree_serializer.md R238). -/
theorem treeAt_arenaFrom_zero (t : Tree) (h : treeSize t ≤ nodeCap) :
    treeAt (arenaFrom 0 t) (arenaFrom 0 t).length 0 = some t := by
  have := treeAt_arenaFrom t [] [] (treeSize t) le_rfl (by simpa using h)
  simpa using this

end Sys2Proof.Machine
end

