-- ==== Sys2Proof/Laws/MatchFinder.lean ====
section
/-! SUPPORT. What the match length and the scan over the candidates are (40_match_finder.md R130, R132). -/

namespace Sys2Proof.Machine

/-- A common run is within its bounds and is a run. -/
theorem commonRun_agree (m : Nat) (as bs : List Sym) :
    commonRun m as bs ≤ m ∧ commonRun m as bs ≤ bs.length ∧ ∀ k < commonRun m as bs, as[k]? = bs[k]? := by
  induction m generalizing as bs with
  | zero => simp [commonRun]
  | succ m ih =>
    cases as with
    | nil => simp [commonRun]
    | cons a as =>
      cases bs with
      | nil => simp [commonRun]
      | cons b bs =>
        simp only [commonRun]
        split
        · rename_i h
          obtain ⟨h1, h2, h3⟩ := ih as bs
          refine ⟨by omega, by simp; omega, fun k hk => ?_⟩
          cases k with
          | zero => simp [h]
          | succ k => simpa using h3 k (by omega)
        · simp

/-- No longer run agrees. -/
theorem commonRun_greatest {m L : Nat} {as bs : List Sym} (h1 : L ≤ m) (h2 : L ≤ bs.length)
    (h3 : ∀ k < L, as[k]? = bs[k]?) : L ≤ commonRun m as bs := by
  induction m generalizing as bs L with
  | zero => omega
  | succ m ih =>
    cases L with
    | zero => omega
    | succ L =>
      cases bs with
      | nil => simp at h2
      | cons b bs =>
        have h0 := h3 0 (by omega)
        cases as with
        | nil => simp at h0
        | cons a as =>
          have hab : a = b := by simpa using h0
          simp only [commonRun, if_pos hab]
          exact Nat.succ_le_succ (ih (by omega) (by simpa using h2) fun k hk => by simpa using h3 (k + 1) (by omega))

/-- The scan keeps the best length, and the nearest distance that reaches it: either nothing beat what it began with, or
the result is the first candidate that reaches the greatest length. -/
theorem scan_best (m : Nat) (T : List Sym) (p n d : Nat) (b : Nat × Nat) :
    (∀ d', d ≤ d' → d' < d + n → matchLen m T (p - d') p ≤ (scan m T p n d b).2) ∧ b.2 ≤ (scan m T p n d b).2 ∧
    (scan m T p n d b = b ∨
      ∃ d', d ≤ d' ∧ d' < d + n ∧ scan m T p n d b = (d', matchLen m T (p - d') p) ∧
        b.2 < matchLen m T (p - d') p ∧
        ∀ e, d ≤ e → e < d' → matchLen m T (p - e) p < matchLen m T (p - d') p) := by
  induction n generalizing d b with
  | zero => exact ⟨fun d' h1 h2 => by omega, le_rfl, .inl rfl⟩
  | succ n ih =>
    simp only [scan]
    by_cases hb : b.2 < matchLen m T (p - d) p
    · rw [if_pos hb]
      obtain ⟨h1, h2, h3⟩ := ih (d + 1) (d, matchLen m T (p - d) p)
      refine ⟨fun d' hd hd2 => ?_, le_trans hb.le h2, .inr ?_⟩
      · rcases Nat.eq_or_lt_of_le hd with rfl | hd
        · exact h2
        · exact h1 d' hd (by omega)
      · rcases h3 with h3 | ⟨d', h4, h5, h6, h7, h8⟩
        · exact ⟨d, le_rfl, by omega, h3, hb, fun e h1 h2 => by omega⟩
        · refine ⟨d', by omega, by omega, h6, lt_trans hb h7, fun e he he2 => ?_⟩
          rcases Nat.eq_or_lt_of_le he with rfl | he
          · exact h7
          · exact h8 e he he2
    · rw [if_neg hb]
      obtain ⟨h1, h2, h3⟩ := ih (d + 1) b
      refine ⟨fun d' hd hd2 => ?_, h2, ?_⟩
      · rcases Nat.eq_or_lt_of_le hd with rfl | hd
        · omega
        · exact h1 d' hd (by omega)
      · rcases h3 with h3 | ⟨d', h4, h5, h6, h7, h8⟩
        · exact .inl h3
        · refine .inr ⟨d', by omega, by omega, h6, h7, fun e he he2 => ?_⟩
          rcases Nat.eq_or_lt_of_le he with rfl | he
          · omega
          · exact h8 e he he2

end Sys2Proof.Machine
end

