-- ==== Sys2Proof/Laws/State.lean ====
section
/-! SUPPORT. What each update of the state does to each field: one lemma per field per update, true by `rfl`. -/

namespace Sys2Proof.Machine

section setTrunc

variable (s : State) (b : Bool)

@[simp] theorem setTrunc_cfg : (setTrunc b s).cfg = s.cfg := rfl
@[simp] theorem setTrunc_pending : (setTrunc b s).pending = s.pending := rfl
@[simp] theorem setTrunc_reply : (setTrunc b s).reply = s.reply := rfl
@[simp] theorem setTrunc_draw : (setTrunc b s).draw = s.draw := rfl
@[simp] theorem setTrunc_cause : (setTrunc b s).cause = s.cause := rfl
@[simp] theorem setTrunc_trunc : (setTrunc b s).trunc = b := rfl
@[simp] theorem setTrunc_oor : (setTrunc b s).oor = s.oor := rfl
@[simp] theorem setTrunc_txt : (setTrunc b s).txt = s.txt := rfl
@[simp] theorem setTrunc_tok : (setTrunc b s).tok = s.tok := rfl
@[simp] theorem setTrunc_bit : (setTrunc b s).bit = s.bit := rfl
@[simp] theorem setTrunc_pre : (setTrunc b s).pre = s.pre := rfl
@[simp] theorem setTrunc_con : (setTrunc b s).con = s.con := rfl
@[simp] theorem setTrunc_node : (setTrunc b s).node = s.node := rfl
@[simp] theorem setTrunc_root : (setTrunc b s).root = s.root := rfl
@[simp] theorem setTrunc_code : (setTrunc b s).code = s.code := rfl
@[simp] theorem setTrunc_freq : (setTrunc b s).freq = s.freq := rfl
@[simp] theorem setTrunc_pos : (setTrunc b s).pos = s.pos := rfl
@[simp] theorem setTrunc_bitpos : (setTrunc b s).bitpos = s.bitpos := rfl
@[simp] theorem setTrunc_conpos : (setTrunc b s).conpos = s.conpos := rfl
@[simp] theorem setTrunc_bitcnt : (setTrunc b s).bitcnt = s.bitcnt := rfl

end setTrunc

section setOor

variable (s : State) (b : Bool)

@[simp] theorem setOor_cfg : (setOor b s).cfg = s.cfg := rfl
@[simp] theorem setOor_pending : (setOor b s).pending = s.pending := rfl
@[simp] theorem setOor_reply : (setOor b s).reply = s.reply := rfl
@[simp] theorem setOor_draw : (setOor b s).draw = s.draw := rfl
@[simp] theorem setOor_cause : (setOor b s).cause = s.cause := rfl
@[simp] theorem setOor_trunc : (setOor b s).trunc = s.trunc := rfl
@[simp] theorem setOor_oor : (setOor b s).oor = b := rfl
@[simp] theorem setOor_txt : (setOor b s).txt = s.txt := rfl
@[simp] theorem setOor_tok : (setOor b s).tok = s.tok := rfl
@[simp] theorem setOor_bit : (setOor b s).bit = s.bit := rfl
@[simp] theorem setOor_pre : (setOor b s).pre = s.pre := rfl
@[simp] theorem setOor_con : (setOor b s).con = s.con := rfl
@[simp] theorem setOor_node : (setOor b s).node = s.node := rfl
@[simp] theorem setOor_root : (setOor b s).root = s.root := rfl
@[simp] theorem setOor_code : (setOor b s).code = s.code := rfl
@[simp] theorem setOor_freq : (setOor b s).freq = s.freq := rfl
@[simp] theorem setOor_pos : (setOor b s).pos = s.pos := rfl
@[simp] theorem setOor_bitpos : (setOor b s).bitpos = s.bitpos := rfl
@[simp] theorem setOor_conpos : (setOor b s).conpos = s.conpos := rfl
@[simp] theorem setOor_bitcnt : (setOor b s).bitcnt = s.bitcnt := rfl

end setOor

section setTxt

variable (s : State) (xs : List Sym)

@[simp] theorem setTxt_cfg : (setTxt xs s).cfg = s.cfg := rfl
@[simp] theorem setTxt_pending : (setTxt xs s).pending = s.pending := rfl
@[simp] theorem setTxt_reply : (setTxt xs s).reply = s.reply := rfl
@[simp] theorem setTxt_draw : (setTxt xs s).draw = s.draw + 1 := rfl
@[simp] theorem setTxt_cause : (setTxt xs s).cause = s.cause := rfl
@[simp] theorem setTxt_trunc : (setTxt xs s).trunc = s.trunc := rfl
@[simp] theorem setTxt_oor : (setTxt xs s).oor = s.oor := rfl
@[simp] theorem setTxt_txt : (setTxt xs s).txt = .fill s.draw xs := rfl
@[simp] theorem setTxt_tok : (setTxt xs s).tok = s.tok := rfl
@[simp] theorem setTxt_bit : (setTxt xs s).bit = s.bit := rfl
@[simp] theorem setTxt_pre : (setTxt xs s).pre = s.pre := rfl
@[simp] theorem setTxt_con : (setTxt xs s).con = s.con := rfl
@[simp] theorem setTxt_node : (setTxt xs s).node = s.node := rfl
@[simp] theorem setTxt_root : (setTxt xs s).root = s.root := rfl
@[simp] theorem setTxt_code : (setTxt xs s).code = s.code := rfl
@[simp] theorem setTxt_freq : (setTxt xs s).freq = s.freq := rfl
@[simp] theorem setTxt_pos : (setTxt xs s).pos = s.pos := rfl
@[simp] theorem setTxt_bitpos : (setTxt xs s).bitpos = s.bitpos := rfl
@[simp] theorem setTxt_conpos : (setTxt xs s).conpos = s.conpos := rfl
@[simp] theorem setTxt_bitcnt : (setTxt xs s).bitcnt = s.bitcnt := rfl

end setTxt

section setTok

variable (s : State) (xs : List Rec)

@[simp] theorem setTok_cfg : (setTok xs s).cfg = s.cfg := rfl
@[simp] theorem setTok_pending : (setTok xs s).pending = s.pending := rfl
@[simp] theorem setTok_reply : (setTok xs s).reply = s.reply := rfl
@[simp] theorem setTok_draw : (setTok xs s).draw = s.draw + 1 := rfl
@[simp] theorem setTok_cause : (setTok xs s).cause = s.cause := rfl
@[simp] theorem setTok_trunc : (setTok xs s).trunc = s.trunc := rfl
@[simp] theorem setTok_oor : (setTok xs s).oor = s.oor := rfl
@[simp] theorem setTok_txt : (setTok xs s).txt = s.txt := rfl
@[simp] theorem setTok_tok : (setTok xs s).tok = .fill s.draw xs := rfl
@[simp] theorem setTok_bit : (setTok xs s).bit = s.bit := rfl
@[simp] theorem setTok_pre : (setTok xs s).pre = s.pre := rfl
@[simp] theorem setTok_con : (setTok xs s).con = s.con := rfl
@[simp] theorem setTok_node : (setTok xs s).node = s.node := rfl
@[simp] theorem setTok_root : (setTok xs s).root = s.root := rfl
@[simp] theorem setTok_code : (setTok xs s).code = s.code := rfl
@[simp] theorem setTok_freq : (setTok xs s).freq = s.freq := rfl
@[simp] theorem setTok_pos : (setTok xs s).pos = s.pos := rfl
@[simp] theorem setTok_bitpos : (setTok xs s).bitpos = s.bitpos := rfl
@[simp] theorem setTok_conpos : (setTok xs s).conpos = s.conpos := rfl
@[simp] theorem setTok_bitcnt : (setTok xs s).bitcnt = s.bitcnt := rfl

end setTok

section setBit

variable (s : State) (xs : List Bit)

@[simp] theorem setBit_cfg : (setBit xs s).cfg = s.cfg := rfl
@[simp] theorem setBit_pending : (setBit xs s).pending = s.pending := rfl
@[simp] theorem setBit_reply : (setBit xs s).reply = s.reply := rfl
@[simp] theorem setBit_draw : (setBit xs s).draw = s.draw + 1 := rfl
@[simp] theorem setBit_cause : (setBit xs s).cause = s.cause := rfl
@[simp] theorem setBit_trunc : (setBit xs s).trunc = s.trunc := rfl
@[simp] theorem setBit_oor : (setBit xs s).oor = s.oor := rfl
@[simp] theorem setBit_txt : (setBit xs s).txt = s.txt := rfl
@[simp] theorem setBit_tok : (setBit xs s).tok = s.tok := rfl
@[simp] theorem setBit_bit : (setBit xs s).bit = .fill s.draw xs := rfl
@[simp] theorem setBit_pre : (setBit xs s).pre = s.pre := rfl
@[simp] theorem setBit_con : (setBit xs s).con = s.con := rfl
@[simp] theorem setBit_node : (setBit xs s).node = s.node := rfl
@[simp] theorem setBit_root : (setBit xs s).root = s.root := rfl
@[simp] theorem setBit_code : (setBit xs s).code = s.code := rfl
@[simp] theorem setBit_freq : (setBit xs s).freq = s.freq := rfl
@[simp] theorem setBit_pos : (setBit xs s).pos = s.pos := rfl
@[simp] theorem setBit_bitpos : (setBit xs s).bitpos = s.bitpos := rfl
@[simp] theorem setBit_conpos : (setBit xs s).conpos = s.conpos := rfl
@[simp] theorem setBit_bitcnt : (setBit xs s).bitcnt = s.bitcnt := rfl

end setBit

section setPre

variable (s : State) (xs : List Byte)

@[simp] theorem setPre_cfg : (setPre xs s).cfg = s.cfg := rfl
@[simp] theorem setPre_pending : (setPre xs s).pending = s.pending := rfl
@[simp] theorem setPre_reply : (setPre xs s).reply = s.reply := rfl
@[simp] theorem setPre_draw : (setPre xs s).draw = s.draw + 1 := rfl
@[simp] theorem setPre_cause : (setPre xs s).cause = s.cause := rfl
@[simp] theorem setPre_trunc : (setPre xs s).trunc = s.trunc := rfl
@[simp] theorem setPre_oor : (setPre xs s).oor = s.oor := rfl
@[simp] theorem setPre_txt : (setPre xs s).txt = s.txt := rfl
@[simp] theorem setPre_tok : (setPre xs s).tok = s.tok := rfl
@[simp] theorem setPre_bit : (setPre xs s).bit = s.bit := rfl
@[simp] theorem setPre_pre : (setPre xs s).pre = .fill s.draw xs := rfl
@[simp] theorem setPre_con : (setPre xs s).con = s.con := rfl
@[simp] theorem setPre_node : (setPre xs s).node = s.node := rfl
@[simp] theorem setPre_root : (setPre xs s).root = s.root := rfl
@[simp] theorem setPre_code : (setPre xs s).code = s.code := rfl
@[simp] theorem setPre_freq : (setPre xs s).freq = s.freq := rfl
@[simp] theorem setPre_pos : (setPre xs s).pos = s.pos := rfl
@[simp] theorem setPre_bitpos : (setPre xs s).bitpos = s.bitpos := rfl
@[simp] theorem setPre_conpos : (setPre xs s).conpos = s.conpos := rfl
@[simp] theorem setPre_bitcnt : (setPre xs s).bitcnt = s.bitcnt := rfl

end setPre

section setCon

variable (s : State) (xs : List Byte)

@[simp] theorem setCon_cfg : (setCon xs s).cfg = s.cfg := rfl
@[simp] theorem setCon_pending : (setCon xs s).pending = s.pending := rfl
@[simp] theorem setCon_reply : (setCon xs s).reply = s.reply := rfl
@[simp] theorem setCon_draw : (setCon xs s).draw = s.draw + 1 := rfl
@[simp] theorem setCon_cause : (setCon xs s).cause = s.cause := rfl
@[simp] theorem setCon_trunc : (setCon xs s).trunc = s.trunc := rfl
@[simp] theorem setCon_oor : (setCon xs s).oor = s.oor := rfl
@[simp] theorem setCon_txt : (setCon xs s).txt = s.txt := rfl
@[simp] theorem setCon_tok : (setCon xs s).tok = s.tok := rfl
@[simp] theorem setCon_bit : (setCon xs s).bit = s.bit := rfl
@[simp] theorem setCon_pre : (setCon xs s).pre = s.pre := rfl
@[simp] theorem setCon_con : (setCon xs s).con = .fill s.draw xs := rfl
@[simp] theorem setCon_node : (setCon xs s).node = s.node := rfl
@[simp] theorem setCon_root : (setCon xs s).root = s.root := rfl
@[simp] theorem setCon_code : (setCon xs s).code = s.code := rfl
@[simp] theorem setCon_freq : (setCon xs s).freq = s.freq := rfl
@[simp] theorem setCon_pos : (setCon xs s).pos = s.pos := rfl
@[simp] theorem setCon_bitpos : (setCon xs s).bitpos = s.bitpos := rfl
@[simp] theorem setCon_conpos : (setCon xs s).conpos = s.conpos := rfl
@[simp] theorem setCon_bitcnt : (setCon xs s).bitcnt = s.bitcnt := rfl

end setCon

section setArena

variable (s : State) (ns : List Node) (i : Nat)

@[simp] theorem setArena_cfg : (setArena ns i s).cfg = s.cfg := rfl
@[simp] theorem setArena_pending : (setArena ns i s).pending = s.pending := rfl
@[simp] theorem setArena_reply : (setArena ns i s).reply = s.reply := rfl
@[simp] theorem setArena_draw : (setArena ns i s).draw = s.draw := rfl
@[simp] theorem setArena_cause : (setArena ns i s).cause = s.cause := rfl
@[simp] theorem setArena_trunc : (setArena ns i s).trunc = s.trunc := rfl
@[simp] theorem setArena_oor : (setArena ns i s).oor = s.oor := rfl
@[simp] theorem setArena_txt : (setArena ns i s).txt = s.txt := rfl
@[simp] theorem setArena_tok : (setArena ns i s).tok = s.tok := rfl
@[simp] theorem setArena_bit : (setArena ns i s).bit = s.bit := rfl
@[simp] theorem setArena_pre : (setArena ns i s).pre = s.pre := rfl
@[simp] theorem setArena_con : (setArena ns i s).con = s.con := rfl
@[simp] theorem setArena_node : (setArena ns i s).node = ns := rfl
@[simp] theorem setArena_root : (setArena ns i s).root = BitVec.ofNat 32 i := rfl
@[simp] theorem setArena_code : (setArena ns i s).code = s.code := rfl
@[simp] theorem setArena_freq : (setArena ns i s).freq = s.freq := rfl
@[simp] theorem setArena_pos : (setArena ns i s).pos = s.pos := rfl
@[simp] theorem setArena_bitpos : (setArena ns i s).bitpos = s.bitpos := rfl
@[simp] theorem setArena_conpos : (setArena ns i s).conpos = s.conpos := rfl
@[simp] theorem setArena_bitcnt : (setArena ns i s).bitcnt = s.bitcnt := rfl

end setArena

section setCode

variable (s : State) (t : Vector Code 256)

@[simp] theorem setCode_cfg : (setCode t s).cfg = s.cfg := rfl
@[simp] theorem setCode_pending : (setCode t s).pending = s.pending := rfl
@[simp] theorem setCode_reply : (setCode t s).reply = s.reply := rfl
@[simp] theorem setCode_draw : (setCode t s).draw = s.draw := rfl
@[simp] theorem setCode_cause : (setCode t s).cause = s.cause := rfl
@[simp] theorem setCode_trunc : (setCode t s).trunc = s.trunc := rfl
@[simp] theorem setCode_oor : (setCode t s).oor = s.oor := rfl
@[simp] theorem setCode_txt : (setCode t s).txt = s.txt := rfl
@[simp] theorem setCode_tok : (setCode t s).tok = s.tok := rfl
@[simp] theorem setCode_bit : (setCode t s).bit = s.bit := rfl
@[simp] theorem setCode_pre : (setCode t s).pre = s.pre := rfl
@[simp] theorem setCode_con : (setCode t s).con = s.con := rfl
@[simp] theorem setCode_node : (setCode t s).node = s.node := rfl
@[simp] theorem setCode_root : (setCode t s).root = s.root := rfl
@[simp] theorem setCode_code : (setCode t s).code = t := rfl
@[simp] theorem setCode_freq : (setCode t s).freq = s.freq := rfl
@[simp] theorem setCode_pos : (setCode t s).pos = s.pos := rfl
@[simp] theorem setCode_bitpos : (setCode t s).bitpos = s.bitpos := rfl
@[simp] theorem setCode_conpos : (setCode t s).conpos = s.conpos := rfl
@[simp] theorem setCode_bitcnt : (setCode t s).bitcnt = s.bitcnt := rfl

end setCode

section setFreq

variable (s : State) (t : Vector Word 256)

@[simp] theorem setFreq_cfg : (setFreq t s).cfg = s.cfg := rfl
@[simp] theorem setFreq_pending : (setFreq t s).pending = s.pending := rfl
@[simp] theorem setFreq_reply : (setFreq t s).reply = s.reply := rfl
@[simp] theorem setFreq_draw : (setFreq t s).draw = s.draw := rfl
@[simp] theorem setFreq_cause : (setFreq t s).cause = s.cause := rfl
@[simp] theorem setFreq_trunc : (setFreq t s).trunc = s.trunc := rfl
@[simp] theorem setFreq_oor : (setFreq t s).oor = s.oor := rfl
@[simp] theorem setFreq_txt : (setFreq t s).txt = s.txt := rfl
@[simp] theorem setFreq_tok : (setFreq t s).tok = s.tok := rfl
@[simp] theorem setFreq_bit : (setFreq t s).bit = s.bit := rfl
@[simp] theorem setFreq_pre : (setFreq t s).pre = s.pre := rfl
@[simp] theorem setFreq_con : (setFreq t s).con = s.con := rfl
@[simp] theorem setFreq_node : (setFreq t s).node = s.node := rfl
@[simp] theorem setFreq_root : (setFreq t s).root = s.root := rfl
@[simp] theorem setFreq_code : (setFreq t s).code = s.code := rfl
@[simp] theorem setFreq_freq : (setFreq t s).freq = t := rfl
@[simp] theorem setFreq_pos : (setFreq t s).pos = s.pos := rfl
@[simp] theorem setFreq_bitpos : (setFreq t s).bitpos = s.bitpos := rfl
@[simp] theorem setFreq_conpos : (setFreq t s).conpos = s.conpos := rfl
@[simp] theorem setFreq_bitcnt : (setFreq t s).bitcnt = s.bitcnt := rfl

end setFreq

section setPos

variable (s : State) (n : Nat)

@[simp] theorem setPos_cfg : (setPos n s).cfg = s.cfg := rfl
@[simp] theorem setPos_pending : (setPos n s).pending = s.pending := rfl
@[simp] theorem setPos_reply : (setPos n s).reply = s.reply := rfl
@[simp] theorem setPos_draw : (setPos n s).draw = s.draw := rfl
@[simp] theorem setPos_cause : (setPos n s).cause = s.cause := rfl
@[simp] theorem setPos_trunc : (setPos n s).trunc = s.trunc := rfl
@[simp] theorem setPos_oor : (setPos n s).oor = s.oor := rfl
@[simp] theorem setPos_txt : (setPos n s).txt = s.txt := rfl
@[simp] theorem setPos_tok : (setPos n s).tok = s.tok := rfl
@[simp] theorem setPos_bit : (setPos n s).bit = s.bit := rfl
@[simp] theorem setPos_pre : (setPos n s).pre = s.pre := rfl
@[simp] theorem setPos_con : (setPos n s).con = s.con := rfl
@[simp] theorem setPos_node : (setPos n s).node = s.node := rfl
@[simp] theorem setPos_root : (setPos n s).root = s.root := rfl
@[simp] theorem setPos_code : (setPos n s).code = s.code := rfl
@[simp] theorem setPos_freq : (setPos n s).freq = s.freq := rfl
@[simp] theorem setPos_pos : (setPos n s).pos = BitVec.ofNat 32 n := rfl
@[simp] theorem setPos_bitpos : (setPos n s).bitpos = s.bitpos := rfl
@[simp] theorem setPos_conpos : (setPos n s).conpos = s.conpos := rfl
@[simp] theorem setPos_bitcnt : (setPos n s).bitcnt = s.bitcnt := rfl

end setPos

section setBitpos

variable (s : State) (n : Nat)

@[simp] theorem setBitpos_cfg : (setBitpos n s).cfg = s.cfg := rfl
@[simp] theorem setBitpos_pending : (setBitpos n s).pending = s.pending := rfl
@[simp] theorem setBitpos_reply : (setBitpos n s).reply = s.reply := rfl
@[simp] theorem setBitpos_draw : (setBitpos n s).draw = s.draw := rfl
@[simp] theorem setBitpos_cause : (setBitpos n s).cause = s.cause := rfl
@[simp] theorem setBitpos_trunc : (setBitpos n s).trunc = s.trunc := rfl
@[simp] theorem setBitpos_oor : (setBitpos n s).oor = s.oor := rfl
@[simp] theorem setBitpos_txt : (setBitpos n s).txt = s.txt := rfl
@[simp] theorem setBitpos_tok : (setBitpos n s).tok = s.tok := rfl
@[simp] theorem setBitpos_bit : (setBitpos n s).bit = s.bit := rfl
@[simp] theorem setBitpos_pre : (setBitpos n s).pre = s.pre := rfl
@[simp] theorem setBitpos_con : (setBitpos n s).con = s.con := rfl
@[simp] theorem setBitpos_node : (setBitpos n s).node = s.node := rfl
@[simp] theorem setBitpos_root : (setBitpos n s).root = s.root := rfl
@[simp] theorem setBitpos_code : (setBitpos n s).code = s.code := rfl
@[simp] theorem setBitpos_freq : (setBitpos n s).freq = s.freq := rfl
@[simp] theorem setBitpos_pos : (setBitpos n s).pos = s.pos := rfl
@[simp] theorem setBitpos_bitpos : (setBitpos n s).bitpos = BitVec.ofNat 32 n := rfl
@[simp] theorem setBitpos_conpos : (setBitpos n s).conpos = s.conpos := rfl
@[simp] theorem setBitpos_bitcnt : (setBitpos n s).bitcnt = s.bitcnt := rfl

end setBitpos

section setConpos

variable (s : State) (n : Nat)

@[simp] theorem setConpos_cfg : (setConpos n s).cfg = s.cfg := rfl
@[simp] theorem setConpos_pending : (setConpos n s).pending = s.pending := rfl
@[simp] theorem setConpos_reply : (setConpos n s).reply = s.reply := rfl
@[simp] theorem setConpos_draw : (setConpos n s).draw = s.draw := rfl
@[simp] theorem setConpos_cause : (setConpos n s).cause = s.cause := rfl
@[simp] theorem setConpos_trunc : (setConpos n s).trunc = s.trunc := rfl
@[simp] theorem setConpos_oor : (setConpos n s).oor = s.oor := rfl
@[simp] theorem setConpos_txt : (setConpos n s).txt = s.txt := rfl
@[simp] theorem setConpos_tok : (setConpos n s).tok = s.tok := rfl
@[simp] theorem setConpos_bit : (setConpos n s).bit = s.bit := rfl
@[simp] theorem setConpos_pre : (setConpos n s).pre = s.pre := rfl
@[simp] theorem setConpos_con : (setConpos n s).con = s.con := rfl
@[simp] theorem setConpos_node : (setConpos n s).node = s.node := rfl
@[simp] theorem setConpos_root : (setConpos n s).root = s.root := rfl
@[simp] theorem setConpos_code : (setConpos n s).code = s.code := rfl
@[simp] theorem setConpos_freq : (setConpos n s).freq = s.freq := rfl
@[simp] theorem setConpos_pos : (setConpos n s).pos = s.pos := rfl
@[simp] theorem setConpos_bitpos : (setConpos n s).bitpos = s.bitpos := rfl
@[simp] theorem setConpos_conpos : (setConpos n s).conpos = BitVec.ofNat 32 n := rfl
@[simp] theorem setConpos_bitcnt : (setConpos n s).bitcnt = s.bitcnt := rfl

end setConpos

section setBitcnt

variable (s : State) (n : Nat)

@[simp] theorem setBitcnt_cfg : (setBitcnt n s).cfg = s.cfg := rfl
@[simp] theorem setBitcnt_pending : (setBitcnt n s).pending = s.pending := rfl
@[simp] theorem setBitcnt_reply : (setBitcnt n s).reply = s.reply := rfl
@[simp] theorem setBitcnt_draw : (setBitcnt n s).draw = s.draw := rfl
@[simp] theorem setBitcnt_cause : (setBitcnt n s).cause = s.cause := rfl
@[simp] theorem setBitcnt_trunc : (setBitcnt n s).trunc = s.trunc := rfl
@[simp] theorem setBitcnt_oor : (setBitcnt n s).oor = s.oor := rfl
@[simp] theorem setBitcnt_txt : (setBitcnt n s).txt = s.txt := rfl
@[simp] theorem setBitcnt_tok : (setBitcnt n s).tok = s.tok := rfl
@[simp] theorem setBitcnt_bit : (setBitcnt n s).bit = s.bit := rfl
@[simp] theorem setBitcnt_pre : (setBitcnt n s).pre = s.pre := rfl
@[simp] theorem setBitcnt_con : (setBitcnt n s).con = s.con := rfl
@[simp] theorem setBitcnt_node : (setBitcnt n s).node = s.node := rfl
@[simp] theorem setBitcnt_root : (setBitcnt n s).root = s.root := rfl
@[simp] theorem setBitcnt_code : (setBitcnt n s).code = s.code := rfl
@[simp] theorem setBitcnt_freq : (setBitcnt n s).freq = s.freq := rfl
@[simp] theorem setBitcnt_pos : (setBitcnt n s).pos = s.pos := rfl
@[simp] theorem setBitcnt_bitpos : (setBitcnt n s).bitpos = s.bitpos := rfl
@[simp] theorem setBitcnt_conpos : (setBitcnt n s).conpos = s.conpos := rfl
@[simp] theorem setBitcnt_bitcnt : (setBitcnt n s).bitcnt = BitVec.ofNat 32 n := rfl

end setBitcnt

section writeTxtLen

variable (s : State) (n : Nat)

@[simp] theorem writeTxtLen_cfg : (writeTxtLen n s).cfg = s.cfg := rfl
@[simp] theorem writeTxtLen_pending : (writeTxtLen n s).pending = s.pending := rfl
@[simp] theorem writeTxtLen_reply : (writeTxtLen n s).reply = s.reply := rfl
@[simp] theorem writeTxtLen_draw : (writeTxtLen n s).draw = s.draw := rfl
@[simp] theorem writeTxtLen_cause : (writeTxtLen n s).cause = s.cause := rfl
@[simp] theorem writeTxtLen_trunc : (writeTxtLen n s).trunc = s.trunc := rfl
@[simp] theorem writeTxtLen_oor : (writeTxtLen n s).oor = s.oor := rfl
@[simp] theorem writeTxtLen_txt : (writeTxtLen n s).txt = lengthWrite Config.freeSym s.cfg.txtCap n s.txt := rfl
@[simp] theorem writeTxtLen_tok : (writeTxtLen n s).tok = s.tok := rfl
@[simp] theorem writeTxtLen_bit : (writeTxtLen n s).bit = s.bit := rfl
@[simp] theorem writeTxtLen_pre : (writeTxtLen n s).pre = s.pre := rfl
@[simp] theorem writeTxtLen_con : (writeTxtLen n s).con = s.con := rfl
@[simp] theorem writeTxtLen_node : (writeTxtLen n s).node = s.node := rfl
@[simp] theorem writeTxtLen_root : (writeTxtLen n s).root = s.root := rfl
@[simp] theorem writeTxtLen_code : (writeTxtLen n s).code = s.code := rfl
@[simp] theorem writeTxtLen_freq : (writeTxtLen n s).freq = s.freq := rfl
@[simp] theorem writeTxtLen_pos : (writeTxtLen n s).pos = s.pos := rfl
@[simp] theorem writeTxtLen_bitpos : (writeTxtLen n s).bitpos = s.bitpos := rfl
@[simp] theorem writeTxtLen_conpos : (writeTxtLen n s).conpos = s.conpos := rfl
@[simp] theorem writeTxtLen_bitcnt : (writeTxtLen n s).bitcnt = s.bitcnt := rfl

end writeTxtLen

section writeTokLen

variable (s : State) (n : Nat)

@[simp] theorem writeTokLen_cfg : (writeTokLen n s).cfg = s.cfg := rfl
@[simp] theorem writeTokLen_pending : (writeTokLen n s).pending = s.pending := rfl
@[simp] theorem writeTokLen_reply : (writeTokLen n s).reply = s.reply := rfl
@[simp] theorem writeTokLen_draw : (writeTokLen n s).draw = s.draw := rfl
@[simp] theorem writeTokLen_cause : (writeTokLen n s).cause = s.cause := rfl
@[simp] theorem writeTokLen_trunc : (writeTokLen n s).trunc = s.trunc := rfl
@[simp] theorem writeTokLen_oor : (writeTokLen n s).oor = s.oor := rfl
@[simp] theorem writeTokLen_txt : (writeTokLen n s).txt = s.txt := rfl
@[simp] theorem writeTokLen_tok : (writeTokLen n s).tok = lengthWrite Config.freeRec s.cfg.tokCap n s.tok := rfl
@[simp] theorem writeTokLen_bit : (writeTokLen n s).bit = s.bit := rfl
@[simp] theorem writeTokLen_pre : (writeTokLen n s).pre = s.pre := rfl
@[simp] theorem writeTokLen_con : (writeTokLen n s).con = s.con := rfl
@[simp] theorem writeTokLen_node : (writeTokLen n s).node = s.node := rfl
@[simp] theorem writeTokLen_root : (writeTokLen n s).root = s.root := rfl
@[simp] theorem writeTokLen_code : (writeTokLen n s).code = s.code := rfl
@[simp] theorem writeTokLen_freq : (writeTokLen n s).freq = s.freq := rfl
@[simp] theorem writeTokLen_pos : (writeTokLen n s).pos = s.pos := rfl
@[simp] theorem writeTokLen_bitpos : (writeTokLen n s).bitpos = s.bitpos := rfl
@[simp] theorem writeTokLen_conpos : (writeTokLen n s).conpos = s.conpos := rfl
@[simp] theorem writeTokLen_bitcnt : (writeTokLen n s).bitcnt = s.bitcnt := rfl

end writeTokLen

section writeBitLen

variable (s : State) (n : Nat)

@[simp] theorem writeBitLen_cfg : (writeBitLen n s).cfg = s.cfg := rfl
@[simp] theorem writeBitLen_pending : (writeBitLen n s).pending = s.pending := rfl
@[simp] theorem writeBitLen_reply : (writeBitLen n s).reply = s.reply := rfl
@[simp] theorem writeBitLen_draw : (writeBitLen n s).draw = s.draw := rfl
@[simp] theorem writeBitLen_cause : (writeBitLen n s).cause = s.cause := rfl
@[simp] theorem writeBitLen_trunc : (writeBitLen n s).trunc = s.trunc := rfl
@[simp] theorem writeBitLen_oor : (writeBitLen n s).oor = s.oor := rfl
@[simp] theorem writeBitLen_txt : (writeBitLen n s).txt = s.txt := rfl
@[simp] theorem writeBitLen_tok : (writeBitLen n s).tok = s.tok := rfl
@[simp] theorem writeBitLen_bit : (writeBitLen n s).bit = lengthWrite Config.freeBit s.cfg.bitCap n s.bit := rfl
@[simp] theorem writeBitLen_pre : (writeBitLen n s).pre = s.pre := rfl
@[simp] theorem writeBitLen_con : (writeBitLen n s).con = s.con := rfl
@[simp] theorem writeBitLen_node : (writeBitLen n s).node = s.node := rfl
@[simp] theorem writeBitLen_root : (writeBitLen n s).root = s.root := rfl
@[simp] theorem writeBitLen_code : (writeBitLen n s).code = s.code := rfl
@[simp] theorem writeBitLen_freq : (writeBitLen n s).freq = s.freq := rfl
@[simp] theorem writeBitLen_pos : (writeBitLen n s).pos = s.pos := rfl
@[simp] theorem writeBitLen_bitpos : (writeBitLen n s).bitpos = s.bitpos := rfl
@[simp] theorem writeBitLen_conpos : (writeBitLen n s).conpos = s.conpos := rfl
@[simp] theorem writeBitLen_bitcnt : (writeBitLen n s).bitcnt = s.bitcnt := rfl

end writeBitLen

section writePreLen

variable (s : State) (n : Nat)

@[simp] theorem writePreLen_cfg : (writePreLen n s).cfg = s.cfg := rfl
@[simp] theorem writePreLen_pending : (writePreLen n s).pending = s.pending := rfl
@[simp] theorem writePreLen_reply : (writePreLen n s).reply = s.reply := rfl
@[simp] theorem writePreLen_draw : (writePreLen n s).draw = s.draw := rfl
@[simp] theorem writePreLen_cause : (writePreLen n s).cause = s.cause := rfl
@[simp] theorem writePreLen_trunc : (writePreLen n s).trunc = s.trunc := rfl
@[simp] theorem writePreLen_oor : (writePreLen n s).oor = s.oor := rfl
@[simp] theorem writePreLen_txt : (writePreLen n s).txt = s.txt := rfl
@[simp] theorem writePreLen_tok : (writePreLen n s).tok = s.tok := rfl
@[simp] theorem writePreLen_bit : (writePreLen n s).bit = s.bit := rfl
@[simp] theorem writePreLen_pre : (writePreLen n s).pre = lengthWrite Config.freePre s.cfg.preCap n s.pre := rfl
@[simp] theorem writePreLen_con : (writePreLen n s).con = s.con := rfl
@[simp] theorem writePreLen_node : (writePreLen n s).node = s.node := rfl
@[simp] theorem writePreLen_root : (writePreLen n s).root = s.root := rfl
@[simp] theorem writePreLen_code : (writePreLen n s).code = s.code := rfl
@[simp] theorem writePreLen_freq : (writePreLen n s).freq = s.freq := rfl
@[simp] theorem writePreLen_pos : (writePreLen n s).pos = s.pos := rfl
@[simp] theorem writePreLen_bitpos : (writePreLen n s).bitpos = s.bitpos := rfl
@[simp] theorem writePreLen_conpos : (writePreLen n s).conpos = s.conpos := rfl
@[simp] theorem writePreLen_bitcnt : (writePreLen n s).bitcnt = s.bitcnt := rfl

end writePreLen

section writeConLen

variable (s : State) (n : Nat)

@[simp] theorem writeConLen_cfg : (writeConLen n s).cfg = s.cfg := rfl
@[simp] theorem writeConLen_pending : (writeConLen n s).pending = s.pending := rfl
@[simp] theorem writeConLen_reply : (writeConLen n s).reply = s.reply := rfl
@[simp] theorem writeConLen_draw : (writeConLen n s).draw = s.draw := rfl
@[simp] theorem writeConLen_cause : (writeConLen n s).cause = s.cause := rfl
@[simp] theorem writeConLen_trunc : (writeConLen n s).trunc = s.trunc := rfl
@[simp] theorem writeConLen_oor : (writeConLen n s).oor = s.oor := rfl
@[simp] theorem writeConLen_txt : (writeConLen n s).txt = s.txt := rfl
@[simp] theorem writeConLen_tok : (writeConLen n s).tok = s.tok := rfl
@[simp] theorem writeConLen_bit : (writeConLen n s).bit = s.bit := rfl
@[simp] theorem writeConLen_pre : (writeConLen n s).pre = s.pre := rfl
@[simp] theorem writeConLen_con : (writeConLen n s).con = lengthWrite Config.freeCon s.cfg.conCap n s.con := rfl
@[simp] theorem writeConLen_node : (writeConLen n s).node = s.node := rfl
@[simp] theorem writeConLen_root : (writeConLen n s).root = s.root := rfl
@[simp] theorem writeConLen_code : (writeConLen n s).code = s.code := rfl
@[simp] theorem writeConLen_freq : (writeConLen n s).freq = s.freq := rfl
@[simp] theorem writeConLen_pos : (writeConLen n s).pos = s.pos := rfl
@[simp] theorem writeConLen_bitpos : (writeConLen n s).bitpos = s.bitpos := rfl
@[simp] theorem writeConLen_conpos : (writeConLen n s).conpos = s.conpos := rfl
@[simp] theorem writeConLen_bitcnt : (writeConLen n s).bitcnt = s.bitcnt := rfl

end writeConLen

section storeTxt

variable (s : State) (i : Nat) (x : Sym)

@[simp] theorem storeTxt_cfg : (storeTxt i x s).cfg = s.cfg := rfl
@[simp] theorem storeTxt_pending : (storeTxt i x s).pending = s.pending := rfl
@[simp] theorem storeTxt_reply : (storeTxt i x s).reply = s.reply := rfl
@[simp] theorem storeTxt_draw : (storeTxt i x s).draw = s.draw := rfl
@[simp] theorem storeTxt_cause : (storeTxt i x s).cause = s.cause := rfl
@[simp] theorem storeTxt_trunc : (storeTxt i x s).trunc = s.trunc := rfl
@[simp] theorem storeTxt_oor : (storeTxt i x s).oor = s.oor := rfl
@[simp] theorem storeTxt_txt : (storeTxt i x s).txt = portStore s.cfg.txtCap i x s.txt := rfl
@[simp] theorem storeTxt_tok : (storeTxt i x s).tok = s.tok := rfl
@[simp] theorem storeTxt_bit : (storeTxt i x s).bit = s.bit := rfl
@[simp] theorem storeTxt_pre : (storeTxt i x s).pre = s.pre := rfl
@[simp] theorem storeTxt_con : (storeTxt i x s).con = s.con := rfl
@[simp] theorem storeTxt_node : (storeTxt i x s).node = s.node := rfl
@[simp] theorem storeTxt_root : (storeTxt i x s).root = s.root := rfl
@[simp] theorem storeTxt_code : (storeTxt i x s).code = s.code := rfl
@[simp] theorem storeTxt_freq : (storeTxt i x s).freq = s.freq := rfl
@[simp] theorem storeTxt_pos : (storeTxt i x s).pos = s.pos := rfl
@[simp] theorem storeTxt_bitpos : (storeTxt i x s).bitpos = s.bitpos := rfl
@[simp] theorem storeTxt_conpos : (storeTxt i x s).conpos = s.conpos := rfl
@[simp] theorem storeTxt_bitcnt : (storeTxt i x s).bitcnt = s.bitcnt := rfl

end storeTxt

section storeTok

variable (s : State) (i : Nat) (x : Rec)

@[simp] theorem storeTok_cfg : (storeTok i x s).cfg = s.cfg := rfl
@[simp] theorem storeTok_pending : (storeTok i x s).pending = s.pending := rfl
@[simp] theorem storeTok_reply : (storeTok i x s).reply = s.reply := rfl
@[simp] theorem storeTok_draw : (storeTok i x s).draw = s.draw := rfl
@[simp] theorem storeTok_cause : (storeTok i x s).cause = s.cause := rfl
@[simp] theorem storeTok_trunc : (storeTok i x s).trunc = s.trunc := rfl
@[simp] theorem storeTok_oor : (storeTok i x s).oor = s.oor := rfl
@[simp] theorem storeTok_txt : (storeTok i x s).txt = s.txt := rfl
@[simp] theorem storeTok_tok : (storeTok i x s).tok = portStore s.cfg.tokCap i x s.tok := rfl
@[simp] theorem storeTok_bit : (storeTok i x s).bit = s.bit := rfl
@[simp] theorem storeTok_pre : (storeTok i x s).pre = s.pre := rfl
@[simp] theorem storeTok_con : (storeTok i x s).con = s.con := rfl
@[simp] theorem storeTok_node : (storeTok i x s).node = s.node := rfl
@[simp] theorem storeTok_root : (storeTok i x s).root = s.root := rfl
@[simp] theorem storeTok_code : (storeTok i x s).code = s.code := rfl
@[simp] theorem storeTok_freq : (storeTok i x s).freq = s.freq := rfl
@[simp] theorem storeTok_pos : (storeTok i x s).pos = s.pos := rfl
@[simp] theorem storeTok_bitpos : (storeTok i x s).bitpos = s.bitpos := rfl
@[simp] theorem storeTok_conpos : (storeTok i x s).conpos = s.conpos := rfl
@[simp] theorem storeTok_bitcnt : (storeTok i x s).bitcnt = s.bitcnt := rfl

end storeTok

section storeBit

variable (s : State) (i : Nat) (x : Bit)

@[simp] theorem storeBit_cfg : (storeBit i x s).cfg = s.cfg := rfl
@[simp] theorem storeBit_pending : (storeBit i x s).pending = s.pending := rfl
@[simp] theorem storeBit_reply : (storeBit i x s).reply = s.reply := rfl
@[simp] theorem storeBit_draw : (storeBit i x s).draw = s.draw := rfl
@[simp] theorem storeBit_cause : (storeBit i x s).cause = s.cause := rfl
@[simp] theorem storeBit_trunc : (storeBit i x s).trunc = s.trunc := rfl
@[simp] theorem storeBit_oor : (storeBit i x s).oor = s.oor := rfl
@[simp] theorem storeBit_txt : (storeBit i x s).txt = s.txt := rfl
@[simp] theorem storeBit_tok : (storeBit i x s).tok = s.tok := rfl
@[simp] theorem storeBit_bit : (storeBit i x s).bit = portStore s.cfg.bitCap i x s.bit := rfl
@[simp] theorem storeBit_pre : (storeBit i x s).pre = s.pre := rfl
@[simp] theorem storeBit_con : (storeBit i x s).con = s.con := rfl
@[simp] theorem storeBit_node : (storeBit i x s).node = s.node := rfl
@[simp] theorem storeBit_root : (storeBit i x s).root = s.root := rfl
@[simp] theorem storeBit_code : (storeBit i x s).code = s.code := rfl
@[simp] theorem storeBit_freq : (storeBit i x s).freq = s.freq := rfl
@[simp] theorem storeBit_pos : (storeBit i x s).pos = s.pos := rfl
@[simp] theorem storeBit_bitpos : (storeBit i x s).bitpos = s.bitpos := rfl
@[simp] theorem storeBit_conpos : (storeBit i x s).conpos = s.conpos := rfl
@[simp] theorem storeBit_bitcnt : (storeBit i x s).bitcnt = s.bitcnt := rfl

end storeBit

section storePre

variable (s : State) (i : Nat) (x : Byte)

@[simp] theorem storePre_cfg : (storePre i x s).cfg = s.cfg := rfl
@[simp] theorem storePre_pending : (storePre i x s).pending = s.pending := rfl
@[simp] theorem storePre_reply : (storePre i x s).reply = s.reply := rfl
@[simp] theorem storePre_draw : (storePre i x s).draw = s.draw := rfl
@[simp] theorem storePre_cause : (storePre i x s).cause = s.cause := rfl
@[simp] theorem storePre_trunc : (storePre i x s).trunc = s.trunc := rfl
@[simp] theorem storePre_oor : (storePre i x s).oor = s.oor := rfl
@[simp] theorem storePre_txt : (storePre i x s).txt = s.txt := rfl
@[simp] theorem storePre_tok : (storePre i x s).tok = s.tok := rfl
@[simp] theorem storePre_bit : (storePre i x s).bit = s.bit := rfl
@[simp] theorem storePre_pre : (storePre i x s).pre = portStore s.cfg.preCap i x s.pre := rfl
@[simp] theorem storePre_con : (storePre i x s).con = s.con := rfl
@[simp] theorem storePre_node : (storePre i x s).node = s.node := rfl
@[simp] theorem storePre_root : (storePre i x s).root = s.root := rfl
@[simp] theorem storePre_code : (storePre i x s).code = s.code := rfl
@[simp] theorem storePre_freq : (storePre i x s).freq = s.freq := rfl
@[simp] theorem storePre_pos : (storePre i x s).pos = s.pos := rfl
@[simp] theorem storePre_bitpos : (storePre i x s).bitpos = s.bitpos := rfl
@[simp] theorem storePre_conpos : (storePre i x s).conpos = s.conpos := rfl
@[simp] theorem storePre_bitcnt : (storePre i x s).bitcnt = s.bitcnt := rfl

end storePre

section storeCon

variable (s : State) (i : Nat) (x : Byte)

@[simp] theorem storeCon_cfg : (storeCon i x s).cfg = s.cfg := rfl
@[simp] theorem storeCon_pending : (storeCon i x s).pending = s.pending := rfl
@[simp] theorem storeCon_reply : (storeCon i x s).reply = s.reply := rfl
@[simp] theorem storeCon_draw : (storeCon i x s).draw = s.draw := rfl
@[simp] theorem storeCon_cause : (storeCon i x s).cause = s.cause := rfl
@[simp] theorem storeCon_trunc : (storeCon i x s).trunc = s.trunc := rfl
@[simp] theorem storeCon_oor : (storeCon i x s).oor = s.oor := rfl
@[simp] theorem storeCon_txt : (storeCon i x s).txt = s.txt := rfl
@[simp] theorem storeCon_tok : (storeCon i x s).tok = s.tok := rfl
@[simp] theorem storeCon_bit : (storeCon i x s).bit = s.bit := rfl
@[simp] theorem storeCon_pre : (storeCon i x s).pre = s.pre := rfl
@[simp] theorem storeCon_con : (storeCon i x s).con = portStore s.cfg.conCap i x s.con := rfl
@[simp] theorem storeCon_node : (storeCon i x s).node = s.node := rfl
@[simp] theorem storeCon_root : (storeCon i x s).root = s.root := rfl
@[simp] theorem storeCon_code : (storeCon i x s).code = s.code := rfl
@[simp] theorem storeCon_freq : (storeCon i x s).freq = s.freq := rfl
@[simp] theorem storeCon_pos : (storeCon i x s).pos = s.pos := rfl
@[simp] theorem storeCon_bitpos : (storeCon i x s).bitpos = s.bitpos := rfl
@[simp] theorem storeCon_conpos : (storeCon i x s).conpos = s.conpos := rfl
@[simp] theorem storeCon_bitcnt : (storeCon i x s).bitcnt = s.bitcnt := rfl

end storeCon

end Sys2Proof.Machine
end

