-- ==== Sys2Proof/Laws/Memory.lean ====
section
/-! SUPPORT. The canonical form of a buffer is kept by every operation on it, and what each operation does to an element. -/

namespace Sys2Proof.Machine

variable {α : Type} (free : Nat → Nat → α)

/-! ## Elements -/

theorem Buffer.elem_of_lt (b : Buffer α) {i : Nat} (h : i < b.valid.length) : b.elem free i = b.valid[i] := by
  simp [Buffer.elem, h]

theorem Buffer.elem_of_le (b : Buffer α) {i : Nat} (h : b.valid.length ≤ i) :
    b.elem free i = (b.spare.lookup i).getD (free b.seed i) := by
  simp [Buffer.elem, h]

theorem lookup_cons_if (j k : Nat) (y : α) (es : List (Nat × α)) :
    ((k, y) :: es).lookup j = if j = k then some y else es.lookup j := by
  by_cases h : j = k
  · simp [h]
  · have : (j == k) = false := by simpa using h
    simp [List.lookup_cons, this, h]

theorem lookup_storeSpare (i j : Nat) (x : α) (es : List (Nat × α)) :
    (storeSpare i x es).lookup j = if j = i then some x else es.lookup j := by
  induction es with
  | nil => rw [storeSpare, lookup_cons_if]
  | cons e es ih =>
    obtain ⟨k, y⟩ := e
    simp only [storeSpare]
    by_cases h1 : i < k
    · rw [if_pos h1, lookup_cons_if]
    · rw [if_neg h1]
      by_cases h2 : i = k
      · subst h2
        rw [if_pos rfl, lookup_cons_if, lookup_cons_if]
        split <;> rfl
      · rw [if_neg h2, lookup_cons_if, lookup_cons_if, ih]
        by_cases hk : j = k
        · subst hk; simp [Ne.symm h2]
        · simp [hk]

/-- A store changes the one element. -/
theorem Buffer.elem_store (b : Buffer α) (i j : Nat) (x : α) :
    (b.store i x).elem free j = if j = i then x else b.elem free j := by
  unfold Buffer.store
  split
  · rename_i h
    by_cases hj : j < b.valid.length
    · simp only [Buffer.elem, List.getElem?_set]
      by_cases hji : j = i
      · simp [hji, h]
      · simp [hji, Ne.symm hji]
    · have : j ≠ i := by omega
      simp [Buffer.elem, this, Nat.not_lt.mp hj]
  · rename_i h
    by_cases hj : j < b.valid.length
    · have : j ≠ i := by omega
      simp [Buffer.elem, hj, this]
    · simp only [Buffer.elem, List.getElem?_eq_none (Nat.not_lt.mp hj), lookup_storeSpare]
      by_cases hji : j = i <;> simp [hji]

theorem lookup_indexed (i j : Nat) (xs : List α) :
    (indexed i xs).lookup j = if i ≤ j then xs[j - i]? else none := by
  induction xs generalizing i with
  | nil => simp [indexed]
  | cons x xs ih =>
    rw [indexed, lookup_cons_if, ih]
    by_cases h : j = i
    · simp [h]
    · by_cases h2 : i ≤ j
      · obtain ⟨k, rfl⟩ : ∃ k, j = i + 1 + k := ⟨j - (i + 1), by omega⟩
        have h3 : i + 1 + k - i = k + 1 := by omega
        simp [h, h2, h3]
      · have h3 : ¬ i + 1 ≤ j := by omega
        simp [h, h2, h3]

theorem lookup_filter_ge (n j : Nat) (es : List (Nat × α)) (h : n ≤ j) :
    (es.filter fun e => n ≤ e.1).lookup j = es.lookup j := by
  induction es with
  | nil => rfl
  | cons e es ih =>
    obtain ⟨k, y⟩ := e
    rw [lookup_cons_if]
    by_cases hk : n ≤ k
    · rw [List.filter_cons_of_pos (by simpa using hk), lookup_cons_if, ih]
    · rw [List.filter_cons_of_neg (by simpa using hk), ih, if_neg (by omega)]

/-- A write of a length touches no element (10_state.md R37). -/
theorem Buffer.elem_resize (b : Buffer α) (n j : Nat) : (b.resize free n).elem free j = b.elem free j := by
  unfold Buffer.resize
  split
  · rename_i h
    by_cases hj : j < n
    · have h2 : j < b.valid.length := by omega
      simp [Buffer.elem, hj, h2]
    · have h1 : (b.valid.take n)[j]? = none := by simp; omega
      simp only [Buffer.elem, h1, List.lookup_append, lookup_indexed, Nat.not_lt.mp hj, if_true, List.getElem?_drop,
        Nat.add_sub_cancel' (Nat.not_lt.mp hj)]
      cases hv : b.valid[j]? <;> simp
  · rename_i h
    by_cases hj : j < b.valid.length
    · simp [Buffer.elem, List.getElem?_append, hj]
    · by_cases hn : j < n
      · have h2 : j - b.valid.length < n - b.valid.length := by omega
        have h3 : b.valid.length + (j - b.valid.length) = j := by omega
        simp [Buffer.elem, List.getElem?_append, hj, h2, h3]
      · have h4 : (b.valid ++ (List.range' b.valid.length (n - b.valid.length)).map (b.elem free))[j]? = none := by
          simp; omega
        have h5 : b.valid[j]? = none := by simp; omega
        simp only [Buffer.elem] at h4 ⊢
        rw [h4, h5, lookup_filter_ge n j b.spare (Nat.not_lt.mp hn)]

theorem Buffer.length_resize (b : Buffer α) (n : Nat) : (b.resize free n).valid.length = n := by
  unfold Buffer.resize
  split
  · simp; omega
  · simp; omega

/-! ## The canonical form -/

theorem Buffer.wf_fill {cap k : Nat} {xs : List α} (h : xs.length ≤ cap) : (Buffer.fill k xs).Wf cap := by
  simp [Buffer.fill, Buffer.Wf, h]

theorem mem_storeSpare {i : Nat} {x : α} {es : List (Nat × α)} {e : Nat × α} (h : e ∈ storeSpare i x es) :
    e = (i, x) ∨ e ∈ es := by
  induction es with
  | nil => simpa [storeSpare] using h
  | cons f es ih =>
    simp only [storeSpare] at h
    split at h
    · simpa using h
    · split at h
      · simp only [List.mem_cons] at h ⊢; tauto
      · simp only [List.mem_cons] at h ⊢
        rcases h with h | h
        · exact .inr (.inl h)
        · rcases ih h with h | h
          · exact .inl h
          · exact .inr (.inr h)

theorem pairwise_storeSpare {i : Nat} {x : α} {es : List (Nat × α)} (h : (es.map Prod.fst).Pairwise (· < ·)) :
    ((storeSpare i x es).map Prod.fst).Pairwise (· < ·) := by
  induction es with
  | nil => simp [storeSpare]
  | cons f es ih =>
    simp only [List.map_cons, List.pairwise_cons] at h
    simp only [storeSpare]
    split
    · rename_i hi
      simp only [List.map_cons, List.pairwise_cons, List.mem_cons]
      refine ⟨?_, h⟩
      rintro a (rfl | ha)
      · exact hi
      · exact lt_trans hi (h.1 a ha)
    · split
      · rename_i _ hi
        simp only [List.map_cons, List.pairwise_cons]
        exact ⟨hi ▸ h.1, h.2⟩
      · rename_i h1 h2
        simp only [List.map_cons, List.pairwise_cons]
        refine ⟨?_, ih h.2⟩
        intro a ha
        obtain ⟨e, he, rfl⟩ := List.mem_map.mp ha
        rcases mem_storeSpare he with rfl | he
        · simp; omega
        · exact h.1 _ (List.mem_map.mpr ⟨e, he, rfl⟩)

theorem Buffer.wf_portStore {cap i : Nat} {x : α} {b : Buffer α} (h : b.Wf cap) : (portStore cap i x b).Wf cap := by
  obtain ⟨h1, h2, h3⟩ := h
  unfold portStore
  split
  · rename_i hi
    unfold Buffer.store
    split
    · exact ⟨by simpa using h1, h2, by simpa using h3⟩
    · rename_i hl
      refine ⟨h1, pairwise_storeSpare h2, fun e he => ?_⟩
      rcases mem_storeSpare he with rfl | he
      · exact ⟨Nat.not_lt.mp hl, hi⟩
      · exact h3 e he
  · exact ⟨h1, h2, h3⟩

theorem mem_indexed {i : Nat} {xs : List α} {e : Nat × α} (h : e ∈ indexed i xs) : i ≤ e.1 ∧ e.1 < i + xs.length := by
  induction xs generalizing i with
  | nil => simp [indexed] at h
  | cons x xs ih =>
    simp only [indexed, List.mem_cons] at h
    rcases h with rfl | h
    · simp
    · have := ih h; simp only [List.length_cons]; omega

theorem pairwise_indexed (i : Nat) (xs : List α) : ((indexed i xs).map Prod.fst).Pairwise (· < ·) := by
  induction xs generalizing i with
  | nil => simp [indexed]
  | cons x xs ih =>
    simp only [indexed, List.map_cons, List.pairwise_cons]
    refine ⟨fun a ha => ?_, ih _⟩
    obtain ⟨e, he, rfl⟩ := List.mem_map.mp ha
    have := mem_indexed he; omega

theorem Buffer.wf_resize {cap n : Nat} {b : Buffer α} (h : b.Wf cap) (hn : n ≤ cap) : (b.resize free n).Wf cap := by
  refine ⟨by rw [Buffer.length_resize]; exact hn, ?_, ?_⟩
  · obtain ⟨h1, h2, h3⟩ := h
    unfold Buffer.resize
    split
    · simp only [List.map_append, List.pairwise_append]
      refine ⟨pairwise_indexed _ _, h2, fun a ha c hc => ?_⟩
      obtain ⟨e, he, rfl⟩ := List.mem_map.mp ha
      obtain ⟨f, hf, rfl⟩ := List.mem_map.mp hc
      have h4 := mem_indexed he
      have h5 := h3 f hf
      simp only [List.length_drop] at h4
      omega
    · exact h2.sublist (List.Sublist.map _ (List.filter_sublist))
  · rw [Buffer.length_resize]
    obtain ⟨h1, h2, h3⟩ := h
    unfold Buffer.resize
    split
    · intro e he
      rcases List.mem_append.mp he with he | he
      · have := mem_indexed he; simp only [List.length_drop] at this; omega
      · have := h3 e he; omega
    · intro e he
      obtain ⟨he, hn⟩ := List.mem_filter.mp he
      exact ⟨by simpa using hn, (h3 e he).2⟩

theorem Buffer.wf_lengthWrite {cap n : Nat} {b : Buffer α} (h : b.Wf cap) : (lengthWrite free cap n b).Wf cap := by
  unfold lengthWrite
  split
  · exact Buffer.wf_resize free h ‹_›
  · exact h

theorem Buffer.wf_unspecified {seed cap raw : Nat} {keep : List α} (h : keep.length ≤ cap) :
    (Buffer.unspecified free seed cap raw keep).Wf cap := by
  have hn : raw % (cap + 1) ≤ cap := Nat.lt_succ_iff.mp (Nat.mod_lt _ (Nat.succ_pos _))
  refine ⟨?_, pairwise_indexed _ _, fun e he => ?_⟩
  · simp [Buffer.unspecified, freeList]; omega
  · have := mem_indexed he
    simp only [List.length_drop] at this
    simp only [Buffer.unspecified, freeList, List.length_append, List.length_take, List.length_map, List.length_range']
    omega

/-- What a fault keeps of an appending command's buffer: the elements below the old length. -/
theorem Buffer.elem_unspecified {seed cap raw j : Nat} {keep : List α} (h : j < keep.length) :
    (Buffer.unspecified free seed cap raw keep).elem free j = keep[j] := by
  by_cases hj : j < raw % (cap + 1)
  · simp [Buffer.unspecified, Buffer.elem, List.getElem?_append, h, hj]
  · have h1 : (keep.take (raw % (cap + 1)) ++ freeList free seed keep.length (raw % (cap + 1) - keep.length))[j]? = none := by
      simp [freeList]; omega
    simp only [Buffer.unspecified, Buffer.elem, h1, lookup_indexed, Nat.not_lt.mp hj, if_true, List.getElem?_drop,
      Nat.add_sub_cancel' (Nat.not_lt.mp hj), List.getElem?_eq_getElem h, Option.getD_some]

/-- The memory of the reset state is in canonical form. -/
theorem wf_reset : Memory.wf State.reset := by simp [Memory.wf, Buffer.Wf, State.reset]

/-- A fault keeps the canonical form: every unit it makes unspecified, a length up to the capacity. -/
theorem wf_scramble {k : Nat} {s : State} (r : Res) (h : Memory.wf s) : Memory.wf (scramble k s r) := by
  obtain ⟨h1, h2, h3, h4, h5⟩ := h
  cases r
  case txt => exact ⟨Buffer.wf_unspecified _ (by simp), h2, h3, h4, h5⟩
  case tok => exact ⟨h1, Buffer.wf_unspecified _ (by simp), h3, h4, h5⟩
  case tokTail => exact ⟨h1, Buffer.wf_unspecified _ h2.1, h3, h4, h5⟩
  case bit => exact ⟨h1, h2, Buffer.wf_unspecified _ (by simp), h4, h5⟩
  case bitTail => exact ⟨h1, h2, Buffer.wf_unspecified _ h3.1, h4, h5⟩
  case pre => exact ⟨h1, h2, h3, Buffer.wf_unspecified _ (by simp), h5⟩
  case con => exact ⟨h1, h2, h3, h4, Buffer.wf_unspecified _ (by simp)⟩
  case conTail => exact ⟨h1, h2, h3, h4, Buffer.wf_unspecified _ h5.1⟩
  all_goals exact ⟨h1, h2, h3, h4, h5⟩

theorem wf_foldl_scramble {k : Nat} (rs : List Res) {s : State} (h : Memory.wf s) :
    Memory.wf (rs.foldl (scramble k) s) := by
  induction rs generalizing s with
  | nil => exact h
  | cons r rs ih => exact ih (wf_scramble r h)

theorem wf_takeFault {rs : List Res} {c : Cause} {s : State} (h : Memory.wf s) : Memory.wf (takeFault rs c s) :=
  wf_foldl_scramble rs h

theorem wf_clearAll {s : State} (h : Memory.wf s) : Memory.wf (clearAll s) :=
  ⟨Buffer.wf_resize _ h.1 (Nat.zero_le _), Buffer.wf_resize _ h.2.1 (Nat.zero_le _),
    Buffer.wf_resize _ h.2.2.1 (Nat.zero_le _), Buffer.wf_resize _ h.2.2.2.1 (Nat.zero_le _),
    Buffer.wf_resize _ h.2.2.2.2 (Nat.zero_le _)⟩

theorem wf_resetEvent (s : State) : Memory.wf (resetEvent s) := by
  refine ⟨?_, ?_, ?_, ?_, ?_⟩ <;> exact Buffer.wf_fill (Nat.zero_le _)

/-- The host's writes keep the canonical form. -/
theorem wf_regWrite {n : Nat} {v : Word} {s : State} (h : Memory.wf s) : Memory.wf (regWrite n v s) := by
  obtain ⟨h1, h2, h3, h4, h5⟩ := h
  unfold regWrite
  split
  · exact ⟨Buffer.wf_lengthWrite _ h1, h2, h3, h4, h5⟩
  · exact ⟨h1, Buffer.wf_lengthWrite _ h2, h3, h4, h5⟩
  · exact ⟨h1, h2, Buffer.wf_lengthWrite _ h3, h4, h5⟩
  · exact ⟨h1, h2, h3, Buffer.wf_lengthWrite _ h4, h5⟩
  · exact ⟨h1, h2, h3, h4, Buffer.wf_lengthWrite _ h5⟩
  all_goals exact ⟨h1, h2, h3, h4, h5⟩

theorem wf_bufWrite {sp : Space} {i v : Nat} {s : State} (h : Memory.wf s) : Memory.wf (bufWrite sp i v s) := by
  obtain ⟨h1, h2, h3, h4, h5⟩ := h
  cases sp
  case txt => exact ⟨Buffer.wf_portStore h1, h2, h3, h4, h5⟩
  case tok => exact ⟨h1, Buffer.wf_portStore h2, h3, h4, h5⟩
  case bit => exact ⟨h1, h2, Buffer.wf_portStore h3, h4, h5⟩
  case pre => exact ⟨h1, h2, h3, Buffer.wf_portStore h4, h5⟩
  case con => exact ⟨h1, h2, h3, h4, Buffer.wf_portStore h5⟩
  all_goals exact ⟨h1, h2, h3, h4, h5⟩

theorem wf_storeBytes {y : List Byte} {i : Nat} {s : State} (h : Memory.wf s) : Memory.wf (storeBytes i y s) := by
  induction y generalizing i s with
  | nil => exact h
  | cons x y ih => exact ih ⟨h.1, h.2.1, h.2.2.1, h.2.2.2.1, Buffer.wf_portStore h.2.2.2.2⟩

theorem wf_presentRec {r : Rec} {s : State} (h : Memory.wf s) : Memory.wf (presentRec r s) :=
  ⟨h.1, Buffer.wf_lengthWrite _ (Buffer.wf_portStore h.2.1), h.2.2⟩

theorem wf_presentBytes {y : List Byte} {s : State} (h : Memory.wf s) : Memory.wf (presentBytes y s) :=
  have h' := wf_storeBytes (y := y) (i := s.con.valid.length) h
  ⟨h'.1, h'.2.1, h'.2.2.1, h'.2.2.2.1, Buffer.wf_lengthWrite _ h'.2.2.2.2⟩

theorem wf_loadCon {y : List Byte} {s : State} (h : Memory.wf s) : Memory.wf (loadCon y s) :=
  have h' := wf_storeBytes (y := y) (i := 0) h
  ⟨h'.1, h'.2.1, h'.2.2.1, h'.2.2.2.1, Buffer.wf_lengthWrite _ h'.2.2.2.2⟩

end Sys2Proof.Machine
end

