-- ==== Sys2Proof/Laws/Ops.lean ====
section
/-! SUPPORT. What each shared operation of the machine can do, said once. -/

namespace Sys2Proof.Machine

/-! ## Running a command -/

/-- A command whose body succeeds, no fault being recorded. -/
theorem runCommand_of_ok {ws : List Res} {body : State → Except Stop State} {s t : State} (hc : s.cause = none)
    (h : body s = .ok t) : runCommand ws body s = .next t := by
  simp [runCommand, hc, h]

/-- A command whose body raises a fault, none being recorded. -/
theorem runCommand_of_raise {ws : List Res} {body : State → Except Stop State} {s : State} {c : Cause}
    (hc : s.cause = none) (h : body s = .error (.raise c)) : runCommand ws body s = .next (takeFault ws c s) := by
  simp [runCommand, hc, h]

/-- A recorded fault refuses the command (60_exceptions.md R302). -/
theorem runCommand_of_isSome {ws : List Res} {body : State → Except Stop State} {s : State}
    (hc : s.cause.isSome = true) : runCommand ws body s = .next s := by
  simp [runCommand, hc]

/-- Everything a command can do when it answers a next state. -/
theorem runCommand_next {ws : List Res} {body : State → Except Stop State} {s t : State}
    (h : runCommand ws body s = .next t) :
    (s.cause.isSome = true ∧ t = s) ∨ (s.cause = none ∧ body s = .ok t) ∨
      (s.cause = none ∧ ∃ c, body s = .error (.raise c) ∧ t = takeFault ws c s) := by
  unfold runCommand at h
  split at h
  · exact .inl ⟨‹_›, by simpa using h.symm⟩
  · rename_i hc
    have hc : s.cause = none := by simpa using hc
    split at h
    · rename_i t' hb
      exact .inr (.inl ⟨hc, by rw [hb]; simpa using h⟩)
    · rename_i c hb
      exact .inr (.inr ⟨hc, c, hb, by simpa using h.symm⟩)
    · exact absurd h (by simp)

/-- A command stops for good only when its body is stuck. -/
theorem runCommand_fault {ws : List Res} {body : State → Except Stop State} {s : State} {f : Fault}
    (h : runCommand ws body s = .fault f) : s.cause = none ∧ body s = .error (.stuck f) := by
  unfold runCommand at h
  split at h
  · exact absurd h (by simp)
  · rename_i hc
    split at h
    · exact absurd h (by simp)
    · exact absurd h (by simp)
    · rename_i f' hb
      have hf : f' = f := by injection h
      exact ⟨by simpa using hc, hf ▸ hb⟩

/-! ## Taking a fault -/

theorem scramble_cfg (k : Nat) (s : State) (r : Res) : (scramble k s r).cfg = s.cfg := by cases r <;> rfl
theorem scramble_pending (k : Nat) (s : State) (r : Res) : (scramble k s r).pending = s.pending := by cases r <;> rfl
theorem scramble_reply (k : Nat) (s : State) (r : Res) : (scramble k s r).reply = s.reply := by cases r <;> rfl

theorem foldl_scramble_cfg (k : Nat) (rs : List Res) (s : State) : (rs.foldl (scramble k) s).cfg = s.cfg := by
  induction rs generalizing s with
  | nil => rfl
  | cons r rs ih => exact (ih _).trans (scramble_cfg k s r)

theorem foldl_scramble_pending (k : Nat) (rs : List Res) (s : State) :
    (rs.foldl (scramble k) s).pending = s.pending := by
  induction rs generalizing s with
  | nil => rfl
  | cons r rs ih => exact (ih _).trans (scramble_pending k s r)

theorem foldl_scramble_reply (k : Nat) (rs : List Res) (s : State) : (rs.foldl (scramble k) s).reply = s.reply := by
  induction rs generalizing s with
  | nil => rfl
  | cons r rs ih => exact (ih _).trans (scramble_reply k s r)

@[simp] theorem takeFault_cause (ws : List Res) (c : Cause) (s : State) : (takeFault ws c s).cause = some c := rfl
@[simp] theorem takeFault_cfg (ws : List Res) (c : Cause) (s : State) : (takeFault ws c s).cfg = s.cfg :=
  foldl_scramble_cfg _ ws s
@[simp] theorem takeFault_pending (ws : List Res) (c : Cause) (s : State) : (takeFault ws c s).pending = s.pending :=
  foldl_scramble_pending _ ws s
@[simp] theorem takeFault_reply (ws : List Res) (c : Cause) (s : State) : (takeFault ws c s).reply = s.reply :=
  foldl_scramble_reply _ ws s

/-! ## Appending -/

theorem appended_ok {α : Type} {cap : Nat} {c : Cause} {xs ys zs : List α} (h : appended cap c xs ys = .ok zs) :
    zs = xs ++ ys ∧ zs.length ≤ cap := by
  unfold appended at h
  split at h
  · rename_i hl
    simp only [Except.ok.injEq] at h
    subst h; simpa using hl
  · simp [raise] at h

theorem appended_of_le {α : Type} {cap : Nat} {c : Cause} {xs ys : List α} (h : xs.length + ys.length ≤ cap) :
    appended cap c xs ys = .ok (xs ++ ys) := if_pos h

theorem appended_of_lt {α : Type} {cap : Nat} {c : Cause} {xs ys : List α} (h : cap < xs.length + ys.length) :
    appended cap c xs ys = .error (.raise c) := if_neg (Nat.not_le.mpr h)

/-- `append(TOK, r)`, when it succeeds. -/
theorem appendTok_ok {r : Rec} {s t : State} (h : appendTok r s = .ok t) :
    t = setTok (s.tok.valid ++ [r]) s ∧ s.tok.valid.length + 1 ≤ s.cfg.tokCap := by
  unfold appendTok at h
  split at h
  · rename_i xs hx
    obtain ⟨rfl, hl⟩ := appended_ok hx
    simp only [Except.ok.injEq] at h
    exact ⟨h.symm, by simpa using hl⟩
  · simp at h

theorem appendTok_of_lt {r : Rec} {s : State} (h : s.tok.valid.length < s.cfg.tokCap) :
    appendTok r s = .ok (setTok (s.tok.valid ++ [r]) s) := by
  simp [appendTok, appended_of_le (c := .capTok) (xs := s.tok.valid) (ys := [r]) (by simpa using h)]

theorem appendTok_of_le {r : Rec} {s : State} (h : s.cfg.tokCap ≤ s.tok.valid.length) :
    appendTok r s = .error (.raise .capTok) := by
  simp [appendTok, appended_of_lt (c := .capTok) (xs := s.tok.valid) (ys := [r]) (by simpa using Nat.lt_succ_of_le h)]

/-- The bits of one record appended to BIT, when there is room. -/
theorem appendBit_ok {q : List Bit} {s t : State} (h : appendBit q s = .ok t) :
    t = setBit (s.bit.valid ++ q) s ∧ s.bit.valid.length + q.length ≤ s.cfg.bitCap := by
  unfold appendBit at h
  split at h
  · rename_i xs hx
    obtain ⟨rfl, hl⟩ := appended_ok hx
    simp only [Except.ok.injEq] at h
    exact ⟨h.symm, by simpa using hl⟩
  · simp at h

theorem appendBit_of_le {q : List Bit} {s : State} (h : s.bit.valid.length + q.length ≤ s.cfg.bitCap) :
    appendBit q s = .ok (setBit (s.bit.valid ++ q) s) := by
  simp [appendBit, appended_of_le (c := .capBit) h]

theorem appendBit_of_lt {q : List Bit} {s : State} (h : s.cfg.bitCap < s.bit.valid.length + q.length) :
    appendBit q s = .error (.raise .capBit) := by
  simp [appendBit, appended_of_lt (c := .capBit) h]

/-- Bytes appended to CON, when there is room. -/
theorem appendCon_ok {y : List Byte} {s t : State} (h : appendCon y s = .ok t) :
    t = setCon (s.con.valid ++ y) s ∧ s.con.valid.length + y.length ≤ s.cfg.conCap := by
  unfold appendCon at h
  split at h
  · rename_i xs hx
    obtain ⟨rfl, hl⟩ := appended_ok hx
    simp only [Except.ok.injEq] at h
    exact ⟨h.symm, by simpa using hl⟩
  · simp at h

theorem appendCon_of_le {y : List Byte} {s : State} (h : s.con.valid.length + y.length ≤ s.cfg.conCap) :
    appendCon y s = .ok (setCon (s.con.valid ++ y) s) := by
  simp [appendCon, appended_of_le (c := .capCon) h]

theorem appendCon_of_lt {y : List Byte} {s : State} (h : s.cfg.conCap < s.con.valid.length + y.length) :
    appendCon y s = .error (.raise .capCon) := by
  simp [appendCon, appended_of_lt (c := .capCon) h]

/-! ## Operands -/

theorem tokOperand_ok {idx : Nat} {s : State} {r : Rec} (h : s.tok.valid[idx]? = some r) :
    tokOperand idx s = .ok r := by
  simp [tokOperand, h]

theorem tokOperand_raise {idx : Nat} {s : State} (h : s.tok.valid.length ≤ idx) :
    tokOperand idx s = .error (.raise .tokIndex) := by
  simp [tokOperand, List.getElem?_eq_none h, raise]

theorem posOperand_ok {s : State} (h : s.pos.toNat < s.txt.valid.length) : posOperand s = .ok s.pos.toNat := if_pos h

theorem posOperand_raise {s : State} (h : s.txt.valid.length ≤ s.pos.toNat) :
    posOperand s = .error (.raise .txtPos) := if_neg (Nat.not_lt.mpr h)

theorem bitposOperand_ok {s : State} (h : s.bitpos.toNat < s.bit.valid.length) :
    bitposOperand s = .ok s.bitpos.toNat := if_pos h

theorem bitposOperand_raise {s : State} (h : s.bit.valid.length ≤ s.bitpos.toNat) :
    bitposOperand s = .error (.raise .bitPos) := if_neg (Nat.not_lt.mpr h)

/-! ## Tables -/

@[simp] theorem tableAt_tableOf {α : Type} (f : Nat → α) (v : Byte) : tableAt (tableOf f) v = f v.toNat := by
  simp [tableAt, tableOf]

theorem tableAt_tableSet {α : Type} (t : Vector α 256) (v w : Byte) (x : α) :
    tableAt (tableSet t v x) w = if w = v then x else tableAt t w := by
  simp only [tableAt, tableSet, Vector.getElem_set]
  by_cases h : w = v
  · simp [h]
  · have : ¬ v.toNat = w.toNat := fun h' => h (BitVec.eq_of_toNat_eq h'.symm)
    simp [h, this]

/-! ## Presenting a datum -/

theorem presentRec_valid {r : Rec} {s : State} :
    (presentRec r s).tok.valid =
      if s.tok.valid.length < s.cfg.tokCap then s.tok.valid ++ [r] else s.tok.valid := by
  unfold presentRec
  simp only [writeTokLen_tok, storeTok_cfg, storeTok_tok]
  split
  · rename_i h
    have hl : ((portStore s.cfg.tokCap s.tok.valid.length r s.tok).valid) = s.tok.valid := by
      simp [portStore, h, Buffer.store]
    rw [lengthWrite, if_pos (Nat.succ_le_of_lt h), Buffer.resize, hl, if_neg (by omega)]
    have hs := Buffer.elem_store Config.freeRec s.tok s.tok.valid.length s.tok.valid.length r
    simp only [if_true] at hs
    simp [portStore, h, hs]
  · rename_i h
    simp [portStore, h, lengthWrite]

/-- The valid elements are the elements below the length. -/
theorem Buffer.valid_eq {α : Type} (free : Nat → Nat → α) (b : Buffer α) :
    b.valid = (List.range b.valid.length).map (b.elem free) := by
  apply List.ext_getElem (by simp)
  intro i h1 h2
  simp [Buffer.elem_of_lt free b h1]

theorem Buffer.length_portStore {α : Type} (cap i : Nat) (x : α) (b : Buffer α) :
    (portStore cap i x b).valid.length = b.valid.length := by
  unfold portStore Buffer.store
  split
  · split <;> simp
  · rfl

theorem storeBytes_cfg (i : Nat) (y : List Byte) (s : State) : (storeBytes i y s).cfg = s.cfg := by
  induction y generalizing i s with
  | nil => rfl
  | cons x y ih => exact ih _ _

theorem storeBytes_length (i : Nat) (y : List Byte) (s : State) :
    (storeBytes i y s).con.valid.length = s.con.valid.length := by
  induction y generalizing i s with
  | nil => rfl
  | cons x y ih => exact (ih _ _).trans (Buffer.length_portStore _ _ _ _)

/-- Bytes stored below the capacity stand where they were stored, and every other element is as before. -/
theorem storeBytes_elem {i : Nat} {y : List Byte} {s : State} (h : i + y.length ≤ s.cfg.conCap) (j : Nat) :
    (storeBytes i y s).con.elem Config.freeCon j =
      if i ≤ j ∧ j < i + y.length then y[j - i]?.getD 0 else s.con.elem Config.freeCon j := by
  induction y generalizing i s with
  | nil => rw [if_neg (by simp)]; rfl
  | cons x y ih =>
    simp only [List.length_cons] at h ⊢
    have hs : (storeCon i x s).con.elem Config.freeCon j = if j = i then x else s.con.elem Config.freeCon j := by
      rw [storeCon_con, portStore, if_pos (by omega), Buffer.elem_store]
    rw [storeBytes, ih (by simp; omega), hs]
    by_cases h1 : i + 1 ≤ j ∧ j < i + 1 + y.length
    · obtain ⟨k, rfl⟩ : ∃ k, j = i + 1 + k := ⟨j - (i + 1), by omega⟩
      have h2 : i + 1 + k - i = k + 1 := by omega
      rw [if_pos h1, if_pos (by omega), h2]; simp
    · rw [if_neg h1]
      by_cases h3 : j = i
      · subst h3; simp
      · rw [if_neg h3, if_neg (by omega)]

theorem presentBytes_valid {y : List Byte} {s : State} (h : s.con.valid.length + y.length ≤ s.cfg.conCap) :
    (presentBytes y s).con.valid = s.con.valid ++ y := by
  have hl : (presentBytes y s).con.valid.length = s.con.valid.length + y.length := by
    simp [presentBytes, lengthWrite, storeBytes_cfg, h, Buffer.length_resize]
  rw [Buffer.valid_eq Config.freeCon, hl]
  apply List.ext_getElem (by simp)
  intro j h1 h2
  simp only [presentBytes, writeConLen_con, storeBytes_cfg, lengthWrite, if_pos h, List.getElem_map, List.getElem_range,
    Buffer.elem_resize, storeBytes_elem h]
  by_cases hj : j < s.con.valid.length
  · rw [if_neg (by omega), Buffer.elem_of_lt _ _ hj, List.getElem_append_left hj]
  · have hj2 : j < s.con.valid.length + y.length := by simpa using h1
    rw [if_pos (by omega), List.getElem_append_right (by omega), List.getElem?_eq_getElem (by omega), Option.getD_some]

theorem presentBytes_full {y : List Byte} {s : State} (h : s.cfg.conCap < s.con.valid.length + y.length) :
    (presentBytes y s).con.valid.length = s.con.valid.length := by
  simp [presentBytes, lengthWrite, storeBytes_cfg, Nat.not_le.mpr h, storeBytes_length]

theorem loadCon_valid {y : List Byte} {s : State} (h : y.length ≤ s.cfg.conCap) : (loadCon y s).con.valid = y := by
  have hl : (loadCon y s).con.valid.length = y.length := by
    simp [loadCon, lengthWrite, storeBytes_cfg, h, Buffer.length_resize]
  rw [Buffer.valid_eq Config.freeCon, hl]
  apply List.ext_getElem (by simp)
  intro j h1 h2
  simp only [loadCon, writeConLen_con, storeBytes_cfg, lengthWrite, if_pos h, List.getElem_map, List.getElem_range,
    Buffer.elem_resize, storeBytes_elem (i := 0) (y := y) (s := s) (by simpa using h)]
  have hj : j < y.length := by simpa using h1
  rw [if_pos (by omega)]; simp [hj]

end Sys2Proof.Machine
end

