-- ==== Sys2Proof/Laws/PerInstr.lean ====
section
/-! SUPPORT. Statements made per instruction: one lemma per constructor of `Instr`. -/

namespace Sys2Proof.Laws

/-- How many bytes an instruction has (30_encoding.md R94 for a command word, R97 for a record, R101 for a tree node, R108
for a container: a tree of 2 bytes at least and 4 bytes of bit count). -/
def EncodedLength.Statement (i : Instr) : Prop :=
  match i.source with
  | .command => (encode i).length = 4
  | .record => (encode i).length = 6 ∨ (encode i).length = 8
  | .treeNode => (encode i).length = 1 ∨ (encode i).length = 2
  | .container => (encode i).length = 0 ∨ 6 ≤ (encode i).length

theorem EncodedLength.clr : EncodedLength.Statement .clr := Machine.length_leBytes 4 _

theorem EncodedLength.find : EncodedLength.Statement .find := Machine.length_leBytes 4 _

theorem EncodedLength.tokenize : EncodedLength.Statement .tokenize := Machine.length_leBytes 4 _

theorem EncodedLength.tenc (arg : BitVec 24) : EncodedLength.Statement (.tenc arg) := Machine.length_leBytes 4 _

theorem EncodedLength.tdec : EncodedLength.Statement .tdec := Machine.length_leBytes 4 _

theorem EncodedLength.b2y : EncodedLength.Statement .b2y := Machine.length_leBytes 4 _

theorem EncodedLength.y2b : EncodedLength.Statement .y2b := Machine.length_leBytes 4 _

theorem EncodedLength.pack : EncodedLength.Statement .pack := Machine.length_leBytes 4 _

theorem EncodedLength.unpack : EncodedLength.Statement .unpack := Machine.length_leBytes 4 _

theorem EncodedLength.replay : EncodedLength.Statement .replay := Machine.length_leBytes 4 _

theorem EncodedLength.hbuild : EncodedLength.Statement .hbuild := Machine.length_leBytes 4 _

theorem EncodedLength.ctab : EncodedLength.Statement .ctab := Machine.length_leBytes 4 _

theorem EncodedLength.tser : EncodedLength.Statement .tser := Machine.length_leBytes 4 _

theorem EncodedLength.tdes : EncodedLength.Statement .tdes := Machine.length_leBytes 4 _

theorem EncodedLength.epack : EncodedLength.Statement .epack := Machine.length_leBytes 4 _

theorem EncodedLength.eunpack : EncodedLength.Statement .eunpack := Machine.length_leBytes 4 _

theorem EncodedLength.compress : EncodedLength.Statement .compress := Machine.length_leBytes 4 _

theorem EncodedLength.decompress : EncodedLength.Statement .decompress := Machine.length_leBytes 4 _

theorem EncodedLength.recSimple (d l : U16) (b : Byte) : EncodedLength.Statement (.recSimple d l b) :=
  .inl (by simp [encode, Machine.length_encRec, Machine.recWidth, Machine.symExt, Machine.ceil8])

theorem EncodedLength.recExtended (d l : U16) (b0 b1 b2 : Byte) :
    EncodedLength.Statement (.recExtended d l b0 b1 b2) :=
  .inr (by simp [encode, Machine.length_encRec, Machine.recWidth, Machine.symExt, Machine.ceil8])

theorem EncodedLength.treeLeaf (v : Byte) : EncodedLength.Statement (.treeLeaf v) := .inr rfl

theorem EncodedLength.treeInternal : EncodedLength.Statement .treeInternal := .inl rfl

theorem EncodedLength.container (c : Container) : EncodedLength.Statement (.container c) := by
  cases c with
  | empty => exact .inl rfl
  | coded t b y =>
    have h : 2 ≤ (Machine.serTree t).length := by
      induction t with
      | leaf v => simp [Machine.serTree]
      | node l r ihl ihr => simp [Machine.serTree]; omega
    exact .inr (by simp [encode, Machine.containerBytes, Machine.be32]; omega)

end Sys2Proof.Laws
end

