-- ==== Sys2Proof/Tests/Slice0.lean ====
section
/-! SUPPORT. The model's own tests: decoding of words written out from the spec's encodings, the vectors of
spec/95_test_vectors.md (the expected values are that file's), and a witness for the hypotheses of every statement. -/

namespace Sys2Proof.Tests

open Machine Safety

/-! ## Small states -/

/-- `WINDOW_SIZE = 4096`, `MAX_MATCH = 255`, capacities large enough for the vectors. -/
def params : Params := ⟨4096, 255, 65536, 1000, 4096, 1000, 4096⟩

/-- The state after reset of an engine with these parameters. -/
def fresh (c : Params) : State := { State.reset with cfg := c }
def base : State := fresh params
def withTxt (x : List Sym) (s : State) : State := { s with txt := ⟨x, [], 0⟩ }
def withTok (x : List Rec) (s : State) : State := { s with tok := ⟨x, [], 0⟩ }
def withBit (x : List Bit) (s : State) : State := { s with bit := ⟨x, [], 0⟩ }
def withPre (x : List Byte) (s : State) : State := { s with pre := ⟨x, [], 0⟩ }
def withCon (x : List Byte) (s : State) : State := { s with con := ⟨x, [], 0⟩ }
def withNode (x : List Node) (r : Word) (s : State) : State := { s with node := x, root := r }
def withOps (x : List HostOp) (s : State) : State := { s with pending := x }

/-- The write of a command word, as one step. -/
def cmd (w : Word) (s : State) : Host.Outcome State Fault Refusal := step (withOps [.regWrite 0 w] s)

/-- What `f` reads in the next state. -/
def next {α : Type} (f : State → α) (o : Host.Outcome State Fault Refusal) : Option α :=
  match o with
  | .next t => some (f t)
  | _ => none

/-- `STATUS` and `FINFO`. -/
def status (s : State) : Word × Word := (regRead s 1, regRead s 2)

/-- `FAULT` and `FINFO` alone: after a fault of a command that lists a flag under "Writes", that flag in `STATUS` is
unspecified (R297), so the whole-register values of V59, V117 and V203 are not what the rule gives. -/
def fault (s : State) : Nat × Word := (faultField s, finfoWord s)

/-- A simple symbol, and the texts `AB...`. -/
def sym (b : Byte) : Sym := .simple b
def abababab : List Sym := [0x41, 0x42, 0x41, 0x42, 0x41, 0x42, 0x41, 0x42].map sym
def eur : Sym := .extended 0xE2 0x82 0xAC
def recA : Rec := ⟨0, 0, sym 0x41⟩
def recB : Rec := ⟨1, 1, sym 0x42⟩

/-- The tree of V126, and that of V134. -/
def nodes126 : List Node := [.leaf 1 0x10, .leaf 1 0x20, .internal 2 0 1]
def nodes134 : List Node := [.internal 0 1 2, .leaf 0 0x41, .leaf 0 0x41]
def tree126 : Tree := .node (.leaf 0x10) (.leaf 0x20)
def tree125 : Tree := .node (.leaf 0x03) (.node (.leaf 0x01) (.leaf 0x02))

/-! ## Well-formedness: an ill-formed term for each check of R114 -/

theorem test_wellFormed_accepts :
    (Instr.container (.coded (.node (.leaf 0x10) (.leaf 0x20)) 2 [0x40])).wellFormed = true ∧
      (Instr.container .empty).wellFormed = true ∧ (Instr.tenc 0xFFFFFF).wellFormed = true := by decide

/-- One payload byte where nine bits ask for two (V187). -/
theorem test_wellFormed_payload_short :
    (Instr.container (.coded (.leaf 0x41) 9 [0x00])).wellFormed = false := by decide

/-- A left-leaning chain of `n` internal nodes. -/
def chain : Nat → Tree
  | 0 => .leaf 0
  | n + 1 => .node (chain n) (.leaf 0)

/-- 513 nodes do not fit the arena. -/
theorem test_wellFormed_tree_too_large :
    (Instr.container (.coded (chain 256) 0 [])).wellFormed = false := by decide +kernel

/-- A walk that ends inside a code (V189), and a 1 bit under a root that is a leaf (V188). -/
theorem test_wellFormed_walk :
    (Instr.container (.coded tree125 1 [0x80])).wellFormed = false ∧
      (Instr.container (.coded (.leaf 0x41) 5 [0x80])).wellFormed = false := by decide

/-! ## Decoding: words written out from 30_encoding.md -/

/-- R92: format `N`, bits 31 to 8 zero, the opcode in bits 7 to 0. -/
theorem test_decode_commands :
    decodeTableWord 32 0b00000000000000000000000000000001 = some .clr ∧
    decodeTableWord 32 0b00000000000000000000000000010000 = some .find ∧
    decodeTableWord 32 0b00000000000000000000000000010001 = some .tokenize ∧
    decodeTableWord 32 0b00000000000000000000000000100001 = some .tdec ∧
    decodeTableWord 32 0b00000000000000000000000000100010 = some .b2y ∧
    decodeTableWord 32 0b00000000000000000000000000100011 = some .y2b ∧
    decodeTableWord 32 0b00000000000000000000000000100100 = some .pack ∧
    decodeTableWord 32 0b00000000000000000000000000100101 = some .unpack ∧
    decodeTableWord 32 0b00000000000000000000000000101000 = some .replay ∧
    decodeTableWord 32 0b00000000000000000000000000110000 = some .hbuild ∧
    decodeTableWord 32 0b00000000000000000000000000110001 = some .ctab ∧
    decodeTableWord 32 0b00000000000000000000000000110010 = some .tser ∧
    decodeTableWord 32 0b00000000000000000000000000110011 = some .tdes ∧
    decodeTableWord 32 0b00000000000000000000000000110100 = some .epack ∧
    decodeTableWord 32 0b00000000000000000000000000110101 = some .eunpack ∧
    decodeTableWord 32 0b00000000000000000000000001000000 = some .compress ∧
    decodeTableWord 32 0b00000000000000000000000001000001 = some .decompress := by decide

/-- R91: format `I`, the index in bits 31 to 8 (V49, V49c). -/
theorem test_decode_tenc :
    decodeTableWord 32 0b00000000000000000000000100100000 = some (.tenc 1) ∧
    decodeTableWord 32 0xFFFFFF20 = some (.tenc 0xFFFFFF) := by decide

/-- R97: the leftmost bits are the last on the wire: literal 0x41, flag 0, run length 3, distance 2; and literal bytes
0xAC 0x82 0xE2 from the left, flag 1 (V44). -/
theorem test_decode_records :
    decodeTableWord 41 0b01000001000000000000000110000000000000010 = some (.recSimple 2 3 0x41) ∧
    decodeTableWord 57 0b101011001000001011100010111111111111111111111111111111111 =
      some (.recExtended 0xFFFF 0xFFFF 0xE2 0x82 0xAC) := by decide

/-- The bytes of V43, V44 and V45 (`bytes_lsb(enc(r))`). -/
theorem test_decode_record_bytes :
    decode .record [0x34, 0x12, 0xCD, 0xAB, 0xFE, 0x01] = .ok (.recSimple 0x1234 0xABCD 0xFF) ∧
    decode .record [0xFF, 0xFF, 0xFF, 0xFF, 0xC5, 0x05, 0x59, 0x01] =
      .ok (.recExtended 0xFFFF 0xFFFF 0xE2 0x82 0xAC) ∧
    encode (.recExtended 1 2 0x01 0x02 0x03) = [0x01, 0x00, 0x02, 0x00, 0x03, 0x04, 0x06, 0x00] := by decide

/-- R101: the marker, then the value; and a marker that is none (R102). -/
theorem test_decode_tree_nodes :
    decodeTableWord 16 0b0000000101000001 = some (.treeLeaf 0x41) ∧ decodeTableWord 8 0b00000000 = some .treeInternal ∧
    decode .treeNode [0x02, 0x41] = .error .badMarker ∧ decode .treeNode [0x01] = .error .badLength := by decide

/-- R108, R112, R113: V167, the empty container, V161; and V186, V187, V188, V189, which are none (R114). -/
theorem test_decode_containers :
    decode .container [0x00, 0x01, 0x10, 0x01, 0x20, 0x00, 0x00, 0x00, 0x02, 0x40] =
      .ok (.container (.coded tree126 2 [0x40])) ∧
    decode .container [] = .ok (.container .empty) ∧
    decode .container [0x01, 0x41, 0x00, 0x00, 0x00, 0x05, 0x00] = .ok (.container (.coded (.leaf 0x41) 5 [0x00])) ∧
    decode .container [0x01, 0x41, 0x00, 0x00, 0x00] = .error .headerTruncated ∧
    decode .container [0x01, 0x41, 0x00, 0x00, 0x00, 0x09, 0x00] = .error .payloadTruncated ∧
    decode .container [0x01, 0x41, 0x00, 0x00, 0x00, 0x05, 0x80] = .error (.badPayload .oneBit) ∧
    decode .container [0x00, 0x01, 0x03, 0x00, 0x01, 0x01, 0x01, 0x02, 0x00, 0x00, 0x00, 0x01, 0x80] =
      .error (.badPayload .partialCode) := by decide +kernel

/-- V210 to V216: words that spell no command, and `STATUS`, `FINFO` after them. -/
theorem test_illegal_words :
    [0x00000000, 0x00000002, 0x00000026, 0x00000042, 0x000000FF, 0x00000100].map
        (fun w => next status (cmd w base)) = List.replicate 6 (some (0x100, 1)) ∧
    [0x00000110, 0x00000140, 0x01000001].map (fun w => next status (cmd w base)) =
      List.replicate 3 (some (0x100, 2)) := by decide

/-! ## Vectors -/

/-- V20, V25. -/
theorem test_find :
    next (fun t => (t.tok.valid, t.pos)) (cmd 0x10 { withTxt abababab base with pos := 2 }) =
      some ([⟨2, 6, sentinel⟩], 9) ∧
    next (fun t => (t.tok.valid, t.pos)) (cmd 0x10 { withTxt abababab base with pos := 1 }) =
      some ([⟨0, 0, sym 0x42⟩], 2) := by decide

/-- V29, V226. -/
theorem test_find_faults :
    next status (cmd 0x10 { withTxt [sym 0x41, sym 0x42] base with pos := 2 }) = some (0x200, 2) ∧
    next status (cmd 0x10 (withTok [recA] (withTxt [sym 0x41, sym 0x42] (fresh { params with tokCap := 1 })))) =
      some (0x300, 2) := by decide

/-- V1, V2. -/
theorem test_tokenize :
    next (fun t => (t.tok.valid, t.pos)) (cmd 0x11 (withTxt abababab base)) =
      some ([recA, ⟨0, 0, sym 0x42⟩, ⟨2, 6, sentinel⟩], 9) ∧
    next (fun t => (t.tok.valid, t.pos)) (cmd 0x11 (withTxt abababab (fresh { params with windowSize := 4, maxMatch := 3 }))) =
      some ([recA, ⟨0, 0, sym 0x42⟩, ⟨2, 3, sym 0x42⟩, ⟨2, 2, sentinel⟩], 9) := by decide

/-- V9 (the nearer of two equal matches), V22 (a simple symbol is never an extended one). -/
theorem test_tokenize_ties :
    next (fun t => t.tok.valid.drop 4) (cmd 0x11 (withTxt
      ([0x61, 0x62, 0x63, 0x58, 0x61, 0x62, 0x63, 0x59, 0x61, 0x62, 0x63].map sym) base)) =
      some [⟨4, 3, sym 0x59⟩, ⟨4, 3, sentinel⟩] ∧
    next (fun t => t.tok.valid) (cmd 0x11 (withTxt [sym 0xE2, eur, sym 0xE2] base)) =
      some [⟨0, 0, sym 0xE2⟩, ⟨0, 0, eur⟩, ⟨2, 1, sentinel⟩] := by decide +kernel

/-- V49: the second record starts at bit 41. -/
theorem test_tenc :
    next (fun t => (t.bit.valid.length, bytesLsb t.bit.valid))
        (cmd 0x120 (withBit (encRec recA) (withTok [recA, recB] base))) =
      some (82, [0x00, 0x00, 0x00, 0x00, 0x82, 0x02, 0x00, 0x02, 0x00, 0x08, 0x01]) := by decide +kernel

/-- V49c, V222. -/
theorem test_tenc_faults :
    next status (cmd 0xFFFFFF20 (withTok [recA] base)) = some (0x200, 1) ∧
    next status (cmd 0x20 (withBit (encRec recA) (withTok [recA] (fresh { params with bitCap := 81 })))) =
      some (0x300, 3) := by decide

/-- V52, V57. -/
theorem test_tdec :
    next (fun t => (t.tok.valid, t.bitpos, t.trunc)) (cmd 0x21 (withBit [true, false, true] base)) =
      some ([⟨5, 0, sentinel⟩], 3, true) ∧
    next (fun t => (t.tok.valid, t.bitpos, t.trunc))
        (cmd 0x21 { withBit ([false, false, false] ++ encRec ⟨3, 4, sym 0x7A⟩) base with bitpos := 3 }) =
      some ([⟨3, 4, sym 0x7A⟩], 44, false) := by decide

/-- V54 (an extended record one bit short), V59. -/
theorem test_tdec_short :
    next (fun t => (t.tok.valid, t.bitpos, t.trunc))
        (cmd 0x21 (withBit ((encRec ⟨7, 9, .extended 0x01 0x02 0x03⟩).take 56) base)) =
      some ([⟨7, 9, sentinel⟩], 56, true) ∧
    next fault (cmd 0x21 { withBit (encRec recA) base with bitpos := 41 }) = some (2, 3) := by decide +kernel

/-- V73, V74, V223. -/
theorem test_b2y :
    next (fun t => t.pre.valid) (cmd 0x22 (withBit (List.replicate 9 true) base)) = some [0xFF, 0x01] ∧
    next (fun t => t.pre.valid) (cmd 0x22 (withBit (List.replicate 9 false) base)) = some [0x00, 0x00] ∧
    next status (cmd 0x22 (withBit (encRec recA) (fresh { params with preCap := 5 }))) = some (0x300, 4) := by decide

/-- V76, V224. -/
theorem test_y2b :
    next (fun t => t.bit.valid) (cmd 0x23 (withPre [0x82] base)) =
      some [false, true, false, false, false, false, false, true] ∧
    next status (cmd 0x23 (withPre [0, 0, 0, 0, 0, 0] (fresh { params with bitCap := 47 }))) = some (0x300, 3) := by
  decide

/-- V80, V81. -/
theorem test_pack :
    next (fun t => (t.bit.valid.length, t.pre.valid)) (cmd 0x24 (withTok [recA, recB] base)) =
      some (82, [0x00, 0x00, 0x00, 0x00, 0x82, 0x02, 0x00, 0x02, 0x00, 0x08, 0x01]) ∧
    next (fun t => (t.bit.valid.length, t.pre.valid)) (cmd 0x24 (withTok [⟨0, 0, eur⟩, recB] base)) =
      some (98, [0x00, 0x00, 0x00, 0x00, 0xC5, 0x05, 0x59, 0x03, 0x00, 0x02, 0x00, 0x08, 0x01]) := by decide +kernel

/-- V88 (a truncated tag), V95 (seven bits left are padding). -/
theorem test_unpack :
    next (fun t => (t.tok.valid, t.trunc, t.bitpos)) (cmd 0x25 (withPre
      [0x00, 0x00, 0x00, 0x00, 0x82, 0x00, 0x00, 0x00, 0x00, 0x08, 0x09, 0x00] base)) =
      some ([recA, ⟨0, 0, sym 0x42⟩, ⟨2, 0, sentinel⟩], true, 96) ∧
    next (fun t => (t.tok.valid, t.trunc, t.bitpos)) (cmd 0x25 (withPre
      [0x02, 0x00, 0x03, 0x00, 0x01, 0xE2, 0x82, 0xAC] base)) =
      some ([⟨2, 3, .extended 0x00 0x71 0x41⟩], false, 57) := by decide +kernel

/-- V106 (positions skipped and copied), V109 (the strip). -/
theorem test_replay :
    next (fun t => (t.txt.valid, t.oor)) (cmd 0x28 (withTok [⟨0, 0, sym 0x61⟩, ⟨3, 4, sym 0x62⟩] base)) =
      some ([0x61, 0x61, 0x61, 0x62].map sym, true) ∧
    next (fun t => (t.txt.valid, t.oor)) (cmd 0x28 (withTok
      [⟨0, 0, sym 0x61⟩, ⟨0, 0, sym 0x0A⟩, ⟨0, 0, sym 0x0D⟩, ⟨0, 0, sym 0x0A⟩] base)) =
      some ([sym 0x61], false) := by decide

/-- V117, V118: full is not a fault, one more is. -/
theorem test_replay_capacity :
    next fault (cmd 0x28 (withTok [⟨0, 0, sym 0x61⟩, ⟨1, 4, sentinel⟩] (fresh { params with txtCap := 4 }))) =
      some (3, 1) ∧
    next (fun t => t.txt.valid)
        (cmd 0x28 (withTok [⟨0, 0, sym 0x61⟩, ⟨1, 3, sentinel⟩] (fresh { params with txtCap := 4 }))) =
      some ([0x61, 0x61, 0x61, 0x61].map sym) := by decide +kernel

/-- V121: a tie of weight 3 goes to the lower index. -/
theorem test_hbuild :
    next (fun t => (t.node, t.root)) (cmd 0x30 (withPre [0x41, 0x41, 0x41, 0x42, 0x42, 0x43] base)) =
      some ([.leaf 3 0x41, .leaf 2 0x42, .leaf 1 0x43, .internal 3 2 1, .internal 6 0 3], 4) := by decide +kernel

/-- V121's codes, V122's one-bit code, V134's repeated leaf. -/
theorem test_ctab :
    next (fun t => (tableAt t.code 0x41, tableAt t.code 0x42, tableAt t.code 0x43, tableAt t.code 0x44)) (cmd 0x31
      (withNode [.leaf 3 0x41, .leaf 2 0x42, .leaf 1 0x43, .internal 3 2 1, .internal 6 0 3] 4 base)) =
      some (some [false], some [true, true], some [true, false], none) ∧
    next (fun t => tableAt t.code 0x41) (cmd 0x31 (withNode [.leaf 5 0x41] 0 base)) = some (some [false]) := by
  decide +kernel

theorem test_ctab_dup_leaf : next status (cmd 0x31 (withNode nodes134 0 base)) = some (0x400, 7) := by decide +kernel

/-- V158, V159. -/
theorem test_tser :
    next (fun t => t.con.valid) (cmd 0x32 (withCon [0xAA, 0xBB] (withNode nodes126 2 base))) =
      some [0xAA, 0xBB, 0x00, 0x01, 0x10, 0x01, 0x20] ∧
    next status (cmd 0x32 (withNode nodes126 2 (fresh { params with conCap := 4 }))) = some (0x300, 5) := by decide

/-- V148: from the cursor to where the descent completes. -/
theorem test_tdes :
    next (fun t => (t.node, t.root, t.conpos))
        (cmd 0x33 { withCon [0xAA, 0x00, 0x01, 0x41, 0x01, 0x42, 0xBB] base with conpos := 1 }) =
      some ([.internal 0 1 2, .leaf 0 0x41, .leaf 0 0x42], 0, 6) := by decide +kernel

/-- V150, V151, V153. -/
theorem test_tdes_faults :
    next status (cmd 0x33 (withCon [0x01] base)) = some (0x400, 2) ∧
    next status (cmd 0x33 (withCon [0x00, 0x01, 0x41] base)) = some (0x400, 2) ∧
    next status (cmd 0x33 (withCon [0x00, 0x01, 0x41, 0x02] base)) = some (0x400, 1) := by decide +kernel

/-- V160, V161. -/
theorem test_epack :
    next (fun t => (t.con.valid, t.bitcnt)) (cmd 0x34 (withPre [0x41, 0x41, 0x41, 0x42, 0x42, 0x43] base)) =
      some ([0x00, 0x01, 0x41, 0x00, 0x01, 0x43, 0x01, 0x42, 0x00, 0x00, 0x00, 0x09, 0x1F, 0x00], 9) ∧
    next (fun t => (t.con.valid, t.bitcnt)) (cmd 0x34 (withPre [0x41, 0x41, 0x41, 0x41, 0x41] base)) =
      some ([0x01, 0x41, 0x00, 0x00, 0x00, 0x05, 0x00], 5) := by decide +kernel

/-- V180 with V181 (padding bits and bytes after the payload are not read), V177. -/
theorem test_eunpack :
    next (fun t => (t.pre.valid, t.conpos))
        (cmd 0x35 (withCon [0x00, 0x01, 0x10, 0x01, 0x20, 0x00, 0x00, 0x00, 0x02, 0x7F, 0xAA, 0xBB] base)) =
      some ([0x10, 0x20], 10) ∧
    next (fun t => (t.pre.valid, t.conpos, t.bitcnt, t.node)) (cmd 0x35 base) = some ([], 0, 0, []) := by decide +kernel

/-- V186, V187, V188, V189, V189c. -/
theorem test_eunpack_faults :
    next status (cmd 0x35 (withCon [0x01, 0x41, 0x00, 0x00, 0x00] base)) = some (0x400, 3) ∧
    next status (cmd 0x35 (withCon [0x01, 0x41, 0xFF, 0xFF, 0xFF, 0xFF, 0x00] base)) = some (0x400, 4) ∧
    next status (cmd 0x35 (withCon [0x01, 0x41, 0x00, 0x00, 0x00, 0x05, 0x80] base)) = some (0x400, 5) ∧
    next status (cmd 0x35 (withCon
      [0x00, 0x01, 0x03, 0x00, 0x01, 0x01, 0x01, 0x02, 0x00, 0x00, 0x00, 0x01, 0x80] base)) = some (0x400, 6) ∧
    next status (cmd 0x35 (withCon [0x00, 0x01, 0x10, 0x01, 0x20, 0x00, 0x00, 0x00, 0x02, 0x40]
      (fresh { params with preCap := 1 }))) = some (0x300, 4) := by decide +kernel

/-- The container of V190. -/
def con190 : List Byte :=
  [0x00, 0x00, 0x00, 0x01, 0x08, 0x01, 0x09, 0x00, 0x01, 0x18, 0x01, 0x82, 0x01, 0x00, 0x00, 0x00, 0x00, 0x18, 0xF7,
    0xE0, 0xD7]

/-- V190, and V203's `CON_CAP = 20`. -/
theorem test_compress :
    next (fun t => (t.con.valid, t.bitcnt, t.pos)) (cmd 0x40 (withTxt abababab base)) = some (con190, 24, 9) ∧
    next status (cmd 0x40 (withTxt abababab (fresh { params with conCap := 20 }))) = some (0x300, 5) := by decide +kernel

/-- V190, and V203's `BIT_CAP = 127`. -/
theorem test_decompress :
    next (fun t => (t.txt.valid, t.trunc, t.oor, t.bitpos)) (cmd 0x41 (withCon con190 base)) =
      some (abababab, false, false, 123) ∧
    next fault (cmd 0x41 (withCon con190 (fresh { params with bitCap := 127 }))) =
      some (3, 3) := by decide +kernel

/-- V220: a recorded fault refuses COMPRESS, an illegal word and `CLR` with an argument; `CLR` clears it. -/
theorem test_sticky_fault :
    [0x40, 0x00, 0x101].map (fun w => next status (cmd w { base with cause := some .badMarker })) =
      List.replicate 3 (some (0x400, 1)) ∧
    next status (cmd 0x01 { base with cause := some .badMarker }) = some (0, 0) := by decide

/-- R275, R329: `CLR` clears the length and not the element. -/
theorem test_clr :
    next (fun t => (t.txt.valid, t.txt.elem Config.freeSym 0, t.pos)) (cmd 0x01 { withTxt [sym 0x41] base with pos := 7 }) =
      some ([], sym 0x41, 0) := by decide

/-- The five data formats, each presented once. -/
theorem test_present :
    next (fun t => t.tok.valid) (exec (.recSimple 2 3 0x41) base) = some [⟨2, 3, sym 0x41⟩] ∧
    next (fun t => t.tok.valid) (exec (.recExtended 0 0 0xE2 0x82 0xAC) (withTok [recA] base)) =
      some [recA, ⟨0, 0, eur⟩] ∧
    next (fun t => t.con.valid) (exec (.treeLeaf 0x41) (withCon [0x00] base)) = some [0x00, 0x01, 0x41] ∧
    next (fun t => t.con.valid) (exec .treeInternal base) = some [0x00] ∧
    next (fun t => t.con.valid) (exec (.container (.coded (.leaf 0x41) 5 [0x00])) (withCon con190 base)) =
      some [0x01, 0x41, 0x00, 0x00, 0x00, 0x05, 0x00] := by decide +kernel

/-- V228: the numbers at the port. -/
theorem test_port_layout :
    symNumber eur = 0x1AC82E2 ∧ recNumber recA = 0x8200000000 ∧ recNumber ⟨65535, 65535, eur⟩ = 0x15905C5FFFFFFFF ∧
    nodeNumber (.leaf 1 0x82) = 0x10400000003 ∧ nodeNumber (.internal 2 1 2) = 0x400020000000004 ∧
    codeNumber (some [false, true, true]) = 0x603 ∧ codeNumber none = 0 ∧ symOfNumber 0x000FF41 = sym 0x41 := by decide

/-- V229: read-only registers, and a length above the capacity. -/
theorem test_registers :
    regRead base 3 = 4096 ∧ regRead base 4 = 255 ∧ regRead base 0 = 0 ∧ regRead base 16 = 0 ∧
    regWrite 13 5 base = base ∧ regWrite 1 5 base = base ∧ regRead (regWrite 5 65537 base) 5 = 0 := by decide +kernel

/-! ## Witnesses: states that meet the hypotheses of the statements, clause by clause, at the edge of each range -/

theorem witness_StepRunsTheInstruction :
    (∃ (s : State) (rest : List HostOp) (w : Word) (i : Instr), s.pending = .regWrite 0 w :: rest ∧ decodeWord w = .ok i) ∧
    ∃ (s : State) (rest : List HostOp) (src : Source) (y : List Byte) (i : Instr), s.pending = .present src y :: rest ∧ decode src y = .ok i :=
  ⟨⟨withOps [.regWrite 0 0x10] base, [], 0x10, .find, by decide⟩,
    ⟨withOps [.present .treeNode [0x00]] base, [], .treeNode, [0x00], .treeInternal, by decide⟩⟩

theorem witness_StepTakesEveryOtherAccess :
    (∃ s : State, s.pending = []) ∧ (∃ s rest n, State.pending s = .regRead n :: rest) ∧
    (∃ s rest n v, State.pending s = .regWrite n v :: rest ∧ n ≠ 0) ∧
    (∃ s rest sp i, State.pending s = .bufRead sp i :: rest) ∧
    (∃ s rest sp i v, State.pending s = .bufWrite sp i v :: rest) ∧ ∃ s rest, State.pending s = .reset :: rest :=
  ⟨⟨base, by decide⟩, ⟨withOps [.regRead 1] base, [], 1, by decide⟩,
    ⟨withOps [.regWrite 10 7] base, [], 10, 7, by decide⟩, ⟨withOps [.bufRead .txt 0] base, [], .txt, 0, by decide⟩,
    ⟨withOps [.bufWrite .con 0 1] base, [], .con, 0, 1, by decide⟩, ⟨withOps [.reset] base, [], by decide⟩⟩

theorem witness_DecodeInvertsEncode :
    ∃ i : Instr, i.wellFormed = true ∧ i = .container (.coded tree126 2 [0x40]) := ⟨_, by decide, rfl⟩

theorem witness_EncodeInvertsDecode :
    (∃ y i, decode .record y = .ok i) ∧ (∃ y i, decode .container y = .ok i) ∧ ∃ y i, decode .command y = .ok i :=
  ⟨⟨[0, 0, 0, 0, 0x82, 0], .recSimple 0 0 0x41, by decide⟩,
    ⟨[0x01, 0x41, 0x00, 0x00, 0x00, 0x05, 0x00], .container (.coded (.leaf 0x41) 5 [0x00]), by decide +kernel⟩,
    ⟨[0x20, 0xFF, 0xFF, 0xFF], .tenc 0xFFFFFF, by decide⟩⟩

theorem witness_IllegalWordsAreRecorded :
    (∃ (s : State) (rest : List HostOp) (w : Word), s.pending = .regWrite 0 w :: rest ∧ s.cause = none ∧ w.extractLsb' 0 8 ∉ commandOpcodes) ∧
    (∃ (s : State) (rest : List HostOp) (w : Word), s.pending = .regWrite 0 w :: rest ∧ s.cause = none ∧ w.extractLsb' 0 8 ∈ commandOpcodes ∧
      w.extractLsb' 0 8 ≠ 0x20 ∧ w.extractLsb' 8 24 ≠ 0) ∧
    (∃ w : Word, w.extractLsb' 0 8 ∈ commandOpcodes ∧ w.extractLsb' 0 8 = 0x20) ∧
    ∃ w : Word, w.extractLsb' 0 8 ∈ commandOpcodes ∧ w.extractLsb' 8 24 = 0 :=
  ⟨⟨withOps [.regWrite 0 0] base, [], 0, by decide⟩, ⟨withOps [.regWrite 0 0x101] base, [], 0x101, by decide⟩,
    ⟨0xFFFFFF20, by decide⟩, ⟨0x41, by decide⟩⟩

/-- A state with a recorded fault. -/
def faulted : State := { base with cause := some .badMarker }

theorem witness_FaultRefusesEveryCommandButClr :
    (∃ (s : State) (rest : List HostOp) (w : Word), s.pending = .regWrite 0 w :: rest ∧ s.cause.isSome ∧ w ≠ 1) ∧
    (∃ s rest, State.pending s = .regWrite 0 1 :: rest) ∧
    ∃ (i : Instr) (s : State), i.source = .command ∧ i ≠ .clr ∧ s.cause.isSome :=
  ⟨⟨withOps [.regWrite 0 0x101] faulted, [], 0x101, by decide⟩, ⟨withOps [.regWrite 0 1] faulted, [], by decide⟩,
    ⟨.find, faulted, by decide⟩⟩

theorem witness_FaultClearsOnlyByClrOrReset :
    ∃ s t : State, step s = .next t ∧ s.cause.isSome ∧ t.cause ≠ s.cause :=
  ⟨withOps [.regWrite 0 1] faulted, clearAll faulted, rfl, rfl, by decide⟩

theorem witness_StatusAndFinfoNameTheFault :
    ∃ s t, faultField s = faultField t ∧ regRead s 2 = regRead t 2 ∧ s.cause = some .badMarker :=
  ⟨faulted, withTxt [sym 0x41] faulted, by decide⟩

theorem witness_RegisterPort :
    (∃ (s : State) (v : Word) (n : Nat), n = 5 ∧ v.toNat = s.cfg.txtCap) ∧
    (∃ (s : State) (v : Word) (n : Nat), n = 9 ∧ v.toNat = s.cfg.conCap) ∧ ∃ n : Nat, n ∈ [1, 2, 3, 4, 13, 14, 15] :=
  ⟨⟨base, 65536, 5, by decide⟩, ⟨base, 4096, 9, by decide⟩, ⟨15, by decide⟩⟩

theorem witness_LengthWrites :
    (∃ (s : State) (v : Word), v.toNat = s.cfg.txtCap) ∧ (∃ (s : State) (v : Word), v.toNat = s.cfg.txtCap + 1) ∧
    (∃ (s : State) (v : Word), v.toNat = s.cfg.tokCap) ∧ (∃ (s : State) (v : Word), v.toNat = s.cfg.bitCap + 1) ∧
    (∃ (s : State) (v : Word), v.toNat = s.cfg.preCap) ∧ ∃ (s : State) (v : Word), v.toNat = s.cfg.conCap + 1 :=
  ⟨⟨base, 65536, by decide⟩, ⟨base, 65537, by decide⟩, ⟨base, 1000, by decide⟩, ⟨base, 4097, by decide⟩,
    ⟨base, 1000, by decide⟩, ⟨base, 4097, by decide⟩⟩

theorem witness_BufferPorts :
    (∃ (s : State) (i : Nat), i + 1 = s.cfg.txtCap) ∧ (∃ (s : State) (i : Nat), i = s.cfg.txtCap) ∧
    (∃ (s : State) (i : Nat) (y : Sym), i < s.cfg.txtCap ∧ s.txt.valid[i]? = some y) ∧
    ∃ (s : State) (i : Nat) (y : Node), i < 511 ∧ s.node[i]? = some y :=
  ⟨⟨base, 65535, by decide⟩, ⟨base, 65536, by decide⟩, ⟨withTxt [sym 0x41] base, 0, sym 0x41, by decide⟩,
    ⟨withNode nodes126 2 base, 2, .internal 2 0 1, by decide⟩⟩

theorem witness_PortLayout : ∃ q : List Bit, 1 ≤ q.length ∧ q.length = 255 := ⟨List.replicate 255 true, by rw [List.length_replicate]; decide⟩

theorem witness_ResetStateAndClrAgree : ∃ s t, exec .clr s = .next t := ⟨faulted, clearAll faulted, rfl⟩

/-- A memory with an element kept beyond the length meets the invariant, and a step leads on from it. -/
theorem witness_StepsKeepMemoryOk : ∃ s t, MemoryOk s ∧ step s = .next t ∧ s.con.spare ≠ [] :=
  ⟨withOps [.regWrite 9 1] { base with con := ⟨[], [(0, 7)], 0⟩ }, regWrite 9 1 { base with con := ⟨[], [(0, 7)], 0⟩ },
    ⟨by decide, by decide⟩, rfl, by decide⟩

theorem arenaOk_nodes126 : ArenaOk (withNode nodes126 2 base) := fun _ =>
  ⟨by decide, fun _ => ⟨by decide, by simp [withNode, nodes126, childrenBelow], [2, 0, 1], by decide, by decide⟩⟩

theorem codes_reset (v : Byte) : tableAt State.reset.code v = none :=
  Vector.getElem_replicate v.isLt

theorem witness_StepsKeepArenaOk :
    ∃ s t, ArenaOk s ∧ CodesOk s ∧ step s = .next t ∧ s.node ≠ [] :=
  ⟨withOps [.regWrite 10 7] (withNode nodes126 2 base), { withNode nodes126 2 base with pos := 7 },
    arenaOk_nodes126, ⟨fun v _ h => absurd ((codes_reset v).symm.trans h) (by simp),
      fun _ v _ _ _ h => absurd ((codes_reset v).symm.trans h) (by simp)⟩, rfl, by decide⟩

theorem witness_EveryCommandEnds : ∃ s : State, ArenaOk s ∧ s.node ≠ [] := ⟨_, arenaOk_nodes126, by decide⟩

theorem witness_FindAppendsTheRecord :
    ∃ s : State, s.cause = none ∧ s.cfg.Wf ∧ s.pos.toNat + 1 = s.txt.valid.length ∧
      s.tok.valid.length + 1 = s.cfg.tokCap :=
  ⟨{ withTxt [sym 0x41, sym 0x41] (fresh { params with tokCap := 1 }) with pos := 1 }, by decide⟩

theorem witness_TokenizeCoversTheText :
    (∃ s : State, s.cause = none ∧ s.cfg.Wf ∧ s.txt.valid.length = s.cfg.tokCap ∧ s.txt.valid ≠ []) ∧
    ∃ s : State, s.cause = none ∧ s.cfg.Wf ∧ s.txt.valid.length ≤ s.cfg.tokCap ∧ s.txt.valid = [] :=
  ⟨⟨withTxt abababab (fresh { params with tokCap := 8 }), by decide⟩, ⟨base, by decide⟩⟩

theorem witness_FinderFaults :
    (∃ s : State, s.cause = none ∧ s.txt.valid.length = s.pos.toNat) ∧
    (∃ s : State, s.cause = none ∧ s.pos.toNat < s.txt.valid.length ∧ s.cfg.tokCap = s.tok.valid.length) ∧
    ∃ (s : State) (rs : List Rec), s.cause = none ∧ s.cfg.Wf ∧ rs.length = s.cfg.tokCap ∧
      (∀ i r, rs[i]? = some r →
        positionAfter rs i < s.txt.valid.length ∧ IsRecordAt s.cfg s.txt.valid (positionAfter rs i) r) ∧
      positionAfter rs rs.length < s.txt.valid.length := by
  refine ⟨⟨base, by decide⟩, ⟨withTok [recA] (withTxt [sym 0x41, sym 0x42] (fresh { params with tokCap := 1 })), by decide⟩,
    withTxt [sym 0x41, sym 0x42] (fresh { params with tokCap := 1 }), [recA], by decide, by decide, by decide, ?_, by decide⟩
  intro i r h
  match i, h with
  | 0, h =>
    obtain rfl : recA = r := by simpa using h
    refine ⟨by decide, .inl ⟨fun d L hd _ => ?_, rfl, rfl, rfl⟩⟩
    have := hd.1
    have := hd.2.1
    simp [positionAfter] at this
    omega

theorem witness_FinderTestProperties :
    (∃ s : State, s.cause = none ∧ s.txt.valid.length = s.cfg.tokCap ∧ ¬ s.txt.valid.Nodup ∧
      ∀ i j, i < j → j < s.txt.valid.length → j - i ≤ s.cfg.windowSize → s.txt.valid[i]? ≠ s.txt.valid[j]?) ∧
    (∃ s : State, s.cause = none ∧ s.cfg.Wf ∧ s.cfg.windowSize = 2 ∧ s.tok.valid.length < s.cfg.tokCap ∧
      s.txt.valid = [0x41, 0x42, 0x41, 0x42, 0x41, 0x42, 0x41, 0x42].map Sym.simple ∧ s.pos = 2 ∧ s.cfg.maxMatch = 6) ∧
    ∃ s : State, s.cause = none ∧ s.cfg.Wf ∧ 2 ≤ s.cfg.windowSize ∧ s.tok.valid.length < s.cfg.tokCap ∧
      s.txt.valid = [0x41, 0x42, 0x41, 0x42, 0x41, 0x42, 0x41, 0x42].map Sym.simple ∧ s.pos = 2 ∧ s.cfg.maxMatch = 1 :=
  ⟨⟨withTxt [sym 0x41, eur, sym 0x41] (fresh { params with tokCap := 3, windowSize := 1 }), rfl, rfl, by decide,
      fun i j hi hj hw => by
        have hj : j < 3 := hj
        have hw : j - i ≤ 1 := hw
        interval_cases j <;> interval_cases i <;> first | omega | decide⟩,
    ⟨{ withTxt abababab (fresh { params with windowSize := 2, maxMatch := 6 }) with pos := 2 }, by decide⟩,
    ⟨{ withTxt abababab (fresh { params with maxMatch := 1 }) with pos := 2 }, by decide⟩⟩

theorem witness_TencAppendsTheWireForm :
    ∃ (s : State) (arg : BitVec 24) (r : Rec), s.cause = none ∧ s.tok.valid[arg.toNat]? = some r ∧
      s.bit.valid.length + recWidth r = s.cfg.bitCap :=
  ⟨withTok [recA, recB] (withBit [true] (fresh { params with bitCap := 42 })), 1, recB, by decide⟩

/-- 41 bits that are a simple record are whole (at the end of BIT); 41 bits with the extended bit set are not (V54). -/
theorem witness_TdecDecodesAtTheCursor :
    (∃ s : State, s.cause = none ∧ s.bitpos.toNat < s.bit.valid.length ∧ s.tok.valid.length + 1 = s.cfg.tokCap ∧
      Whole (s.bit.valid.drop s.bitpos.toNat)) ∧
    (∃ s : State, s.cause = none ∧ s.bitpos.toNat < s.bit.valid.length ∧ s.tok.valid.length < s.cfg.tokCap ∧
      ¬ Whole (s.bit.valid.drop s.bitpos.toNat) ∧ s.bit.valid.length = 41) ∧
    ∃ s : State, s.cause = none ∧ s.bitpos.toNat + 1 = s.bit.valid.length ∧ s.tok.valid.length < s.cfg.tokCap ∧
      ¬ Whole (s.bit.valid.drop s.bitpos.toNat) := by
  refine ⟨⟨withBit (encRec recA) (fresh { params with tokCap := 1 }), rfl, by decide, by decide, false, by decide⟩,
    ⟨withBit (List.replicate 41 true) base, rfl, by decide, by decide, ?_, by decide⟩,
    ⟨withBit [true] base, rfl, by decide, by decide, ?_⟩⟩ <;>
  · rintro ⟨e, he, hl⟩
    revert he hl
    cases e <;> decide

theorem witness_CodecFaults :
    (∃ (s : State) (arg : BitVec 24), s.cause = none ∧ s.tok.valid.length = arg.toNat) ∧
    (∃ (s : State) (arg : BitVec 24) (r : Rec), s.cause = none ∧ s.tok.valid[arg.toNat]? = some r ∧
      s.cfg.bitCap + 1 = s.bit.valid.length + recWidth r) ∧
    (∃ s : State, s.cause = none ∧ s.bit.valid.length = s.bitpos.toNat) ∧
    ∃ s : State, s.cause = none ∧ s.bitpos.toNat < s.bit.valid.length ∧ s.cfg.tokCap = s.tok.valid.length :=
  ⟨⟨withTok [recA] base, 1, by decide⟩, ⟨withTok [recA] (fresh { params with bitCap := 40 }), 0, recA, by decide⟩,
    ⟨base, by decide⟩, ⟨withBit [true] (fresh { params with tokCap := 0 }), by decide⟩⟩

theorem witness_BitsToBytesAndBack :
    (∃ s : State, s.cause = none ∧ ceil8 s.bit.valid.length = s.cfg.preCap) ∧
    (∃ s : State, s.cause = none ∧ s.cfg.preCap + 1 = ceil8 s.bit.valid.length) ∧
    (∃ s : State, s.cause = none ∧ 8 * s.pre.valid.length = s.cfg.bitCap) ∧
    ∃ s : State, s.cause = none ∧ s.cfg.bitCap + 1 = 8 * s.pre.valid.length :=
  ⟨⟨withBit (List.replicate 9 true) (fresh { params with preCap := 2 }), by decide⟩,
    ⟨withBit (List.replicate 9 true) (fresh { params with preCap := 1 }), by decide⟩,
    ⟨withPre [0x82] (fresh { params with bitCap := 8 }), by decide⟩,
    ⟨withPre [0x82] (fresh { params with bitCap := 7 }), by decide⟩⟩

theorem witness_PackConcatenatesTheWireForms :
    (∃ s : State, s.cause = none ∧ totalWidth s.tok.valid = s.cfg.bitCap ∧
      ceil8 (totalWidth s.tok.valid) = s.cfg.preCap) ∧
    (∃ s : State, s.cause = none ∧ s.cfg.bitCap + 1 = totalWidth s.tok.valid) ∧
    ∃ s : State, s.cause = none ∧ totalWidth s.tok.valid ≤ s.cfg.bitCap ∧
      s.cfg.preCap + 1 = ceil8 (totalWidth s.tok.valid) :=
  ⟨⟨withTok [recA, recB] (fresh { params with bitCap := 82, preCap := 11 }), by decide⟩,
    ⟨withTok [recA, recB] (fresh { params with bitCap := 81 }), by decide⟩,
    ⟨withTok [recA, recB] (fresh { params with preCap := 10 }), by decide⟩⟩

/-- Six bytes that one record and 7 bits of padding fill, and three that hold the beginning of one, in a TOK of one element
each. -/
theorem witness_UnpackCutsTheBitsIntoRecords :
    (∃ (s : State) (rs : List Rec) (n : Nat), s.cause = none ∧ 8 * s.pre.valid.length = s.cfg.bitCap ∧
      CutsInto (bitsLsb s.pre.valid) rs false n ∧ rs.length = s.cfg.tokCap ∧ rs ≠ []) ∧
    ∃ (s : State) (rs : List Rec) (n : Nat), s.cause = none ∧ 8 * s.pre.valid.length = s.cfg.bitCap ∧
      CutsInto (bitsLsb s.pre.valid) rs true n ∧ rs.length = s.cfg.tokCap := by
  refine ⟨⟨withPre [0x00, 0x00, 0x00, 0x00, 0x82, 0x00] (fresh { params with bitCap := 48, tokCap := 1 }), [recA], 41, rfl,
      by decide, ⟨[recA], List.replicate 7 false, by decide +kernel, .inl (by decide)⟩, by decide, by decide⟩,
    ⟨withPre [0x05, 0x00, 0x03] (fresh { params with bitCap := 24, tokCap := 1 }), [⟨5, 3, sentinel⟩], 24, rfl, by decide,
      ⟨[], bitsLsb [0x05, 0x00, 0x03], by decide, .inr ⟨by decide, ?_, rfl, by decide, ⟨5, 3, sentinel⟩,
        by unfold IsTruncatedRecord; decide, rfl⟩⟩, by decide⟩⟩
  rintro ⟨e, he, hl⟩
  revert he hl
  cases e <;> decide

theorem witness_UnpackFaults :
    (∃ s : State, s.cause = none ∧ s.cfg.bitCap < 8 * s.pre.valid.length) ∧
    ∃ (s : State) (rs : List Rec) (rest : List Bit), s.cause = none ∧ 8 * s.pre.valid.length ≤ s.cfg.bitCap ∧
      bitsLsb s.pre.valid = rs.flatMap encRec ++ rest ∧ rs.length = s.cfg.tokCap ∧ 8 ≤ rest.length :=
  ⟨⟨withPre [0x82] (fresh { params with bitCap := 7 }), by decide⟩,
    ⟨withPre [0x00, 0x00, 0x00, 0x00, 0x82, 0x00, 0x00] (fresh { params with tokCap := 1 }), [recA],
      List.replicate 15 false, by decide +kernel⟩⟩

theorem witness_UnpackInvertsPack :
    ∃ s : State, s.cause = none ∧ s.tok.valid.length = s.cfg.tokCap ∧ totalWidth s.tok.valid ≤ s.cfg.bitCap ∧
      ceil8 (totalWidth s.tok.valid) = s.cfg.preCap ∧ 8 * ceil8 (totalWidth s.tok.valid) = s.cfg.bitCap ∧
      s.tok.valid ≠ [] :=
  ⟨withTok [recA, recB] (fresh { params with bitCap := 88, preCap := 11, tokCap := 2 }), by decide⟩

/-- V118 and V117: a text that fills TXT, and one that is longer. -/
theorem witness_ReplayRebuildsTheText :
    (∃ (s : State) (O : List Sym) (oor : Bool), s.cause = none ∧ Replays s.tok.valid [] O oor ∧
      O.length = s.cfg.txtCap) ∧
    ∃ (s : State) (O : List Sym) (oor : Bool), s.cause = none ∧ Replays s.tok.valid [] O oor ∧
      s.cfg.txtCap + 1 = O.length :=
  ⟨⟨withTok [⟨0, 0, sym 0x61⟩, ⟨1, 3, sentinel⟩] (fresh { params with txtCap := 4 }), [0x61, 0x61, 0x61, 0x61].map sym,
      false, rfl, ⟨[], false, by unfold IsCopy; decide,
        ⟨[0x61, 0x61, 0x61].map sym, false, by unfold IsCopy; decide, ⟨rfl, rfl⟩, by unfold SkipsPosition; decide⟩,
        by unfold SkipsPosition; decide⟩, by decide⟩,
    ⟨withTok [⟨0, 0, sym 0x61⟩, ⟨1, 4, sentinel⟩] (fresh { params with txtCap := 4 }),
      [0x61, 0x61, 0x61, 0x61, 0x61].map sym, false, rfl,
      ⟨[], false, by unfold IsCopy; decide,
        ⟨[0x61, 0x61, 0x61, 0x61].map sym, false, by unfold IsCopy; decide, ⟨rfl, rfl⟩, by unfold SkipsPosition; decide⟩,
        by unfold SkipsPosition; decide⟩, by decide⟩⟩

theorem witness_ReplayInvertsTokenize :
    ∃ s : State, s.cause = none ∧ s.cfg.Wf ∧ sentinel ∉ s.txt.valid ∧ s.txt.valid.length = s.cfg.tokCap ∧
      s.txt.valid.length = s.cfg.txtCap ∧ s.txt.valid ≠ [] :=
  ⟨withTxt (abababab ++ [sym 0x0A]) (fresh { params with tokCap := 9, txtCap := 9 }), by decide⟩

theorem witness_Hbuild :
    (∃ s : State, s.cause = none ∧ s.pre.valid.length < 2 ^ 32 ∧ s.pre.valid = []) ∧
    ∃ s : State, s.cause = none ∧ s.pre.valid.length < 2 ^ 32 ∧ s.pre.valid ≠ [] :=
  ⟨⟨base, by decide⟩, ⟨withPre [0x41, 0x41, 0x41, 0x42, 0x42, 0x43] base, by decide⟩⟩

theorem witness_CtabGivesThePaths :
    (∃ s : State, s.cause = none ∧ s.node = []) ∧
    (∃ (s : State) (T : Tree), s.cause = none ∧ treeAt s.node s.node.length s.root.toNat = some T ∧
      (leafValues T).Nodup ∧ T = tree126) ∧
    (∃ (s : State) (T : Tree), s.cause = none ∧ treeAt s.node s.node.length s.root.toNat = some T ∧
      (leafValues T).Nodup ∧ T = .leaf 0x41) ∧
    ∃ (s : State) (T : Tree), s.cause = none ∧ treeAt s.node s.node.length s.root.toNat = some T ∧
      ¬ (leafValues T).Nodup :=
  ⟨⟨base, by decide⟩, ⟨withNode nodes126 2 base, tree126, by decide⟩, ⟨withNode [.leaf 5 0x41] 0 base, .leaf 0x41, by decide⟩,
    ⟨withNode nodes134 0 base, .node (.leaf 0x41) (.leaf 0x41), by decide⟩⟩

theorem witness_TserAppendsTheTree :
    (∃ s : State, s.cause = none ∧ s.node = []) ∧
    (∃ (s : State) (T : Tree), s.cause = none ∧ treeAt s.node s.node.length s.root.toNat = some T ∧
      s.con.valid.length + (serTree T).length = s.cfg.conCap) ∧
    ∃ (s : State) (T : Tree), s.cause = none ∧ treeAt s.node s.node.length s.root.toNat = some T ∧
      s.cfg.conCap + 1 = s.con.valid.length + (serTree T).length :=
  ⟨⟨base, by decide⟩, ⟨withNode nodes126 2 (fresh { params with conCap := 5 }), tree126, by decide⟩,
    ⟨withNode nodes126 2 (fresh { params with conCap := 4 }), tree126, by decide⟩⟩

theorem witness_TdesReadsTheTree :
    ∃ (s : State) (T : Tree) (rest : List Byte), s.cause = none ∧
      s.con.valid.drop s.conpos.toNat = serTree T ++ rest ∧ treeSize T ≤ 511 :=
  ⟨{ withCon [0xAA, 0x00, 0x01, 0x10, 0x01, 0x20, 0xBB] base with conpos := 1 }, tree126, [0xBB], by decide⟩

theorem inTree_internals (n : Nat) : InTree (List.replicate n 0x00) (n + 1) n := by
  induction n with
  | zero => exact .start
  | succ n ih => rw [List.replicate_succ']; exact ih.internal

/-- The bytes `00 01 41`: the right subtree is to come (V153 has a bad marker there). -/
theorem inTree_right : InTree [0x00, 0x01, 0x41] 1 2 := (InTree.start.internal).leaf 0x41

theorem witness_TdesFaults :
    (∃ (s : State) (T : Tree) (y z : List Byte), s.cause = none ∧ s.con.valid.drop s.conpos.toNat = y ∧
      serTree T = y ++ z ∧ z ≠ [] ∧ treeSize T ≤ 511 ∧ y ≠ []) ∧
    (∃ (s : State) (T : Tree) (y z : List Byte), s.cause = none ∧ s.con.valid.drop s.conpos.toNat = y ∧
      serTree T = y ++ z ∧ z ≠ [] ∧ treeSize T ≤ 511 ∧ y = []) ∧
    (∃ (s : State) (y : List Byte) (n : Nat), s.cause = none ∧ s.con.valid.drop s.conpos.toNat = y ∧
      InTree y (n + 1) 511) ∧
    (∃ (s : State) (y : List Byte) (n k : Nat) (m : Byte) (rest : List Byte), s.cause = none ∧
      s.con.valid.drop s.conpos.toNat = y ++ m :: rest ∧ InTree y (n + 1) k ∧ k ≤ 511 ∧ m ≠ 0x00 ∧ m ≠ 0x01 ∧ y ≠ []) ∧
    (∃ (s : State) (y : List Byte) (n : Nat) (m : Byte) (rest : List Byte), s.cause = none ∧
      s.con.valid.drop s.conpos.toNat = y ++ m :: rest ∧ InTree y (n + 1) 511 ∧ (m = 0x00 ∨ m = 0x01)) ∧
    (∃ (s : State) (y : List Byte) (n : Nat), s.cause = none ∧ s.con.valid.drop s.conpos.toNat = y ++ [0x01] ∧
      InTree y (n + 1) 510) ∧
    ∃ (s : State) (T : Tree) (rest : List Byte), s.cause = none ∧
      s.con.valid.drop s.conpos.toNat = serTree T ++ rest ∧ treeSize T = 513 :=
  ⟨⟨withCon [0x00, 0x01, 0x10] base, tree126, [0x00, 0x01, 0x10], [0x01, 0x20], by decide⟩,
    ⟨{ base with conpos := 0xFFFFFFFF }, .leaf 0, [], [0x01, 0x00], by decide⟩,
    ⟨withCon (List.replicate 511 0x00) base, _, 511, rfl, rfl, inTree_internals 511⟩,
    ⟨withCon [0x00, 0x01, 0x41, 0x02] base, _, 0, 2, 0x02, [], rfl, rfl, inTree_right, by decide⟩,
    ⟨withCon (List.replicate 511 0x00 ++ [0x01]) base, _, 511, 0x01, [], rfl, rfl, inTree_internals 511, .inr rfl⟩,
    ⟨withCon (List.replicate 510 0x00 ++ [0x01]) base, _, 510, rfl, rfl, inTree_internals 510⟩,
    ⟨withCon (serTree (chain 256)) base, chain 256, [], rfl, (List.append_nil _).symm, by decide +kernel⟩⟩

theorem witness_TdesInvertsTser :
    ∃ s : State, s.cause = none ∧ s.pre.valid ≠ [] ∧ s.pre.valid.length < 2 ^ 32 ∧
      3 * (valuesOf s.pre.valid).length - 1 = s.cfg.conCap :=
  ⟨withPre [0x10, 0x20] (fresh { params with conCap := 5 }), by decide +kernel⟩

theorem witness_EpackWritesTheContainer :
    (∃ s : State, s.cause = none ∧ 255 * s.pre.valid.length < 2 ^ 32 ∧
      771 + ceil8 (255 * s.pre.valid.length) = s.cfg.conCap ∧ s.pre.valid ≠ []) ∧
    (∃ s : State, s.cause = none ∧ s.pre.valid = [] ∧ s.cfg.conCap = 0) ∧
    ∃ (s : State) (n : Nat) (v : Byte), s.cause = none ∧ 1 ≤ n ∧ n < 2 ^ 32 ∧ s.pre.valid = List.replicate n v ∧
      6 + ceil8 n = s.cfg.conCap :=
  ⟨⟨withPre [0x10, 0x20] (fresh { params with conCap := 835 }), by decide⟩,
    ⟨fresh { params with conCap := 0 }, by decide⟩,
    ⟨withPre [0x41] (fresh { params with conCap := 7 }), 1, 0x41, by decide⟩⟩

theorem spells_126 : Spells tree126 [0x10, 0x20] [false, true] :=
  ⟨[false], [true], rfl, rfl, [true], [], rfl, rfl, rfl⟩

theorem witness_EunpackDecodesTheContainer :
    (∃ s : State, s.cause = none ∧ s.con.valid = []) ∧
    (∃ (s : State) (T : Tree) (b : Word) (y : List Byte) (q : List Bit) (out : List Byte), s.cause = none ∧
      s.con.valid = serTree T ++ be32 b ++ y ∧ treeSize T ≤ 511 ∧ ceil8 b.toNat = y.length ∧
      PayloadBits y b.toNat q ∧ Spells T out q ∧ out.length = s.cfg.preCap ∧ T = tree126) ∧
    ∃ (s : State) (T : Tree) (b : Word) (y : List Byte) (q : List Bit) (out : List Byte), s.cause = none ∧
      s.con.valid = serTree T ++ be32 b ++ y ∧ treeSize T ≤ 511 ∧ ceil8 b.toNat ≤ y.length ∧
      PayloadBits y b.toNat q ∧ Spells T out q ∧ out.length ≤ s.cfg.preCap ∧ T = .leaf 0x41 :=
  ⟨⟨base, by decide⟩,
    ⟨withCon [0x00, 0x01, 0x10, 0x01, 0x20, 0x00, 0x00, 0x00, 0x02, 0x40] (fresh { params with preCap := 2 }), tree126, 2,
      [0x40], [false, true], [0x10, 0x20], rfl, by decide, by decide, by decide, by unfold PayloadBits; decide, spells_126,
      by decide, rfl⟩,
    ⟨withCon [0x01, 0x41, 0x00, 0x00, 0x00, 0x01, 0x00] base, .leaf 0x41, 1, [0x00], [false], [0x41], rfl, by decide,
      by decide, by decide, by unfold PayloadBits; decide, ⟨[false], [], rfl, ⟨rfl, rfl⟩, rfl⟩, by decide, rfl⟩⟩

theorem witness_EunpackFaults :
    (∃ (s : State) (code info : Nat), s.cause = none ∧ s.con.valid ≠ [] ∧
      Faulted code info (exec .tdes { s with conpos := 0 })) ∧
    (∃ (s : State) (T : Tree) (z : List Byte), s.cause = none ∧ s.con.valid = serTree T ++ z ∧ treeSize T ≤ 511 ∧
      z.length = 3) ∧
    (∃ (s : State) (T : Tree) (b : Word) (y : List Byte), s.cause = none ∧ s.con.valid = serTree T ++ be32 b ++ y ∧
      treeSize T ≤ 511 ∧ y.length + 1 = ceil8 b.toNat) ∧
    (∃ (s : State) (v : Byte) (b : Word) (y : List Byte) (q : List Bit) (k : Nat), s.cause = none ∧
      s.con.valid = serTree (.leaf v) ++ be32 b ++ y ∧ ceil8 b.toNat ≤ y.length ∧ PayloadBits y b.toNat q ∧
      q[k]? = some true ∧ (∀ i < k, q[i]? = some false) ∧ k = s.cfg.preCap) ∧
    (∃ (s : State) (T : Tree) (b : Word) (y : List Byte) (c rest : List Bit) (out : List Byte), s.cause = none ∧
      s.con.valid = serTree T ++ be32 b ++ y ∧ treeSize T ≤ 511 ∧ ceil8 b.toNat ≤ y.length ∧
      PayloadBits y b.toNat (c ++ rest) ∧ Spells T out c ∧ out.length = s.cfg.preCap + 1) ∧
    ∃ (s : State) (T : Tree) (b : Word) (y : List Byte) (c rest : List Bit) (out : List Byte) (l r : Tree),
      s.cause = none ∧ s.con.valid = serTree T ++ be32 b ++ y ∧ treeSize T ≤ 511 ∧ ceil8 b.toNat ≤ y.length ∧
      PayloadBits y b.toNat (c ++ rest) ∧ Spells T out c ∧ out.length = s.cfg.preCap ∧ rest ≠ [] ∧
      follow T rest = some (.node l r) :=
  ⟨⟨withCon [0x02] base, 4, 1, rfl, by decide, _, rfl, rfl, rfl, rfl⟩,
    ⟨withCon [0x01, 0x41, 0x00, 0x00, 0x00] base, .leaf 0x41, [0x00, 0x00, 0x00], by decide⟩,
    ⟨withCon [0x01, 0x41, 0x00, 0x00, 0x00, 0x09, 0x00] base, .leaf 0x41, 9, [0x00], by decide⟩,
    ⟨withCon [0x01, 0x41, 0x00, 0x00, 0x00, 0x05, 0x40] (fresh { params with preCap := 1 }), 0x41, 5, [0x40],
      [false, true, false, false, false], 1, rfl, by decide, by decide, by unfold PayloadBits; decide, rfl, by decide, rfl⟩,
    ⟨withCon [0x00, 0x01, 0x10, 0x01, 0x20, 0x00, 0x00, 0x00, 0x02, 0x40] (fresh { params with preCap := 1 }), tree126, 2,
      [0x40], [false, true], [], [0x10, 0x20], rfl, by decide, by decide, by decide, by unfold PayloadBits; decide,
      spells_126, rfl⟩,
    ⟨withCon [0x00, 0x01, 0x03, 0x00, 0x01, 0x01, 0x01, 0x02, 0x00, 0x00, 0x00, 0x02, 0x40] (fresh { params with preCap := 1 }),
      tree125, 2, [0x40], [false], [true], [0x03], .leaf 0x01, .leaf 0x02, rfl, by decide, by decide, by decide,
      by unfold PayloadBits; decide, ⟨[false], [], rfl, rfl, rfl⟩, rfl, by decide, rfl⟩⟩

theorem witness_EunpackInvertsEpack :
    ∃ s : State, s.cause = none ∧ 255 * s.pre.valid.length < 2 ^ 32 ∧
      771 + ceil8 (255 * s.pre.valid.length) = s.cfg.conCap ∧ s.pre.valid.length = s.cfg.preCap ∧ s.pre.valid ≠ [] :=
  ⟨withPre [0x10, 0x20] (fresh { params with conCap := 835, preCap := 2 }), by decide⟩

/-- Both pipelines: a first stage that completes, and one that faults. -/
theorem witness_PipelineStagesInOrder :
    (∃ s t, State.cause s = none ∧ exec .tokenize s = .next t ∧ t.cause = none) ∧
    (∃ s t, State.cause s = none ∧ exec .tokenize s = .next t ∧ t.cause.isSome) ∧
    (∃ s t, State.cause s = none ∧ exec .eunpack s = .next t ∧ t.cause = none) ∧
    ∃ s t, State.cause s = none ∧ exec .eunpack s = .next t ∧ t.cause.isSome :=
  ⟨⟨withTxt [sym 0x41] base, _, rfl, rfl, rfl⟩, ⟨withTxt [sym 0x41] (fresh { params with tokCap := 0 }), _, rfl, rfl, rfl⟩,
    ⟨base, _, rfl, rfl, rfl⟩, ⟨withCon [0x02] base, _, rfl, rfl, rfl⟩⟩

/-- Capacities that are just sufficient, for texts of up to eight symbols. -/
def tight : Params := ⟨65535, 65535, 8, 8, 463, 58, 2620⟩

theorem witness_RoundTrip :
    ∃ s : State, s.cause = none ∧ s.cfg.Wf ∧ sentinel ∉ s.txt.valid ∧ s.txt.valid.length = s.cfg.txtCap ∧
      CapacitiesSuffice s.cfg ∧ 57 * s.cfg.tokCap + 7 = s.cfg.bitCap :=
  ⟨withTxt abababab (fresh tight), rfl, by decide, by decide, by decide, by unfold CapacitiesSuffice; decide, by decide⟩

theorem witness_CompressCompletes :
    ∃ s : State, s.cause = none ∧ s.cfg.Wf ∧ s.txt.valid.length = s.cfg.txtCap ∧ CapacitiesSuffice s.cfg ∧
      57 * s.cfg.tokCap = s.cfg.bitCap :=
  ⟨withTxt abababab (fresh { tight with bitCap := 456, preCap := 57, conCap := 2588 }), rfl, by decide, by decide,
    by unfold CapacitiesSuffice; decide, by decide⟩

/-- The tree, the bytes and the records of V190. -/
def tree190 : Tree := .node (.node (.node (.leaf 0x08) (.leaf 0x09)) (.node (.leaf 0x18) (.leaf 0x82))) (.leaf 0x00)
def pre190 : List Byte := [0x00, 0x00, 0x00, 0x00, 0x82, 0x00, 0x00, 0x00, 0x00, 0x08, 0x09, 0x00, 0x18, 0x00, 0x00, 0x00]

theorem spells_190 : Spells tree190 pre190 (bitsMsb [0xF7, 0xE0, 0xD7]) :=
  ⟨[true], _, rfl, rfl, ⟨[true], _, rfl, rfl, ⟨[true], _, rfl, rfl, ⟨[true], _, rfl, rfl, ⟨[false, true, true], _,
    rfl, rfl, ⟨[true], _, rfl, rfl, ⟨[true], _, rfl, rfl, ⟨[true], _, rfl, rfl, ⟨[true], _, rfl, rfl, ⟨[false,
    false, false], _, rfl, rfl, ⟨[false, false, true], _, rfl, rfl, ⟨[true], _, rfl, rfl, ⟨[false, true, false],
    _, rfl, rfl, ⟨[true], _, rfl, rfl, ⟨[true], _, rfl, rfl, ⟨[true], _, rfl, rfl, rfl⟩⟩⟩⟩⟩⟩⟩⟩⟩⟩⟩⟩⟩⟩⟩⟩

def recs190 : List Rec := [⟨0, 0, sym 0x41⟩, ⟨0, 0, sym 0x42⟩, ⟨2, 6, sentinel⟩]

theorem cuts_190 : CutsInto (bitsLsb pre190) recs190 false 123 :=
  ⟨recs190, List.replicate 5 false, by decide +kernel, .inl (by decide)⟩

theorem replays_190 : Replays recs190 [] abababab false :=
  ⟨[], false, by unfold IsCopy; decide,
    ⟨[], false, by unfold IsCopy; decide,
      ⟨[0x41, 0x42, 0x41, 0x42, 0x41, 0x42].map sym, false, by unfold IsCopy; decide, ⟨rfl, rfl⟩,
        by unfold SkipsPosition; decide⟩,
      by unfold SkipsPosition; decide⟩,
    by unfold SkipsPosition; decide⟩

/-- V203: V190's container under exactly sufficient capacities. -/
theorem witness_DecompressCompletes :
    (∃ s : State, s.cause = none ∧ s.con.valid = []) ∧
    ∃ (s : State) (T : Tree) (b : Word) (y : List Byte) (q : List Bit) (out : List Byte) (rs : List Rec) (n : Nat)
      (O : List Sym), s.cause = none ∧
      s.con.valid = serTree T ++ be32 b ++ y ∧ treeSize T ≤ 511 ∧ ceil8 b.toNat ≤ y.length ∧
      PayloadBits y b.toNat q ∧ Spells T out q ∧ out.length = s.cfg.preCap ∧ 8 * out.length = s.cfg.bitCap ∧
      CutsInto (bitsLsb out) rs false n ∧ rs.length = s.cfg.tokCap ∧ Replays rs [] O false ∧ O.length = s.cfg.txtCap :=
  ⟨⟨base, by decide⟩,
    ⟨withCon [0x00, 0x00, 0x00, 0x01, 0x08, 0x01, 0x09, 0x00, 0x01, 0x18, 0x01, 0x82, 0x01, 0x00, 0x00, 0x00, 0x00, 0x18,
        0xF7, 0xE0, 0xD7] (fresh ⟨4096, 255, 8, 3, 128, 16, 21⟩), tree190, 24, [0xF7, 0xE0, 0xD7], _, pre190, _, 123, abababab,
      rfl, by decide, by decide, by decide, by unfold PayloadBits; decide, spells_190, by decide, by decide, cuts_190,
      by decide, replays_190, by decide⟩⟩

theorem witness_PresentedDataIsStored :
    (∃ s : State, s.tok.valid.length + 1 = s.cfg.tokCap) ∧ (∃ s : State, s.con.valid.length + 2 = s.cfg.conCap) ∧
    (∃ s : State, s.con.valid.length + 1 = s.cfg.conCap) ∧
    (∃ (s : State) (c : Container), (containerBytes c).length = s.cfg.conCap) ∧
    (∃ s : State, s.cfg.tokCap = s.tok.valid.length) ∧
    (∃ s : State, s.cfg.conCap + 1 = s.con.valid.length + 1) ∧
    ∃ (s : State) (c : Container), s.cfg.conCap + 1 = (containerBytes c).length :=
  ⟨⟨fresh { params with tokCap := 1 }, by decide⟩, ⟨fresh { params with conCap := 2 }, by decide⟩,
    ⟨fresh { params with conCap := 1 }, by decide⟩, ⟨fresh { params with conCap := 10 }, .coded tree126 2 [0x40], by decide⟩,
    ⟨fresh { params with tokCap := 0 }, by decide⟩, ⟨fresh { params with conCap := 0 }, by decide⟩,
    ⟨fresh { params with conCap := 9 }, .coded tree126 2 [0x40], by decide⟩⟩

theorem exists_next {o : Host.Outcome State Fault Refusal} {c : Option Cause} (h : next State.cause o = some c) :
    ∃ t, o = .next t ∧ t.cause = c := by
  cases o with
  | next t => exact ⟨t, rfl, by simpa [next] using h⟩
  | fault f => simp [next] at h
  | refused r => simp [next] at h

/-- A frame is about next states: one that completes, one that faults and one that is refused, for each stage. -/
theorem witness_Frames :
    (∃ s t, exec .find s = .next t ∧ t.cause = none) ∧ (∃ s t, exec (.tenc 0) s = .next t ∧ t.cause = some .tokIndex) ∧
    (∃ s t, exec .epack s = .next t ∧ t.cause = some .badMarker) ∧
    (∃ s t, exec .compress s = .next t ∧ t.cause = none) ∧
    (∃ s t, exec .treeInternal s = .next t ∧ t.cause = some .badMarker) ∧
    ∃ s t, exec (.container .empty) s = .next t ∧ t.cause = none :=
  ⟨⟨withTxt [sym 0x41] base, exists_next (by decide)⟩, ⟨base, exists_next (by decide)⟩,
    ⟨faulted, exists_next (by decide)⟩, ⟨base, exists_next (by decide +kernel)⟩, ⟨faulted, exists_next (by decide)⟩,
    ⟨base, exists_next (by decide)⟩⟩

/-! The faults of EPACK. The coded length of 2^32 bits needs a buffer of more than 2^31 bytes: it is described, not
written out. -/

/-- `n` copies each of the bytes 0, 1 and 2. -/
def three (n : Nat) : List Byte := List.replicate n 0 ++ List.replicate n 1 ++ List.replicate n 2

/-- The frequency table of `three (2 ^ 30)`. -/
def freqThree : Vector Word 256 := tableOf fun v => if v < 3 then 0x40000000 else 0

theorem freqOf_three {n : Nat} (hn : BitVec.ofNat 32 n = (0x40000000 : Word)) : freqOf (three n) = freqThree := by
  have h : ∀ v ∈ List.range 256, BitVec.ofNat 32 ((three n).count (BitVec.ofNat 8 v)) =
      (if v < 3 then 0x40000000 else 0 : Word) := by
    intro v hv
    have hv : v < 256 := by simpa using hv
    by_cases h3 : v < 3
    · have : v = 0 ∨ v = 1 ∨ v = 2 := by omega
      obtain rfl | rfl | rfl := this <;>
        simp [three, List.count_append, List.count_replicate, hn]
    · have hne : ∀ k < 3, (BitVec.ofNat 8 k : Byte) ≠ BitVec.ofNat 8 v := by
        intro k hk he
        have := congrArg BitVec.toNat he
        simp only [BitVec.toNat_ofNat] at this
        omega
      have h0 : (0#8) ≠ BitVec.ofNat 8 v := hne 0 (by decide)
      have h1 : (1#8) ≠ BitVec.ofNat 8 v := hne 1 (by decide)
      have h2 : (2#8) ≠ BitVec.ofNat 8 v := hne 2 (by decide)
      simp [three, List.count_append, List.count_replicate, h3, h0, h1, h2]
  unfold freqOf freqThree tableOf
  congr 2
  exact List.map_congr_left h

/-- The code 2: `0`, 0: `10`, 1: `11`. -/
def codeThree : Vector Code 256 :=
  tableSet (tableSet (tableSet noCodes 2 (some [false])) 0 (some [true, false])) 1 (some [true, true])

theorem length_coded_three (n : Nat) :
    ((three n).flatMap fun v => (tableAt codeThree v).getD []).length = 5 * n := by
  have h (v : Byte) (q : List Bit) (hq : (tableAt codeThree v).getD [] = q) :
      ((List.replicate n v).flatMap fun v => (tableAt codeThree v).getD []).length = n * q.length := by
    rw [List.length_flatMap, List.map_replicate, List.sum_replicate, hq, smul_eq_mul]
  simp only [three, List.flatMap_append, List.length_append]
  rw [h 0 [true, false] (by simp [codeThree, tableAt_tableSet]), h 1 [true, true] (by simp [codeThree, tableAt_tableSet]),
    h 2 [false] (by simp [codeThree, tableAt_tableSet])]
  simp only [List.length_cons, List.length_nil]
  omega

/-- What HBUILD and CTAB leave, from the pieces they are made of. -/
theorem hbuild_ctab {s : State} {f : Vector Word 256} {nodes : List Node} {root : Nat} {T : Tree} {c : Vector Code 256}
    (h0 : s.cause = none) (hf : freqOf s.pre.valid = f) (hb : buildArena f = (nodes, root)) (hn : nodes ≠ [])
    (ht : treeAt nodes nodes.length (BitVec.ofNat 32 root).toNat = some T) (hc : codesOf T = .ok c) :
    exec .hbuild s = .next (setArena nodes root (setFreq f s)) ∧
    exec .ctab (setArena nodes root (setFreq f s)) = .next (setCode c (setArena nodes root (setFreq f s))) := by
  subst hf
  constructor
  · simp only [exec, execHbuild, runCommand, h0, Option.isSome_none, hbuild, hb]
    rfl
  · have hr : rootTree (setArena nodes root (setFreq (freqOf s.pre.valid) s)) = .ok T := by
      simp only [rootTree, setArena_node, setArena_root, ht]
    have hcause : (setArena nodes root (setFreq (freqOf s.pre.valid) s)).cause = none := h0
    simp only [exec, execCtab, runCommand, hcause, Option.isSome_none, ctab, setArena_node, hn, if_false, hr, hc]
    rfl

theorem witness_EpackFaults :
    (∃ (s h c : State) (T : Tree) (coded : List Bit), s.cause = none ∧ s.pre.valid ≠ [] ∧ s.pre.valid.length < 2 ^ 32 ∧
      exec .hbuild s = .next h ∧ exec .ctab h = .next c ∧ treeAt h.node h.node.length h.root.toNat = some T ∧
      coded = s.pre.valid.flatMap (fun v => (tableAt c.code v).getD []) ∧ s.cfg.conCap + 1 = (serTree T).length) ∧
    (∃ (s h c : State) (T : Tree) (coded : List Bit), s.cause = none ∧ s.pre.valid ≠ [] ∧ s.pre.valid.length < 2 ^ 32 ∧
      exec .hbuild s = .next h ∧ exec .ctab h = .next c ∧ treeAt h.node h.node.length h.root.toNat = some T ∧
      coded = s.pre.valid.flatMap (fun v => (tableAt c.code v).getD []) ∧ (serTree T).length ≤ s.cfg.conCap ∧
      2 ^ 32 ≤ coded.length) ∧
    ∃ (s h c : State) (T : Tree) (coded : List Bit), s.cause = none ∧ s.pre.valid ≠ [] ∧ s.pre.valid.length < 2 ^ 32 ∧
      exec .hbuild s = .next h ∧ exec .ctab h = .next c ∧ treeAt h.node h.node.length h.root.toNat = some T ∧
      coded = s.pre.valid.flatMap (fun v => (tableAt c.code v).getD []) ∧ (serTree T).length ≤ s.cfg.conCap ∧
      coded.length < 2 ^ 32 ∧ s.cfg.conCap + 1 = (serTree T).length + 4 + ceil8 coded.length := by
  have h1 (k : Nat) := hbuild_ctab (s := withPre [0x41] (fresh { params with conCap := k })) (f := freqOf [0x41])
    (nodes := [.leaf 1 0x41]) (root := 0) (T := .leaf 0x41) (c := tableSet noCodes 0x41 (some [false])) rfl rfl
    (by decide +kernel) (by decide) (by decide) rfl
  have hn : BitVec.ofNat 32 (2 ^ 30) = (0x40000000 : Word) := by decide
  have hlen (n : Nat) : (three n).length = 3 * n := by simp [three]; omega
  have h3 (n : Nat) (hn : BitVec.ofNat 32 n = (0x40000000 : Word)) := hbuild_ctab (s := withPre (three n) base)
    (f := freqThree) (nodes := [.leaf 0x40000000 0, .leaf 0x40000000 1, .leaf 0x40000000 2, .internal 0x80000000 0 1,
      .internal 0xC0000000 2 3]) (root := 4) (T := .node (.leaf 2) (.node (.leaf 0) (.leaf 1))) (c := codeThree) rfl
    (freqOf_three hn) (by decide +kernel) (by decide) (by decide) (by decide +kernel)
  have h2 : ∀ n, BitVec.ofNat 32 n = (0x40000000 : Word) → 3 * n < 2 ^ 32 → 2 ^ 32 ≤ 5 * n →
      ∃ (s h c : State) (T : Tree) (coded : List Bit), s.cause = none ∧ s.pre.valid ≠ [] ∧ s.pre.valid.length < 2 ^ 32 ∧
      exec .hbuild s = .next h ∧ exec .ctab h = .next c ∧ treeAt h.node h.node.length h.root.toNat = some T ∧
      coded = s.pre.valid.flatMap (fun v => (tableAt c.code v).getD []) ∧ (serTree T).length ≤ s.cfg.conCap ∧
      2 ^ 32 ≤ coded.length := by
    intro n hn hl hc
    refine ⟨withPre (three n) base, _, _, .node (.leaf 2) (.node (.leaf 0) (.leaf 1)), _, rfl, ?_, ?_, (h3 n hn).1,
      (h3 n hn).2, by rfl, rfl, by show 8 ≤ 4096; decide, ?_⟩
    · intro h
      have := hlen n
      rw [show three n = [] from h] at this
      simp at this
      omega
    · exact (hlen n).trans_lt hl
    · exact (length_coded_three n).symm ▸ hc
  exact ⟨⟨_, _, _, .leaf 0x41, _, rfl, by decide, by decide, (h1 1).1, (h1 1).2, by rfl, rfl, by decide⟩,
    h2 (2 ^ 30) hn (by norm_num) (by norm_num),
    ⟨_, _, _, .leaf 0x41, [false], rfl, by decide, by decide, (h1 6).1, (h1 6).2, by rfl, by decide +kernel, by decide,
      by decide, by decide⟩⟩

end Sys2Proof.Tests
end

section
/-! SUPPORT. What the body of each command leaves when it succeeds, and what one step can do: said once, so that frames and
invariants need not unfold a command. -/

namespace Sys2Proof.Machine

variable {s t : State}

/-! ## The match finder -/

theorem find_ok (h : find s = .ok t) :
    ∃ p, posOperand s = .ok p ∧ s.tok.valid.length + 1 ≤ s.cfg.tokCap ∧
      t = setPos (p + (recordAt s.cfg s.txt.valid p).runLength.toNat + 1)
        (setTok (s.tok.valid ++ [recordAt s.cfg s.txt.valid p]) s) := by
  unfold find at h
  split at h
  · cases h
  · rename_i p hp
    split at h
    · cases h
    · rename_i u hu
      obtain ⟨rfl, hl⟩ := appendTok_ok hu
      cases h
      exact ⟨p, hp, hl, rfl⟩

theorem length_tokenizeFrom_le {c : Params} {T : List Sym} {fuel p room q : Nat} {rs : List Rec}
    (h : tokenizeFrom c T fuel p room = .ok (rs, q)) : rs.length ≤ room := by
  induction fuel generalizing p room rs q with
  | zero => cases h; exact Nat.zero_le _
  | succ fuel ih =>
    unfold tokenizeFrom at h
    split at h
    · cases room with
      | zero => cases h
      | succ room =>
        dsimp only at h
        split at h
        · cases h
        · rename_i rs' q' hrs
          cases h
          exact Nat.succ_le_succ (ih hrs)
    · cases h; exact Nat.zero_le _

theorem tokenize_ok (h : tokenize s = .ok t) :
    ∃ rs p, tokenizeFrom s.cfg s.txt.valid s.txt.valid.length 0 s.cfg.tokCap = .ok (rs, p) ∧
      t = setPos p (setTok rs s) := by
  unfold tokenize at h
  split at h
  · cases h
  · rename_i rs p hrs
    cases h
    exact ⟨rs, p, hrs, rfl⟩

/-! ## The token codec -/

theorem tenc_ok {idx : Nat} (h : tenc idx s = .ok t) :
    ∃ r, tokOperand idx s = .ok r ∧ s.bit.valid.length + (encRec r).length ≤ s.cfg.bitCap ∧
      t = setBit (s.bit.valid ++ encRec r) s := by
  unfold tenc at h
  split at h
  · cases h
  · rename_i r hr
    obtain ⟨rfl, hl⟩ := appendBit_ok h
    exact ⟨r, hr, hl, rfl⟩

theorem tdec_ok (h : tdec s = .ok t) :
    ∃ p, bitposOperand s = .ok p ∧ s.tok.valid.length + 1 ≤ s.cfg.tokCap ∧
      t = setTrunc (dec s.bit.valid p).truncated (setBitpos (p + (dec s.bit.valid p).consumed)
        (setTok (s.tok.valid ++ [(dec s.bit.valid p).record]) s)) := by
  unfold tdec at h
  split at h
  · cases h
  · rename_i p hp
    split at h
    · cases h
    · rename_i u hu
      obtain ⟨rfl, hl⟩ := appendTok_ok hu
      cases h
      exact ⟨p, hp, hl, rfl⟩

/-! ## The bitstream -/

theorem b2y_ok (h : b2y s = .ok t) :
    ceil8 s.bit.valid.length ≤ s.cfg.preCap ∧ t = setPre (bytesLsb s.bit.valid) s := by
  unfold b2y at h
  split at h
  · cases h; exact ⟨‹_›, rfl⟩
  · cases h

theorem y2b_ok (h : y2b s = .ok t) :
    8 * s.pre.valid.length ≤ s.cfg.bitCap ∧ t = setBit (bitsLsb s.pre.valid) s := by
  unfold y2b at h
  split at h
  · cases h; exact ⟨‹_›, rfl⟩
  · cases h

theorem packBits_ok {cap : Nat} {rs : List Rec} {q q' : List Bit} (h : packBits cap rs q = .ok q') :
    q' = q ++ rs.flatMap encRec ∧ (q.length ≤ cap → q'.length ≤ cap) := by
  induction rs generalizing q with
  | nil => cases h; simp
  | cons r rs ih =>
    unfold packBits at h
    split at h
    · cases h
    · rename_i q1 hq1
      obtain ⟨rfl, hl⟩ := appended_ok hq1
      obtain ⟨rfl, hcap⟩ := ih h
      exact ⟨by simp, fun _ => hcap hl⟩

theorem pack_ok (h : pack s = .ok t) :
    (s.tok.valid.flatMap encRec).length ≤ s.cfg.bitCap ∧ b2y (setBit (s.tok.valid.flatMap encRec) s) = .ok t := by
  unfold pack at h
  split at h
  · cases h
  · rename_i q hq
    obtain ⟨rfl, hcap⟩ := packBits_ok hq
    exact ⟨hcap (Nat.zero_le _), h⟩

theorem length_unpackFrom_le {fuel room : Nat} {q : List Bit} {u : Unpacked} (h : unpackFrom fuel q room = .ok u) :
    u.records.length ≤ room := by
  induction fuel generalizing q room u with
  | zero => cases h; exact Nat.zero_le _
  | succ fuel ih =>
    unfold unpackFrom at h
    split at h
    · cases room with
      | zero => cases h
      | succ room =>
        dsimp only at h
        split at h
        · cases h; exact Nat.succ_le_succ (Nat.zero_le _)
        · split at h
          · cases h
          · rename_i u' hu'
            cases h
            exact Nat.succ_le_succ (ih hu')
    · cases h; exact Nat.zero_le _

theorem unpack_ok (h : unpack s = .ok t) :
    ∃ b u, y2b s = .ok b ∧ unpackFrom b.bit.valid.length b.bit.valid b.cfg.tokCap = .ok u ∧
      t = setTrunc u.truncated (setBitpos u.consumed (setTok u.records b)) := by
  unfold unpack at h
  split at h
  · cases h
  · rename_i b hb
    split at h
    · cases h
    · rename_i u hu
      cases h
      exact ⟨b, u, hb, hu, rfl⟩

/-! ## The replayer -/

theorem length_emit_le {cap : Nat} {x : Sym} {a b : Replayed} (h : emit cap x a = .ok b) : b.text.length ≤ cap := by
  unfold emit at h
  split at h
  · cases h
  · rename_i xs hxs
    cases h
    exact (appended_ok hxs).2

theorem length_copyRun_le {cap n : Nat} {idx : Int} {a b : Replayed} (h : copyRun cap n idx a = .ok b)
    (ha : a.text.length ≤ cap) : b.text.length ≤ cap := by
  induction n generalizing idx a with
  | zero => cases h; exact ha
  | succ n ih =>
    unfold copyRun at h
    split at h
    · exact ih h ha
    · split at h
      · cases h
      · exact ih h (length_emit_le ‹_›)

theorem length_replayRec_le {cap : Nat} {r : Rec} {a b : Replayed} (h : replayRec cap r a = .ok b)
    (ha : a.text.length ≤ cap) : b.text.length ≤ cap := by
  unfold replayRec at h
  split at h
  · cases h
  · rename_i c hc
    split at h
    · cases h; exact length_copyRun_le hc ha
    · exact length_emit_le h

theorem length_replayRecs_le {cap : Nat} {rs : List Rec} {a b : Replayed} (h : replayRecs cap rs a = .ok b)
    (ha : a.text.length ≤ cap) : b.text.length ≤ cap := by
  induction rs generalizing a with
  | nil => cases h; exact ha
  | cons r rs ih =>
    unfold replayRecs at h
    split at h
    · cases h
    · exact ih h (length_replayRec_le ‹_› ha)

theorem length_strip_le (x : List Sym) : (strip x).length ≤ x.length := by
  simpa [strip] using (List.dropWhile_sublist lineEnd (l := x.reverse)).length_le

theorem replay_ok (h : replay s = .ok t) :
    ∃ a, replayRecs s.cfg.txtCap s.tok.valid ⟨[], false⟩ = .ok a ∧ t = setOor a.oor (setTxt (strip a.text) s) := by
  unfold replay at h
  split at h
  · cases h
  · rename_i a ha
    cases h
    exact ⟨a, ha, rfl⟩

/-! ## The tree -/

theorem hbuild_ok (h : hbuild s = .ok t) :
    t = setArena (buildArena (freqOf s.pre.valid)).1 (buildArena (freqOf s.pre.valid)).2
      (setFreq (freqOf s.pre.valid) s) := by
  cases h; rfl

theorem ctab_ok (h : ctab s = .ok t) : ∃ c, t = setCode c s := by
  unfold ctab at h
  split at h
  · cases h; exact ⟨_, rfl⟩
  · split at h
    · cases h
    · split at h
      · cases h
      · cases h; exact ⟨_, rfl⟩

theorem tser_ok (h : tser s = .ok t) : t = s ∨ ∃ T, rootTree s = .ok T ∧ appendCon (serTree T) s = .ok t := by
  unfold tser at h
  split at h
  · cases h; exact .inl rfl
  · split at h
    · cases h
    · exact .inr ⟨_, ‹_›, h⟩

theorem tdes_ok (h : tdes s = .ok t) :
    ∃ T rest, parseTree (s.con.valid.drop s.conpos.toNat) = .ok (T, rest) ∧
      t = setConpos (s.con.valid.length - rest.length) (setArena (arenaFrom 0 T) 0 s) := by
  unfold tdes at h
  split at h
  · cases h
  · rename_i T rest hT
    cases h
    exact ⟨T, rest, hT, rfl⟩

/-! ## The entropy stage -/

theorem appendPayload_ok (h : appendPayload s = .ok t) :
    ∃ u, appendCon (be32 (BitVec.ofNat 32 (codedBits s.code s.pre.valid).length) ++
        bytesMsb (codedBits s.code s.pre.valid)) s = .ok u ∧
      t = setBitcnt (codedBits s.code s.pre.valid).length u := by
  unfold appendPayload at h
  dsimp only at h
  split at h
  · cases h
  · split at h
    · cases h
    · rename_i u hu
      cases h
      exact ⟨u, hu, rfl⟩

theorem epack_ok (h : epack s = .ok t) :
    ∃ b c, hbuild (setBitcnt 0 (setCon [] s)) = .ok b ∧ ctab b = .ok c ∧
      (t = c ∨ ∃ d, tser c = .ok d ∧ appendPayload d = .ok t) := by
  unfold epack at h
  split at h
  · cases h
  · rename_i b hb
    split at h
    · cases h
    · rename_i c hc
      split at h
      · cases h; exact ⟨b, _, hb, hc, .inl rfl⟩
      · split at h
        · cases h
        · rename_i d hd
          exact ⟨b, c, hb, hc, .inr ⟨d, hd, h⟩⟩

theorem length_walkLeaf_le {v : Byte} {q : List Bit} {room : Nat} {y : List Byte} (h : walkLeaf v q room = .ok y) :
    y.length ≤ room := by
  induction q generalizing room y with
  | nil => cases h; exact Nat.zero_le _
  | cons b q ih =>
    cases b with
    | true => cases h
    | false =>
      cases room with
      | zero => cases h
      | succ room =>
        unfold walkLeaf at h
        split at h
        · cases h; exact Nat.succ_le_succ (ih ‹_›)
        · cases h

theorem length_walkNode_le {l0 r0 l r : Tree} {q : List Bit} {atRoot : Bool} {room : Nat} {y : List Byte}
    (h : walkNode l0 r0 q l r atRoot room = .ok y) : y.length ≤ room := by
  induction q generalizing l r atRoot room y with
  | nil =>
    cases atRoot with
    | true => cases h; exact Nat.zero_le _
    | false => cases h
  | cons b q ih =>
    unfold walkNode at h
    split at h
    · exact ih h
    · cases h
    · split at h
      · cases h; exact Nat.succ_le_succ (ih ‹_›)
      · cases h

theorem length_walkPayload_le {T : Tree} {q : List Bit} {room : Nat} {y : List Byte}
    (h : walkPayload T q room = .ok y) : y.length ≤ room := by
  cases T with
  | leaf v => exact length_walkLeaf_le h
  | node l r => exact length_walkNode_le h

theorem readPayload_ok {b : Nat} {y : List Byte} (h : readPayload b y s = .ok t) :
    ∃ T out, rootTree s = .ok T ∧ walkPayload T ((bitsMsb y).take b) s.cfg.preCap = .ok out ∧
      t = setConpos (s.con.valid.length - y.length + ceil8 b) (setPre out s) := by
  unfold readPayload at h
  split at h
  · cases h
  · split at h
    · cases h
    · rename_i T hT
      split at h
      · cases h
      · rename_i out hout
        cases h
        exact ⟨T, out, hT, hout, rfl⟩

theorem readHeader_ok (h : readHeader s = .ok t) :
    ∃ b y, readPayload b y (setBitcnt b (setConpos (s.con.valid.length - y.length) s)) = .ok t := by
  unfold readHeader at h
  split at h
  · exact ⟨_, _, h⟩
  · cases h

theorem eunpack_ok (h : eunpack s = .ok t) :
    (s.con.valid = [] ∧ t = setArena [] 0 (setConpos 0 (setBitcnt 0 (setPre [] s)))) ∨
      ∃ u, tdes (setConpos 0 (setBitcnt 0 (setPre [] s))) = .ok u ∧ readHeader u = .ok t := by
  unfold eunpack at h
  dsimp only at h
  split at h
  · cases h; exact .inl ⟨‹_›, rfl⟩
  · split at h
    · cases h
    · rename_i u hu
      exact .inr ⟨u, hu, h⟩

/-! ## The pipeline -/

theorem compress_ok (h : compress s = .ok t) : ∃ u v, tokenize s = .ok u ∧ pack u = .ok v ∧ epack v = .ok t := by
  unfold compress at h
  split at h
  · cases h
  · rename_i u hu
    split at h
    · cases h
    · rename_i v hv
      exact ⟨u, v, hu, hv, h⟩

theorem decompress_ok (h : decompress s = .ok t) :
    ∃ u v, eunpack s = .ok u ∧ unpack u = .ok v ∧ replay v = .ok t := by
  unfold decompress at h
  split at h
  · cases h
  · rename_i u hu
    split at h
    · cases h
    · rename_i v hv
      exact ⟨u, v, hu, hv, h⟩

/-! ## The host's accesses -/

@[simp] theorem regWrite_cfg (n : Nat) (v : Word) (s : State) : (regWrite n v s).cfg = s.cfg := by
  unfold regWrite; split <;> rfl

@[simp] theorem bufWrite_cfg (sp : Space) (i v : Nat) (s : State) : (bufWrite sp i v s).cfg = s.cfg := by
  cases sp <;> rfl

@[simp] theorem presentBytes_cfg (y : List Byte) (s : State) : (presentBytes y s).cfg = s.cfg := storeBytes_cfg _ y s

@[simp] theorem loadCon_cfg (y : List Byte) (s : State) : (loadCon y s).cfg = s.cfg := storeBytes_cfg _ y s

/-- What a host access that runs no instruction can leave, in a state `s` from which it is already taken. -/
inductive HostEffect (s : State) : State → Prop where
  | illegal (c : Cause) : HostEffect s (takeIllegal c s)
  | register (n : Nat) (v : Word) : HostEffect s (regWrite n v s)
  | element (sp : Space) (i v : Nat) : HostEffect s (bufWrite sp i v s)
  | answer (r : Option Nat) (d : Nat) : HostEffect s { s with reply := r, draw := d }
  | reset : HostEffect s (resetEvent s)

theorem fetchBytes_run {src : Source} {y : List Byte} {i : Instr} (h : fetchBytes src y s = .run i t) : t = s := by
  unfold fetchBytes at h
  split at h <;> cases h
  rfl

theorem fetchBytes_done {src : Source} {y : List Byte} (h : fetchBytes src y s = .done t) : HostEffect s t := by
  unfold fetchBytes at h
  split at h <;> cases h
  · exact .illegal _
  · exact .illegal _

theorem fetchOp_run {op : HostOp} {i : Instr} (h : fetchOp op s = .run i t) : t = s := by
  cases op with
  | regWrite n v =>
    simp only [fetchOp] at h
    split at h
    · exact fetchBytes_run h
    · cases h
  | present src y => exact fetchBytes_run h
  | regRead | bufRead | bufWrite | reset => cases h

theorem fetchOp_done {op : HostOp} (h : fetchOp op s = .done t) : HostEffect s t := by
  cases op with
  | regRead n => cases h; exact .answer _ s.draw
  | regWrite n v =>
    simp only [fetchOp] at h
    split at h
    · exact fetchBytes_done h
    · cases h; exact .register n v
  | bufRead sp i => cases h; exact .answer _ _
  | bufWrite sp i v => cases h; exact .element sp i v
  | present src y => exact fetchBytes_done h
  | reset => cases h; exact .reset

/-- Everything a step can do when it answers a next state: nothing is pending and nothing happens; or, with the access
taken from those pending, an instruction runs or the access has its own effect. -/
theorem step_next (h : step s = .next t) :
    t = s ∨ ∃ rest, (∃ i, exec i { s with pending := rest } = .next t) ∨ HostEffect { s with pending := rest } t := by
  unfold step fetch at h
  cases hp : s.pending with
  | nil => rw [hp] at h; cases h; exact .inl rfl
  | cons op rest =>
    rw [hp] at h
    dsimp only at h
    refine .inr ⟨rest, ?_⟩
    split at h
    · rename_i i u hu
      cases fetchOp_run hu
      exact .inl ⟨i, h⟩
    · rename_i u hu
      cases h
      exact .inr (fetchOp_done hu)
    · cases h

end Sys2Proof.Machine
end

section
/-! PROOFS. The capacity invariant: every command's body and every host access keep it (00_scope.md R7, 10_state.md R37). -/

namespace Sys2Proof.Safety

open Machine

variable {s t : State}

/-! ## Writes by commands -/

theorem memoryOk_setTxt {xs : List Sym} (h : MemoryOk s) (hl : xs.length ≤ s.cfg.txtCap) : MemoryOk (setTxt xs s) := by
  obtain ⟨hcfg, -, htok, hbit, hpre, hcon⟩ := h
  exact ⟨hcfg, Buffer.wf_fill hl, htok, hbit, hpre, hcon⟩

theorem memoryOk_setTok {xs : List Rec} (h : MemoryOk s) (hl : xs.length ≤ s.cfg.tokCap) : MemoryOk (setTok xs s) := by
  obtain ⟨hcfg, htxt, -, hbit, hpre, hcon⟩ := h
  exact ⟨hcfg, htxt, Buffer.wf_fill hl, hbit, hpre, hcon⟩

theorem memoryOk_setBit {xs : List Bit} (h : MemoryOk s) (hl : xs.length ≤ s.cfg.bitCap) : MemoryOk (setBit xs s) := by
  obtain ⟨hcfg, htxt, htok, -, hpre, hcon⟩ := h
  exact ⟨hcfg, htxt, htok, Buffer.wf_fill hl, hpre, hcon⟩

theorem memoryOk_setPre {xs : List Byte} (h : MemoryOk s) (hl : xs.length ≤ s.cfg.preCap) : MemoryOk (setPre xs s) := by
  obtain ⟨hcfg, htxt, htok, hbit, -, hcon⟩ := h
  exact ⟨hcfg, htxt, htok, hbit, Buffer.wf_fill hl, hcon⟩

theorem memoryOk_setCon {xs : List Byte} (h : MemoryOk s) (hl : xs.length ≤ s.cfg.conCap) : MemoryOk (setCon xs s) := by
  obtain ⟨hcfg, htxt, htok, hbit, hpre, -⟩ := h
  exact ⟨hcfg, htxt, htok, hbit, hpre, Buffer.wf_fill hl⟩

/-- The invariant speaks of the parameters and the five buffers only. -/
theorem MemoryOk.congr (h : MemoryOk s) (hcfg : t.cfg = s.cfg := by rfl) (htxt : t.txt = s.txt := by rfl)
    (htok : t.tok = s.tok := by rfl) (hbit : t.bit = s.bit := by rfl) (hpre : t.pre = s.pre := by rfl)
    (hcon : t.con = s.con := by rfl) : MemoryOk t := by
  unfold MemoryOk Memory.wf at *
  rwa [hcfg, htxt, htok, hbit, hpre, hcon]

theorem memoryOk_setTok_append {r : Rec} (h : MemoryOk s) (hl : s.tok.valid.length + 1 ≤ s.cfg.tokCap) :
    MemoryOk (setTok (s.tok.valid ++ [r]) s) :=
  memoryOk_setTok h (by simpa using hl)

theorem memoryOk_appendCon {y : List Byte} (h : MemoryOk s) (ht : appendCon y s = .ok t) : MemoryOk t := by
  obtain ⟨rfl, hl⟩ := appendCon_ok ht
  exact memoryOk_setCon h (by simpa using hl)

/-! ## The bodies of the commands -/

theorem memoryOk_find (h : MemoryOk s) (ht : find s = .ok t) : MemoryOk t := by
  obtain ⟨p, -, hl, rfl⟩ := find_ok ht
  exact (memoryOk_setTok_append h hl).congr

theorem memoryOk_tokenize (h : MemoryOk s) (ht : tokenize s = .ok t) : MemoryOk t := by
  obtain ⟨rs, p, hrs, rfl⟩ := tokenize_ok ht
  exact (memoryOk_setTok h (length_tokenizeFrom_le hrs)).congr

theorem memoryOk_tenc {idx : Nat} (h : MemoryOk s) (ht : tenc idx s = .ok t) : MemoryOk t := by
  obtain ⟨r, -, hl, rfl⟩ := tenc_ok ht
  exact memoryOk_setBit h (by simpa using hl)

theorem memoryOk_tdec (h : MemoryOk s) (ht : tdec s = .ok t) : MemoryOk t := by
  obtain ⟨p, -, hl, rfl⟩ := tdec_ok ht
  exact (memoryOk_setTok_append h hl).congr

theorem memoryOk_b2y (h : MemoryOk s) (ht : b2y s = .ok t) : MemoryOk t := by
  obtain ⟨hl, rfl⟩ := b2y_ok ht
  exact memoryOk_setPre h (by simpa using hl)

theorem memoryOk_y2b (h : MemoryOk s) (ht : y2b s = .ok t) : MemoryOk t := by
  obtain ⟨hl, rfl⟩ := y2b_ok ht
  exact memoryOk_setBit h (by simpa using hl)

theorem memoryOk_pack (h : MemoryOk s) (ht : pack s = .ok t) : MemoryOk t := by
  obtain ⟨hl, hb⟩ := pack_ok ht
  exact memoryOk_b2y (memoryOk_setBit h hl) hb

theorem memoryOk_unpack (h : MemoryOk s) (ht : unpack s = .ok t) : MemoryOk t := by
  obtain ⟨b, u, hb, hu, rfl⟩ := unpack_ok ht
  exact (memoryOk_setTok (memoryOk_y2b h hb) (length_unpackFrom_le hu)).congr

theorem memoryOk_replay (h : MemoryOk s) (ht : replay s = .ok t) : MemoryOk t := by
  obtain ⟨a, ha, rfl⟩ := replay_ok ht
  exact (memoryOk_setTxt h ((length_strip_le _).trans (length_replayRecs_le ha (Nat.zero_le _)))).congr

theorem memoryOk_hbuild (h : MemoryOk s) (ht : hbuild s = .ok t) : MemoryOk t := by
  cases hbuild_ok ht
  exact h.congr

theorem memoryOk_ctab (h : MemoryOk s) (ht : ctab s = .ok t) : MemoryOk t := by
  obtain ⟨c, rfl⟩ := ctab_ok ht
  exact h.congr

theorem memoryOk_tser (h : MemoryOk s) (ht : tser s = .ok t) : MemoryOk t := by
  obtain rfl | ⟨T, -, hT⟩ := tser_ok ht
  · exact h
  · exact memoryOk_appendCon h hT

theorem memoryOk_tdes (h : MemoryOk s) (ht : tdes s = .ok t) : MemoryOk t := by
  obtain ⟨T, rest, -, rfl⟩ := tdes_ok ht
  exact h.congr

theorem memoryOk_appendPayload (h : MemoryOk s) (ht : appendPayload s = .ok t) : MemoryOk t := by
  obtain ⟨u, hu, rfl⟩ := appendPayload_ok ht
  exact (memoryOk_appendCon h hu).congr

theorem memoryOk_epack (h : MemoryOk s) (ht : epack s = .ok t) : MemoryOk t := by
  obtain ⟨b, c, hb, hc, hrest⟩ := epack_ok ht
  have h0 : MemoryOk (setBitcnt 0 (setCon [] s)) := (memoryOk_setCon h (Nat.zero_le _)).congr
  have hcOk : MemoryOk c := memoryOk_ctab (memoryOk_hbuild h0 hb) hc
  obtain rfl | ⟨d, hd, hp⟩ := hrest
  · exact hcOk
  · exact memoryOk_appendPayload (memoryOk_tser hcOk hd) hp

theorem memoryOk_readPayload {b : Nat} {y : List Byte} (h : MemoryOk s) (ht : readPayload b y s = .ok t) :
    MemoryOk t := by
  obtain ⟨T, out, -, hout, rfl⟩ := readPayload_ok ht
  exact (memoryOk_setPre h (length_walkPayload_le hout)).congr

theorem memoryOk_readHeader (h : MemoryOk s) (ht : readHeader s = .ok t) : MemoryOk t := by
  obtain ⟨b, y, hy⟩ := readHeader_ok ht
  have hs : MemoryOk (setBitcnt b (setConpos (s.con.valid.length - y.length) s)) := h.congr
  exact memoryOk_readPayload hs hy

theorem memoryOk_eunpack (h : MemoryOk s) (ht : eunpack s = .ok t) : MemoryOk t := by
  have h0 : MemoryOk (setConpos 0 (setBitcnt 0 (setPre [] s))) := (memoryOk_setPre h (Nat.zero_le _)).congr
  obtain ⟨-, rfl⟩ | ⟨u, hu, hr⟩ := eunpack_ok ht
  · exact h0
  · exact memoryOk_readHeader (memoryOk_tdes h0 hu) hr

theorem memoryOk_compress (h : MemoryOk s) (ht : compress s = .ok t) : MemoryOk t := by
  obtain ⟨u, v, hu, hv, hw⟩ := compress_ok ht
  exact memoryOk_epack (memoryOk_pack (memoryOk_tokenize h hu) hv) hw

theorem memoryOk_decompress (h : MemoryOk s) (ht : decompress s = .ok t) : MemoryOk t := by
  obtain ⟨u, v, hu, hv, hw⟩ := decompress_ok ht
  exact memoryOk_replay (memoryOk_unpack (memoryOk_eunpack h hu) hv) hw

/-! ## Instructions and steps -/

theorem memoryOk_takeFault {ws : List Res} {c : Cause} (h : MemoryOk s) : MemoryOk (takeFault ws c s) :=
  ⟨(takeFault_cfg ws c s).symm ▸ h.1, wf_takeFault h.2⟩

/-- A command keeps the invariant when its body does: refused it changes nothing, and a fault leaves lengths up to the
capacities. -/
theorem memoryOk_runCommand {ws : List Res} {body : State → Except Stop State} (h : MemoryOk s)
    (hbody : ∀ {t}, MemoryOk s → body s = .ok t → MemoryOk t) (ht : runCommand ws body s = .next t) : MemoryOk t := by
  obtain ⟨-, rfl⟩ | ⟨-, hok⟩ | ⟨-, c, -, rfl⟩ := runCommand_next ht
  · exact h
  · exact hbody h hok
  · exact memoryOk_takeFault h

theorem memoryOk_exec {i : Instr} (h : MemoryOk s) (ht : exec i s = .next t) : MemoryOk t := by
  cases i with
  | clr => cases ht; exact ⟨h.1, wf_clearAll h.2⟩
  | find => exact memoryOk_runCommand h memoryOk_find ht
  | tokenize => exact memoryOk_runCommand h memoryOk_tokenize ht
  | tenc arg => exact memoryOk_runCommand h memoryOk_tenc ht
  | tdec => exact memoryOk_runCommand h memoryOk_tdec ht
  | b2y => exact memoryOk_runCommand h memoryOk_b2y ht
  | y2b => exact memoryOk_runCommand h memoryOk_y2b ht
  | pack => exact memoryOk_runCommand h memoryOk_pack ht
  | unpack => exact memoryOk_runCommand h memoryOk_unpack ht
  | replay => exact memoryOk_runCommand h memoryOk_replay ht
  | hbuild => exact memoryOk_runCommand (ws := writesHbuild) h memoryOk_hbuild ht
  | ctab => exact memoryOk_runCommand h memoryOk_ctab ht
  | tser => exact memoryOk_runCommand h memoryOk_tser ht
  | tdes => exact memoryOk_runCommand h memoryOk_tdes ht
  | epack => exact memoryOk_runCommand h memoryOk_epack ht
  | eunpack => exact memoryOk_runCommand h memoryOk_eunpack ht
  | compress => exact memoryOk_runCommand h memoryOk_compress ht
  | decompress => exact memoryOk_runCommand h memoryOk_decompress ht
  | recSimple d l b => cases ht; exact ⟨h.1, wf_presentRec h.2⟩
  | recExtended d l b0 b1 b2 => cases ht; exact ⟨h.1, wf_presentRec h.2⟩
  | treeLeaf v => cases ht; exact ⟨(presentBytes_cfg _ s).symm ▸ h.1, wf_presentBytes h.2⟩
  | treeInternal => cases ht; exact ⟨(presentBytes_cfg _ s).symm ▸ h.1, wf_presentBytes h.2⟩
  | container c => cases ht; exact ⟨(loadCon_cfg _ s).symm ▸ h.1, wf_loadCon h.2⟩

theorem memoryOk_hostEffect (h : MemoryOk s) (ht : HostEffect s t) : MemoryOk t := by
  cases ht with
  | illegal c =>
    unfold takeIllegal
    split
    · exact h
    · exact h.congr
  | register n v => exact ⟨(regWrite_cfg n v s).symm ▸ h.1, wf_regWrite h.2⟩
  | element sp i v => exact ⟨(bufWrite_cfg sp i v s).symm ▸ h.1, wf_bufWrite h.2⟩
  | answer r d => exact h.congr
  | reset => exact ⟨h.1, wf_resetEvent s⟩

/-- Settles O19: what a command writes was checked against the capacity, what a fault leaves unspecified has a length up to
it, and the host's ports ignore what is beyond it. -/
theorem stepsKeepMemoryOk : Obligations.StepsKeepMemoryOk := by
  intro s t h ht
  obtain rfl | ⟨rest, hrest⟩ := step_next ht
  · exact h
  · have hs : MemoryOk { s with pending := rest } := h.congr
    obtain ⟨i, hi⟩ | he := hrest
    · exact memoryOk_exec hs hi
    · exact memoryOk_hostEffect hs he

/-! ## Reset -/

/-- The open parameters are legal whatever they are: each is read from a word of its range (R7). -/
theorem params_wf : Config.params.Wf := by
  have h1 := Config.rawWindow.isLt
  have h2 := Config.rawMatch.isLt
  exact ⟨⟨le_max_left _ _, max_le (by decide) (Nat.le_of_lt_succ h1)⟩,
    ⟨le_max_left _ _, max_le (by decide) (Nat.le_of_lt_succ h2)⟩, Config.rawTxtCap.isLt, Config.rawTokCap.isLt,
    Config.rawBitCap.isLt, Config.rawPreCap.isLt, Config.rawConCap.isLt⟩

theorem tableAt_reset_code (v : Byte) : tableAt State.reset.code v = none := Vector.getElem_replicate v.isLt

/-- Settles O18: at reset every buffer and the arena are empty and no byte value has a code. -/
theorem invariantsHoldAtReset : Obligations.InvariantsHoldAtReset := by
  have hnone : ∀ v q, tableAt State.reset.code v ≠ some q := fun v q => by simp [tableAt_reset_code]
  have harena : ArenaTree State.reset.node State.reset.root.toNat := ⟨Nat.zero_le _, fun hne => absurd rfl hne⟩
  exact ⟨⟨params_wf, wf_reset⟩, fun _ => harena, fun v q hq => absurd hq (hnone v q),
    fun _ v _ q _ hq => absurd hq (hnone v q)⟩

end Sys2Proof.Safety
end

section
/-! SUPPORT. The tree that HBUILD leaves in the arena, whatever the counts: the merge loop keeps a forest whose leaves are the
byte values in use (44_prefix_tree.md R208 to R210). And the codes CTAB reads off a tree (R213 to R217). -/

namespace Sys2Proof.Safety

open Machine

/-! ## Reading a tree from the arena -/

/-- A tree read from an arena is still read when the arena grows, and with more fuel. -/
theorem treeAt_append_of_le {nodes : List Node} {n n' i : Nat} {T : Tree} (more : List Node)
    (h : treeAt nodes n i = some T) (hn : n ≤ n') : treeAt (nodes ++ more) n' i = some T := by
  induction n generalizing n' i T with
  | zero => simp [treeAt] at h
  | succ n ih =>
    obtain ⟨n', rfl⟩ : ∃ k, n' = k + 1 := ⟨n' - 1, by omega⟩
    have hn' : n ≤ n' := by omega
    unfold treeAt at h ⊢
    cases hi : nodes[i]? with
    | none => simp [hi] at h
    | some node =>
      have hi' : (nodes ++ more)[i]? = some node := by
        rw [List.getElem?_append_left (List.getElem?_eq_some_iff.mp hi).1, hi]
      rw [hi] at h
      rw [hi']
      cases node with
      | leaf w v => exact h
      | internal w l r =>
        dsimp only at h ⊢
        split at h
        · rename_i tl tr hl hr
          rw [ih hl hn', ih hr hn']
          exact h
        · cases h

/-- Arena index `i` holds the root of the tree, every node of which comes at or before it. -/
def HoldsTree (nodes : List Node) (i : Nat) (T : Tree) : Prop :=
  i < nodes.length ∧ treeAt nodes (i + 1) i = some T

theorem HoldsTree.append {nodes : List Node} {i : Nat} {T : Tree} (more : List Node) (h : HoldsTree nodes i T) :
    HoldsTree (nodes ++ more) i T :=
  ⟨h.1.trans_le (by simp), treeAt_append_of_le more h.2 le_rfl⟩

theorem HoldsTree.treeAt_length {nodes : List Node} {i : Nat} {T : Tree} (h : HoldsTree nodes i T) :
    treeAt nodes nodes.length i = some T := by
  simpa using treeAt_append_of_le [] h.2 h.1

theorem holdsTree_leaf {nodes : List Node} {i : Nat} {w : Word} {v : Byte} (h : nodes[i]? = some (.leaf w v)) :
    HoldsTree nodes i (.leaf v) :=
  ⟨(List.getElem?_eq_some_iff.mp h).1, by simp [treeAt, h]⟩

/-- The node that merges two members (R210) holds the tree of both, as long as arena indices fit 16 bits. -/
theorem holdsTree_merge {nodes : List Node} {a b : Nat} {A B : Tree} {w : Word} (ha : HoldsTree nodes a A)
    (hb : HoldsTree nodes b B) (hn : nodes.length ≤ 2 ^ 16) :
    HoldsTree (nodes ++ [.internal w (BitVec.ofNat 16 a) (BitVec.ofNat 16 b)]) nodes.length (.node A B) := by
  obtain ⟨hla, hta⟩ := ha
  obtain ⟨hlb, htb⟩ := hb
  refine ⟨by simp, ?_⟩
  have ea : (BitVec.ofNat 16 a).toNat = a := by rw [BitVec.toNat_ofNat, Nat.mod_eq_of_lt (by omega)]
  have eb : (BitVec.ofNat 16 b).toNat = b := by rw [BitVec.toNat_ofNat, Nat.mod_eq_of_lt (by omega)]
  simp only [treeAt, List.getElem?_concat_length, ea, eb]
  rw [treeAt_append_of_le _ hta hla, treeAt_append_of_le _ htb hlb]

/-! ## The priority structure -/

theorem enqueue_perm (m : Member) (q : List Member) : (enqueue m q).Perm (m :: q) := by
  induction q with
  | nil => exact .refl _
  | cons x q ih =>
    unfold enqueue
    split
    · exact .refl _
    · exact (ih.cons x).trans (.swap m x q)

theorem length_queueOf (i : Nat) (ns : List Node) : (queueOf i ns).length = ns.length := by
  induction ns generalizing i with
  | nil => rfl
  | cons n ns ih => simpa [queueOf, ih] using (enqueue_perm _ (queueOf (i + 1) ns)).length_eq

/-- The members are the roots of trees whose leaves hold the byte values `vs`. -/
def Forest (vs : List Byte) (nodes : List Node) (q : List Member) : Prop :=
  ∃ Ts, List.Forall₂ (fun m => HoldsTree nodes m.index) q Ts ∧ (Ts.flatMap leafValues).Perm vs

theorem Forest.enqueue {vs : List Byte} {nodes : List Node} {m : Member} {q : List Member}
    (h : Forest vs nodes (m :: q)) : Forest vs nodes (enqueue m q) := by
  obtain ⟨Ts, hTs, hvs⟩ := h
  obtain ⟨Us, hUs, hperm⟩ := List.perm_comp_forall₂ (enqueue_perm m q) hTs
  exact ⟨Us, hUs, (hperm.flatMap_right leafValues).trans hvs⟩

/-- The leaves, each a tree of its own (R208). -/
theorem forest_queueOf (w : Byte → Word) (vs : List Byte) (pre : List Node) :
    Forest vs (pre ++ vs.map fun v => .leaf (w v) v) (queueOf pre.length (vs.map fun v => .leaf (w v) v)) := by
  induction vs generalizing pre with
  | nil => exact ⟨[], .nil, .refl _⟩
  | cons v vs ih =>
    obtain ⟨Ts, hTs, hvs⟩ := ih (pre ++ [.leaf (w v) v])
    rw [List.append_assoc, List.length_append] at hTs
    refine Forest.enqueue ⟨.leaf v :: Ts, .cons (holdsTree_leaf (w := w v) (by simp)) hTs, ?_⟩
    simpa [leafValues] using hvs

/-- One merge (R210) keeps the forest's leaves. -/
theorem Forest.merge {vs : List Byte} {nodes : List Node} {a b : Member} {q : List Member} (w : Word)
    (h : Forest vs nodes (a :: b :: q)) (hn : nodes.length ≤ 2 ^ 16) :
    Forest vs (nodes ++ [.internal w (BitVec.ofNat 16 a.index) (BitVec.ofNat 16 b.index)])
      (Machine.enqueue ⟨w, nodes.length⟩ q) := by
  obtain ⟨_, _ | ⟨ha, _ | ⟨hb, hTs⟩⟩, hvs⟩ := h
  have hTs' := hTs.imp fun _ _ hT => HoldsTree.append [.internal w (BitVec.ofNat 16 a.index) (BitVec.ofNat 16 b.index)] hT
  refine Forest.enqueue ⟨.node _ _ :: _, .cons (holdsTree_merge ha hb hn) hTs', ?_⟩
  simpa [leafValues] using hvs

/-- The merge loop ends with one tree that holds all the leaves. -/
theorem mergeFrom_tree {vs : List Byte} {fuel : Nat} {nodes : List Node} {q : List Member} (h : Forest vs nodes q)
    (hq : q ≠ []) (hfuel : q.length ≤ fuel + 1) (hn : nodes.length + q.length ≤ 2 ^ 16) :
    ∃ T, HoldsTree (mergeFrom fuel nodes q).1 (mergeFrom fuel nodes q).2 T ∧ (leafValues T).Perm vs ∧
      (mergeFrom fuel nodes q).1.length + 1 = nodes.length + q.length := by
  induction fuel generalizing nodes q with
  | zero =>
    obtain ⟨a, rfl⟩ : ∃ a, q = [a] := List.length_eq_one_iff.mp (by have := List.length_pos_iff.mpr hq; omega)
    obtain ⟨_, _ | ⟨ha, _ | _⟩, hvs⟩ := h
    exact ⟨_, ha, by simpa using hvs, rfl⟩
  | succ fuel ih =>
    match q with
    | [a] =>
      obtain ⟨_, _ | ⟨ha, _ | _⟩, hvs⟩ := h
      exact ⟨_, ha, by simpa using hvs, rfl⟩
    | a :: b :: q =>
      simp only [List.length_cons] at hfuel hn
      have hlen : (Machine.enqueue ⟨a.weight + b.weight, nodes.length⟩ q).length = q.length + 1 :=
        (enqueue_perm _ q).length_eq
      obtain ⟨T, hT, hvs, hl⟩ := ih (h.merge (a.weight + b.weight) (by omega))
        (List.ne_nil_of_length_pos (by omega)) (by omega) (by simp only [List.length_append, List.length_singleton]; omega)
      refine ⟨T, hT, hvs, ?_⟩
      simp only [List.length_append, List.length_singleton, hlen] at hl
      simp only [mergeFrom, List.length_cons]
      omega

/-! ## The arena that HBUILD builds -/

theorem nodup_allBytes : ((List.range 256).map (BitVec.ofNat 8)).Nodup := by
  refine List.Nodup.map_on (fun x hx y hy h => ?_) List.nodup_range
  have h' := congrArg BitVec.toNat h
  rw [List.mem_range] at hx hy
  simp only [BitVec.toNat_ofNat] at h'
  omega

theorem length_filter_allBytes_le (p : Byte → Bool) :
    (((List.range 256).map (BitVec.ofNat 8)).filter p).length ≤ 256 := by
  simpa using List.length_filter_le p ((List.range 256).map (BitVec.ofNat 8))

theorem nodup_usedValues (f : Vector Word 256) : (usedValues f).Nodup := nodup_allBytes.filter _

theorem length_usedValues_le (f : Vector Word 256) : (usedValues f).length ≤ 256 := length_filter_allBytes_le _

theorem length_valuesOf_le (y : List Byte) : (valuesOf y).length ≤ 256 := length_filter_allBytes_le _

theorem mem_allBytes (v : Byte) : v ∈ (List.range 256).map (BitVec.ofNat 8) :=
  List.mem_map.mpr ⟨v.toNat, List.mem_range.mpr v.isLt, by simp⟩

/-- The values with a count are those that stand in the buffer, as long as the counts fit a word (R207, R208). -/
theorem usedValues_freqOf {y : List Byte} (h : y.length < 2 ^ 32) : usedValues (freqOf y) = valuesOf y := by
  refine List.filter_congr fun v _ => ?_
  have hcount : y.count v < 2 ^ 32 := lt_of_le_of_lt List.count_le_length h
  have hzero : tableAt (freqOf y) v = 0 ↔ y.count v = 0 := by
    rw [freqOf, tableAt_tableOf, BitVec.ofNat_toNat, BitVec.setWidth_eq, ← BitVec.toNat_inj, BitVec.toNat_ofNat,
      Nat.mod_eq_of_lt hcount]
    rfl
  have hmem : tableAt (freqOf y) v ≠ 0 ↔ v ∈ y := by rw [Ne, hzero, List.count_eq_zero, not_not]
  exact decide_eq_decide.mpr hmem

theorem valuesOf_ne_nil {y : List Byte} (h : y ≠ []) : valuesOf y ≠ [] := by
  obtain ⟨v, hv⟩ := List.exists_mem_of_ne_nil y h
  exact List.ne_nil_of_mem (a := v) (List.mem_filter.mpr ⟨mem_allBytes v, by simpa using hv⟩)

/-- The arena holds a tree below its root, with one leaf for each value in use; `k` leaves make `2k - 1` nodes. -/
theorem buildArena_tree {f : Vector Word 256} (h : usedValues f ≠ []) :
    ∃ T, treeAt (buildArena f).1 (buildArena f).1.length (buildArena f).2 = some T ∧
      (leafValues T).Perm (usedValues f) ∧ (buildArena f).2 < (buildArena f).1.length ∧
      (buildArena f).1.length + 1 = 2 * (usedValues f).length := by
  have hle := length_usedValues_le f
  have hl : (leavesOf f).length = (usedValues f).length := by simp [leavesOf]
  have hq : (queueOf 0 (leavesOf f)).length = (usedValues f).length := by rw [length_queueOf, hl]
  have hforest : Forest (usedValues f) (leavesOf f) (queueOf 0 (leavesOf f)) :=
    forest_queueOf (tableAt f) (usedValues f) []
  obtain ⟨T, hT, hvs, hlen⟩ := mergeFrom_tree (fuel := (leavesOf f).length) hforest
    (List.ne_nil_of_length_pos (by rw [hq]; exact List.length_pos_iff.mpr h)) (by omega) (by omega)
  exact ⟨T, hT.treeAt_length, hvs, hT.1, by rw [buildArena, hlen, hq, hl, two_mul]⟩

/-! ## Paths and codes -/

theorem leafValues_ne_nil (T : Tree) : leafValues T ≠ [] := by
  induction T with
  | leaf v => simp [leafValues]
  | node l r ihl _ => simp [leafValues, ihl]

/-- A serialized tree of `k` leaves has `3k - 1` bytes (45_tree_serializer.md R233). -/
theorem length_serTree (T : Tree) : (serTree T).length + 1 = 3 * (leafValues T).length := by
  induction T with
  | leaf v => rfl
  | node l r ihl ihr => simp only [serTree, leafValues, List.length_cons, List.length_append]; omega

/-- A path to a leaf is shorter than the tree has leaves. -/
theorem length_lt_of_follow {T : Tree} {p : List Bit} {v : Byte} (h : follow T p = some (.leaf v)) :
    p.length < (leafValues T).length := by
  induction T generalizing p with
  | leaf w =>
    cases p with
    | nil => simp [leafValues]
    | cons b p => simp [follow] at h
  | node l r ihl ihr =>
    have hl := List.length_pos_iff.mpr (leafValues_ne_nil l)
    have hr := List.length_pos_iff.mpr (leafValues_ne_nil r)
    cases p with
    | nil => simp [follow] at h
    | cons b p =>
      simp only [leafValues, List.length_append, List.length_cons]
      cases b with
      | false => have := ihl (p := p) (by simpa [follow] using h); omega
      | true => have := ihr (p := p) (by simpa [follow] using h); omega

/-- A code of a tree with at most 256 leaves has at most 255 bits (R215). -/
theorem IsCode.length_le {T : Tree} {v : Byte} {q : List Bit} (h : IsCode T v q) (hT : (leafValues T).length ≤ 256) :
    q.length ≤ 255 := by
  cases T with
  | leaf w => obtain ⟨-, rfl⟩ := h; decide
  | node l r => have := length_lt_of_follow h; omega

/-- The walk of CTAB through a tree with distinct leaf values that have no code yet gives each its path from the root of the
walk, and changes no other entry (R217). -/
theorem codeWalk_of_nodup {T : Tree} {path : List Bit} {t : Vector Code 256} (hT : (leafValues T).Nodup)
    (ht : ∀ v ∈ leafValues T, tableAt t v = none) :
    ∃ t', codeWalk T path t = .ok t' ∧ (∀ v ∉ leafValues T, tableAt t' v = tableAt t v) ∧
      ∀ v ∈ leafValues T, ∃ p, tableAt t' v = some (path ++ p) ∧ follow T p = some (.leaf v) := by
  induction T generalizing path t with
  | leaf w =>
    refine ⟨tableSet t w (some path), by simp [codeWalk, ht w (by simp [leafValues])], fun v hv => ?_, fun v hv => ?_⟩
    · rw [tableAt_tableSet, if_neg (by simpa [leafValues] using hv)]
    · obtain rfl : v = w := by simpa [leafValues] using hv
      exact ⟨[], by simp [tableAt_tableSet], rfl⟩
  | node l r ihl ihr =>
    obtain ⟨hl, hr, hlr⟩ := List.nodup_append.mp hT
    have hdisj : ∀ v ∈ leafValues r, v ∉ leafValues l := fun v hv hv' => hlr v hv' v hv rfl
    obtain ⟨t1, h1, hout1, hin1⟩ := ihl (path := path ++ [false]) hl fun v hv => ht v (List.mem_append_left _ hv)
    obtain ⟨t2, h2, hout2, hin2⟩ := ihr (path := path ++ [true]) (t := t1) hr fun v hv => by
      rw [hout1 v (hdisj v hv), ht v (List.mem_append_right _ hv)]
    refine ⟨t2, by simp only [codeWalk, h1, h2], fun v hv => ?_, fun v hv => ?_⟩
    · obtain ⟨hvl, hvr⟩ : v ∉ leafValues l ∧ v ∉ leafValues r := by simpa [leafValues] using hv
      rw [hout2 v hvr, hout1 v hvl]
    · by_cases hvr : v ∈ leafValues r
      · obtain ⟨p, hp, hf⟩ := hin2 v hvr
        exact ⟨true :: p, by simpa using hp, by simpa [follow] using hf⟩
      · have hvl : v ∈ leafValues l := (List.mem_append.mp hv).resolve_right hvr
        obtain ⟨p, hp, hf⟩ := hin1 v hvl
        exact ⟨false :: p, by rw [hout2 v hvr]; simpa using hp, by simpa [follow] using hf⟩

/-- The table of a tree with distinct leaf values: each of them has its code, no other value has one (R213, R214). -/
theorem codesOf_of_nodup {T : Tree} (hT : (leafValues T).Nodup) :
    ∃ c, codesOf T = .ok c ∧ (∀ v ∉ leafValues T, tableAt c v = none) ∧
      ∀ v ∈ leafValues T, ∃ q, tableAt c v = some q ∧ IsCode T v q := by
  have hnone : ∀ v, tableAt noCodes v = none := fun v => by simp [noCodes]
  cases T with
  | leaf w =>
    refine ⟨_, rfl, fun v hv => ?_, fun v hv => ?_⟩
    · rw [tableAt_tableSet, if_neg (by simpa [leafValues] using hv), hnone]
    · obtain rfl : v = w := by simpa [leafValues] using hv
      exact ⟨[false], by simp [tableAt_tableSet], rfl, rfl⟩
  | node l r =>
    obtain ⟨c, hc, hout, hin⟩ := codeWalk_of_nodup (path := []) hT fun v _ => hnone v
    exact ⟨c, hc, fun v hv => by rw [hout v hv, hnone], hin⟩

/-- Coded bits number at most 255 for each byte. -/
theorem length_codedBits_le {c : Vector Code 256} (hc : ∀ v q, tableAt c v = some q → q.length ≤ 255) (y : List Byte) :
    (codedBits c y).length ≤ 255 * y.length := by
  induction y with
  | nil => exact Nat.zero_le _
  | cons v y ih =>
    have hv : ((tableAt c v).getD []).length ≤ 255 := by
      cases hq : tableAt c v with
      | none => simp
      | some q => exact hc v q hq
    simp only [codedBits, List.flatMap_cons, List.length_append, List.length_cons] at ih ⊢
    omega

end Sys2Proof.Safety
end

section
/-! PROOFS. COMPRESS under the sufficient capacities of 00_scope.md R9: each stage completes when there is room for what it
writes, and R9 bounds what each writes. -/

namespace Sys2Proof.Safety

open Machine

variable {s t : State}

/-! ## Completing -/

/-- A command whose body succeeds, no fault being recorded before or after, completes. -/
theorem completes_of_ok {ws : List Res} {body : State → Except Stop State} {P : State → Prop} (hs : s.cause = none)
    (hbody : body s = .ok t) (ht : t.cause = none) (hP : P t) : Completes (runCommand ws body s) P :=
  ⟨t, runCommand_of_ok hs hbody, ht, hP⟩

theorem ceil8_le_ceil8 {m n : Nat} (h : m ≤ n) : ceil8 m ≤ ceil8 n := by unfold ceil8; omega

/-! ## TOKENIZE -/

/-- There is a record at most for every symbol still to cover (R134), so room for that many suffices. -/
theorem tokenizeFrom_of_le {c : Params} {T : List Sym} {fuel p room : Nat} (h : T.length - p ≤ room) :
    ∃ rs q, tokenizeFrom c T fuel p room = .ok (rs, q) ∧ rs.length ≤ T.length - p := by
  induction fuel generalizing p room with
  | zero => exact ⟨[], p, rfl, Nat.zero_le _⟩
  | succ fuel ih =>
    by_cases hp : p < T.length
    · obtain ⟨room, rfl⟩ : ∃ k, room = k + 1 := ⟨room - 1, by omega⟩
      obtain ⟨rs, q, hrs, hl⟩ := ih (p := p + (recordAt c T p).runLength.toNat + 1) (room := room) (by omega)
      refine ⟨recordAt c T p :: rs, q, by simp only [tokenizeFrom, if_pos hp, hrs], ?_⟩
      simp only [List.length_cons]
      omega
    · exact ⟨[], p, by simp only [tokenizeFrom, if_neg hp], Nat.zero_le _⟩

theorem tokenize_of_le (h : s.txt.valid.length ≤ s.cfg.tokCap) :
    ∃ rs p, tokenize s = .ok (setPos p (setTok rs s)) ∧ rs.length ≤ s.txt.valid.length := by
  obtain ⟨rs, p, hrs, hl⟩ := tokenizeFrom_of_le (c := s.cfg) (T := s.txt.valid) (fuel := s.txt.valid.length) (p := 0) h
  exact ⟨rs, p, by simp only [tokenize, hrs], hl⟩

/-! ## PACK -/

theorem length_flatMap_encRec (rs : List Rec) : (rs.flatMap encRec).length = totalWidth rs := by
  rw [List.length_flatMap, totalWidth]
  exact congrArg List.sum (List.map_congr_left fun r _ => length_encRec r)

/-- A record has 41 or 57 bits (R97). -/
theorem recWidth_le (r : Rec) : recWidth r ≤ 57 := by
  have := Bool.toNat_le (symExt r.literal)
  unfold recWidth
  omega

theorem totalWidth_le (rs : List Rec) : totalWidth rs ≤ 57 * rs.length := by
  induction rs with
  | nil => exact Nat.zero_le _
  | cons r rs ih =>
    have := recWidth_le r
    simp only [totalWidth, List.map_cons, List.sum_cons, List.length_cons] at ih ⊢
    omega

theorem packBits_of_le {cap : Nat} {rs : List Rec} {q : List Bit} (h : q.length + totalWidth rs ≤ cap) :
    packBits cap rs q = .ok (q ++ rs.flatMap encRec) := by
  induction rs generalizing q with
  | nil => simp [packBits]
  | cons r rs ih =>
    simp only [totalWidth, List.map_cons, List.sum_cons] at h
    have hr : appended cap .capBit q (encRec r) = .ok (q ++ encRec r) := appended_of_le (by rw [length_encRec]; omega)
    have hrs := ih (q := q ++ encRec r) (by rw [List.length_append, length_encRec, totalWidth]; omega)
    simp only [packBits, hr, hrs, List.flatMap_cons, List.append_assoc]

theorem pack_of_le (hbit : totalWidth s.tok.valid ≤ s.cfg.bitCap)
    (hpre : ceil8 (totalWidth s.tok.valid) ≤ s.cfg.preCap) :
    pack s = .ok (setPre (bytesLsb (s.tok.valid.flatMap encRec)) (setBit (s.tok.valid.flatMap encRec) s)) := by
  have hq : packBits s.cfg.bitCap s.tok.valid [] = .ok (s.tok.valid.flatMap encRec) :=
    packBits_of_le (by simpa using hbit)
  simp only [pack, hq, b2y, setBit_bit, setBit_cfg, Buffer.fill, length_flatMap_encRec, if_pos hpre]

/-! ## EPACK -/

theorem rootTree_of_treeAt {T : Tree} (h : treeAt s.node s.node.length s.root.toNat = some T) : rootTree s = .ok T := by
  simp only [rootTree, h]

theorem ctab_of_nil (h : s.node = []) : ctab s = .ok (setCode noCodes s) := if_pos h

theorem ctab_of_tree {T : Tree} {c : Vector Code 256} (hn : s.node ≠ []) (hT : rootTree s = .ok T)
    (hc : codesOf T = .ok c) : ctab s = .ok (setCode c s) := by
  simp only [ctab, if_neg hn, hT, hc]

theorem tser_of_tree {T : Tree} (hn : s.node ≠ []) (hT : rootTree s = .ok T)
    (hl : s.con.valid.length + (serTree T).length ≤ s.cfg.conCap) :
    tser s = .ok (setCon (s.con.valid ++ serTree T) s) := by
  simp only [tser, if_neg hn, hT, appendCon_of_le hl]

theorem appendPayload_of_le (hbits : (codedBits s.code s.pre.valid).length < 2 ^ 32)
    (hl : s.con.valid.length + 4 + ceil8 (codedBits s.code s.pre.valid).length ≤ s.cfg.conCap) :
    appendPayload s = .ok (setBitcnt (codedBits s.code s.pre.valid).length
      (setCon (s.con.valid ++ (be32 (BitVec.ofNat 32 (codedBits s.code s.pre.valid).length) ++
        bytesMsb (codedBits s.code s.pre.valid))) s)) := by
  have hbe (w : Word) : (be32 w).length = 4 := rfl
  have hcon := appendCon_of_le (s := s) (y := be32 (BitVec.ofNat 32 (codedBits s.code s.pre.valid).length) ++
    bytesMsb (codedBits s.code s.pre.valid)) (by simpa [hbe, ← Nat.add_assoc] using hl)
  simp only [appendPayload, if_neg (Nat.not_le.mpr hbits), hcon]

/-- The state in which EPACK has built the tree (R250): what HBUILD leaves after EPACK's own clearing. -/
def treeBuilt (s : State) : State :=
  setArena (buildArena (freqOf s.pre.valid)).1 (buildArena (freqOf s.pre.valid)).2
    (setFreq (freqOf s.pre.valid) (setBitcnt 0 (setCon [] s)))

theorem hbuild_cleared (s : State) : hbuild (setBitcnt 0 (setCon [] s)) = .ok (treeBuilt s) := rfl

/-- No bytes: no tree, no codes, nothing written (R255). -/
theorem epack_of_nil (h : s.pre.valid = []) : epack s = .ok (setCode noCodes (treeBuilt s)) := by
  have hused : usedValues (freqOf s.pre.valid) = [] := by
    rw [usedValues_freqOf (by simp [h]), h]
    simp [valuesOf]
  have hnode : (treeBuilt s).node = [] := by simp [treeBuilt, buildArena, leavesOf, hused, mergeFrom, queueOf]
  have hpre : (setCode noCodes (treeBuilt s)).pre.valid = [] := h
  simp only [epack, hbuild_cleared, ctab_of_nil hnode, if_pos hpre]

/-- The container, when CON has room for the tree and then for bit count and payload. -/
theorem epack_of_le {T : Tree} {c : Vector Code 256} (hpre : s.pre.valid ≠ []) (hn : (treeBuilt s).node ≠ [])
    (hT : rootTree (treeBuilt s) = .ok T) (hc : codesOf T = .ok c) (hbits : (codedBits c s.pre.valid).length < 2 ^ 32)
    (hl : (serTree T).length + 4 + ceil8 (codedBits c s.pre.valid).length ≤ s.cfg.conCap) :
    epack s = .ok (setBitcnt (codedBits c s.pre.valid).length
      (setCon (serTree T ++ (be32 (BitVec.ofNat 32 (codedBits c s.pre.valid).length) ++
        bytesMsb (codedBits c s.pre.valid))) (setCon (serTree T) (setCode c (treeBuilt s))))) := by
  have hser : tser (setCode c (treeBuilt s)) = .ok (setCon (serTree T) (setCode c (treeBuilt s))) :=
    tser_of_tree hn hT (show 0 + (serTree T).length ≤ s.cfg.conCap by omega)
  have hpay := appendPayload_of_le (s := setCon (serTree T) (setCode c (treeBuilt s))) hbits hl
  have hpre' : (setCode c (treeBuilt s)).pre.valid ≠ [] := hpre
  simp only [epack, hbuild_cleared, ctab_of_tree hn hT hc, if_neg hpre', hser]
  exact hpay

/-- The tree that EPACK builds for some bytes: its leaves are the values that stand there, and every code CTAB reads off it
has at most 255 bits. -/
theorem rootTree_treeBuilt (hpre : s.pre.valid ≠ []) (hlen : s.pre.valid.length < 2 ^ 32) :
    ∃ T c, (treeBuilt s).node ≠ [] ∧ rootTree (treeBuilt s) = .ok T ∧ (leafValues T).Perm (valuesOf s.pre.valid) ∧
      codesOf T = .ok c ∧ ∀ v q, tableAt c v = some q → q.length ≤ 255 := by
  have hused := usedValues_freqOf hlen
  have hle := length_usedValues_le (freqOf s.pre.valid)
  have hne : usedValues (freqOf s.pre.valid) ≠ [] := hused ▸ valuesOf_ne_nil hpre
  obtain ⟨T, hT, hperm, hroot, hnodes⟩ := buildArena_tree hne
  obtain ⟨c, hc, hout, hin⟩ := codesOf_of_nodup (hperm.nodup_iff.mpr (nodup_usedValues _))
  have hrootWord : (treeBuilt s).root.toNat = (buildArena (freqOf s.pre.valid)).2 :=
    Nat.mod_eq_of_lt (by omega)
  refine ⟨T, c, List.ne_nil_of_length_pos (Nat.zero_lt_of_lt hroot), rootTree_of_treeAt ?_, hused ▸ hperm, hc,
    fun v q hq => ?_⟩
  · rw [hrootWord]; exact hT
  · by_cases hv : v ∈ leafValues T
    · obtain ⟨q', hq', hcode⟩ := hin v hv
      obtain rfl : q' = q := by rw [hq] at hq'; exact (Option.some.inj hq').symm
      exact hcode.length_le (hperm.length_eq ▸ hle)
    · rw [hout v hv] at hq; cases hq

/-- EPACK completes when CON has room for the largest tree, 767 bytes, the bit count, and codes of 255 bits. -/
theorem epack_of_capacity (hbits : 255 * s.pre.valid.length < 2 ^ 32)
    (hcon : 771 + ceil8 (255 * s.pre.valid.length) ≤ s.cfg.conCap) : ∃ t, epack s = .ok t ∧ t.cause = s.cause := by
  by_cases hpre : s.pre.valid = []
  · exact ⟨_, epack_of_nil hpre, rfl⟩
  · obtain ⟨T, c, hn, hT, hperm, hc, hcodes⟩ := rootTree_treeBuilt hpre (by omega)
    have hcoded := length_codedBits_le hcodes s.pre.valid
    have hpayload := ceil8_le_ceil8 hcoded
    have hleaves : (leafValues T).length ≤ 256 := hperm.length_eq ▸ length_valuesOf_le _
    have hser := length_serTree T
    exact ⟨_, epack_of_le hpre hn hT hc (by omega) (by omega), rfl⟩

/-! ## COMPRESS -/

/-- Settles O54: R9's capacities leave room for a record of 57 bits for every symbol, for the bytes of those bits, and for
the largest container of those bytes. -/
theorem compressCompletes : Obligations.CompressCompletes := by
  intro s hs _ htxt hcap
  obtain ⟨htok, hbit, hpre, hcon, hbits⟩ := hcap
  obtain ⟨rs, p, htokenize, hrs⟩ := tokenize_of_le (htxt.trans htok)
  have hwidth : totalWidth rs ≤ s.cfg.bitCap := by
    have := totalWidth_le rs
    omega
  have hbytes : ceil8 (totalWidth rs) ≤ s.cfg.preCap := (ceil8_le_ceil8 hwidth).trans hpre
  have hpack := pack_of_le (s := setPos p (setTok rs s)) hwidth hbytes
  have hlen : (bytesLsb (rs.flatMap encRec)).length ≤ s.cfg.preCap := by
    rw [length_bytesLsb, length_flatMap_encRec]
    exact hbytes
  have hpayload := ceil8_le_ceil8 (Nat.mul_le_mul_left 255 hlen)
  obtain ⟨v, hepack, hv⟩ := epack_of_capacity
    (s := setPre (bytesLsb (rs.flatMap encRec)) (setBit (rs.flatMap encRec) (setPos p (setTok rs s))))
    (show 255 * (bytesLsb (rs.flatMap encRec)).length < 2 ^ 32 by omega)
    (show 771 + ceil8 (255 * (bytesLsb (rs.flatMap encRec)).length) ≤ s.cfg.conCap by omega)
  have hcompress : compress s = .ok v := by
    simp only [compress, htokenize, hpack]
    exact hepack
  exact completes_of_ok hs htokenize hs (completes_of_ok hs hpack hs
    (completes_of_ok hs hepack (hv.trans hs) (runCommand_of_ok hs hcompress)))

end Sys2Proof.Safety
end

section
/-! SUPPORT. Trees in the arena and their code tables: what HBUILD and TDES put into the arena is a finite tree below the
root (10_state.md R38), and of the codes CTAB reads off a tree none begins with another's (44_prefix_tree.md R213 to R217). -/

namespace Sys2Proof.Safety

open Machine

/-! ## Trees without repeated leaf values -/

/-- What stands at an index where a tree can be read. -/
theorem treeAt_succ {nodes : List Node} {n i : Nat} {T : Tree} (h : treeAt nodes (n + 1) i = some T) :
    (∃ w v, nodes[i]? = some (.leaf w v) ∧ T = .leaf v) ∨
      ∃ w l r L R, nodes[i]? = some (.internal w l r) ∧ treeAt nodes n l.toNat = some L ∧
        treeAt nodes n r.toNat = some R ∧ T = .node L R := by
  unfold treeAt at h
  split at h
  · cases h
  · rename_i w v hi
    cases h
    exact .inl ⟨w, v, hi, rfl⟩
  · rename_i w l r hi
    split at h
    · rename_i L R hL hR
      cases h
      exact .inr ⟨w, l, r, L, R, hi, hL, hR, rfl⟩
    · cases h

theorem treeAt_fuel_succ {nodes : List Node} {n i : Nat} {T : Tree} (h : treeAt nodes n i = some T) :
    treeAt nodes (n + 1) i = some T := by
  simpa using treeAt_append_of_le [] h n.le_succ

/-- A tree is walked to its end whenever it can be read, and every index met holds a subtree of it, whose leaf values are
among its own. -/
theorem visits_of_treeAt {nodes : List Node} {n i : Nat} {T : Tree} (h : treeAt nodes n i = some T) :
    ∃ xs, visits nodes n i = some xs ∧
      ∀ j ∈ xs, ∃ U, treeAt nodes n j = some U ∧ (leafValues U).Sublist (leafValues T) := by
  induction n generalizing i T with
  | zero => cases h
  | succ n ih =>
    obtain ⟨w, v, hi, rfl⟩ | ⟨w, l, r, L, R, hi, hL, hR, rfl⟩ := treeAt_succ h
    · exact ⟨[i], by simp only [visits, hi], fun j hj => ⟨_, (List.mem_singleton.mp hj) ▸ h, .refl _⟩⟩
    · obtain ⟨xs, hxs, hinL⟩ := ih hL
      obtain ⟨ys, hys, hinR⟩ := ih hR
      refine ⟨i :: (xs ++ ys), by simp only [visits, hi, hxs, hys], fun j hj => ?_⟩
      obtain rfl | hj | hj : j = i ∨ j ∈ xs ∨ j ∈ ys := by simpa using hj
      · exact ⟨_, h, .refl _⟩
      · obtain ⟨U, hU, hsub⟩ := hinL j hj
        exact ⟨U, treeAt_fuel_succ hU, hsub.trans (List.sublist_append_left _ _)⟩
      · obtain ⟨U, hU, hsub⟩ := hinR j hj
        exact ⟨U, treeAt_fuel_succ hU, hsub.trans (List.sublist_append_right _ _)⟩

/-- An index does not hold a tree and a smaller one. -/
theorem ne_of_length_leafValues_lt {nodes : List Node} {n i j : Nat} {T U : Tree} (hT : treeAt nodes (n + 1) i = some T)
    (hU : treeAt nodes n j = some U) (hlt : (leafValues U).length < (leafValues T).length) : j ≠ i := by
  rintro rfl
  cases hT.symm.trans (treeAt_fuel_succ hU)
  exact lt_irrefl _ hlt

/-- A tree whose leaves hold distinct values reaches no index by two paths: the values below it would repeat. -/
theorem nodup_visits {nodes : List Node} {n i : Nat} {T : Tree} (h : treeAt nodes n i = some T)
    (hT : (leafValues T).Nodup) : ∃ xs, visits nodes n i = some xs ∧ xs.Nodup := by
  induction n generalizing i T with
  | zero => cases h
  | succ n ih =>
    obtain ⟨w, v, hi, rfl⟩ | ⟨w, l, r, L, R, hi, hL, hR, rfl⟩ := treeAt_succ h
    · exact ⟨[i], by simp only [visits, hi], List.nodup_singleton i⟩
    · obtain ⟨hLnodup, hRnodup, hLR⟩ := List.nodup_append.mp hT
      obtain ⟨xs, hxs, hxsNodup⟩ := ih hL hLnodup
      obtain ⟨ys, hys, hysNodup⟩ := ih hR hRnodup
      obtain ⟨_, hxs', hinL⟩ := visits_of_treeAt hL
      obtain ⟨_, hys', hinR⟩ := visits_of_treeAt hR
      cases hxs.symm.trans hxs'
      cases hys.symm.trans hys'
      have hlen : (leafValues (.node L R)).length = (leafValues L).length + (leafValues R).length := List.length_append
      have hlenL := List.length_pos_iff.mpr (leafValues_ne_nil L)
      have hlenR := List.length_pos_iff.mpr (leafValues_ne_nil R)
      have hnew : i ∉ xs ++ ys := fun hmem => by
        obtain hj | hj := List.mem_append.mp hmem
        · obtain ⟨U, hU, hsub⟩ := hinL i hj
          exact ne_of_length_leafValues_lt h hU (by have := hsub.length_le; omega) rfl
        · obtain ⟨U, hU, hsub⟩ := hinR i hj
          exact ne_of_length_leafValues_lt h hU (by have := hsub.length_le; omega) rfl
      have hdisj : ∀ j ∈ xs, ∀ k ∈ ys, j ≠ k := by
        rintro j hj _ hk rfl
        obtain ⟨U, hU, hsubL⟩ := hinL j hj
        obtain ⟨_, hU', hsubR⟩ := hinR j hk
        cases hU.symm.trans hU'
        obtain ⟨v, hv⟩ := List.exists_mem_of_ne_nil _ (leafValues_ne_nil U)
        exact hLR v (hsubL.subset hv) v (hsubR.subset hv) rfl
      exact ⟨i :: (xs ++ ys), by simp only [visits, hi, hxs, hys],
        List.nodup_cons.mpr ⟨hnew, List.nodup_append.mpr ⟨hxsNodup, hysNodup, hdisj⟩⟩⟩

/-! ## The arena of HBUILD -/

theorem childrenBelow_mono {m n : Nat} {x : Node} (hmn : m ≤ n) (h : childrenBelow m x) : childrenBelow n x := by
  cases x with
  | leaf w v => trivial
  | internal w l r => exact ⟨h.1.trans_le hmn, h.2.trans_le hmn⟩

/-- The members of the priority structure over an arena's nodes are among their indices. -/
theorem index_lt_of_mem_queueOf {i : Nat} {ns : List Node} {m : Member} (h : m ∈ queueOf i ns) :
    m.index < i + ns.length := by
  induction ns generalizing i with
  | nil => cases h
  | cons n ns ih =>
    simp only [queueOf, (enqueue_perm _ _).mem_iff, List.mem_cons] at h
    rw [List.length_cons]
    obtain rfl | h := h
    · simp
    · have := ih h; omega

/-- Every merge joins two nodes that are in the arena already. -/
theorem childrenBelow_mergeFrom {fuel : Nat} {nodes : List Node} {q : List Member}
    (hnodes : ∀ x ∈ nodes, childrenBelow nodes.length x) (hq : ∀ m ∈ q, m.index < nodes.length) :
    ∀ x ∈ (mergeFrom fuel nodes q).1, childrenBelow (mergeFrom fuel nodes q).1.length x := by
  induction fuel generalizing nodes q with
  | zero => cases q <;> exact hnodes
  | succ fuel ih =>
    match q with
    | [] => exact hnodes
    | [_] => exact hnodes
    | a :: b :: q =>
      have ha : a.index < nodes.length := hq a (by simp)
      have hb : b.index < nodes.length := hq b (by simp)
      refine ih (fun x hx => ?_) fun m hm => ?_
      · obtain hx | rfl : x ∈ nodes ∨ x = _ := by simpa using hx
        · exact childrenBelow_mono (by simp) (hnodes x hx)
        · have hla := Nat.mod_le a.index (2 ^ 16)
          have hlb := Nat.mod_le b.index (2 ^ 16)
          simp only [childrenBelow, BitVec.toNat_ofNat, List.length_append, List.length_singleton]
          omega
      · obtain rfl | hm := List.mem_cons.mp ((enqueue_perm _ q).mem_iff.mp hm)
        · simp
        · have := hq m (by simp [hm])
          simp only [List.length_append, List.length_singleton]
          omega

/-- HBUILD's arena is a tree whatever the counts: its leaves hold distinct values (R208), so no node is reached twice. -/
theorem arenaTree_buildArena (f : Vector Word 256) : ArenaTree (buildArena f).1 (buildArena f).2 := by
  by_cases hused : usedValues f = []
  · have : buildArena f = ([], 0) := by simp [buildArena, leavesOf, hused, mergeFrom, queueOf]
    rw [this]
    exact ⟨Nat.zero_le _, fun hne => absurd rfl hne⟩
  · obtain ⟨T, hT, hperm, hroot, hlen⟩ := buildArena_tree hused
    have hle := length_usedValues_le f
    have hleaves : ∀ x ∈ leavesOf f, childrenBelow (leavesOf f).length x := fun x hx => by
      obtain ⟨v, -, rfl⟩ := List.mem_map.mp hx
      trivial
    exact ⟨by unfold nodeCap; omega, fun _ => ⟨hroot,
      childrenBelow_mergeFrom hleaves fun m hm => by simpa using index_lt_of_mem_queueOf hm,
      nodup_visits hT (hperm.nodup_iff.mpr (nodup_usedValues f))⟩⟩

/-! ## The arena of TDES -/

theorem getElem?_of_cons_prefix_drop {x : Node} {xs nodes : List Node} {i : Nat} (h : x :: xs <+: nodes.drop i) :
    nodes[i]? = some x ∧ xs <+: nodes.drop (i + 1) := by
  obtain ⟨post, hpost⟩ := h
  refine ⟨?_, post, ?_⟩
  · rw [← Nat.add_zero i, ← List.getElem?_drop, ← hpost]; rfl
  · rw [← List.drop_drop, ← hpost]; rfl

theorem prefix_drop_of_append {xs ys nodes : List Node} {i : Nat} (h : xs ++ ys <+: nodes.drop i) :
    xs <+: nodes.drop i ∧ ys <+: nodes.drop (i + xs.length) := by
  obtain ⟨post, hpost⟩ := h
  refine ⟨⟨ys ++ post, by rw [← hpost, List.append_assoc]⟩, post, ?_⟩
  rw [← List.drop_drop, ← hpost, List.append_assoc, List.drop_left]

/-- The arena of a deserialized tree, standing anywhere in an arena at its own indices, is walked in the order of its
indices (45_tree_serializer.md R235). -/
theorem visits_of_arenaFrom {nodes : List Node} {T : Tree} {i fuel : Nat} (h : arenaFrom i T <+: nodes.drop i)
    (hfuel : treeSize T ≤ fuel) (hcap : i + treeSize T ≤ nodeCap) :
    visits nodes fuel i = some (List.range' i (treeSize T)) := by
  induction T generalizing i fuel with
  | leaf v =>
    obtain ⟨fuel, rfl⟩ : ∃ k, fuel = k + 1 := ⟨fuel - 1, by have := one_le_treeSize (.leaf v); omega⟩
    obtain ⟨hi, -⟩ := getElem?_of_cons_prefix_drop h
    simp [visits, hi, treeSize]
  | node l r ihl ihr =>
    simp only [treeSize] at hfuel hcap
    obtain ⟨fuel, rfl⟩ : ∃ k, fuel = k + 1 := ⟨fuel - 1, by omega⟩
    have hcap' : nodeCap = 511 := rfl
    have el : (BitVec.ofNat 16 (i + 1)).toNat = i + 1 := Nat.mod_eq_of_lt (by omega)
    have er : (BitVec.ofNat 16 (i + 1 + treeSize l)).toNat = i + 1 + treeSize l := Nat.mod_eq_of_lt (by omega)
    obtain ⟨hi, hlr⟩ := getElem?_of_cons_prefix_drop h
    obtain ⟨hl, hr⟩ := prefix_drop_of_append hlr
    rw [length_arenaFrom] at hr
    have hxs := ihl hl (fuel := fuel) (by omega) (by omega)
    have hys := ihr hr (fuel := fuel) (by omega) (by omega)
    simp only [visits, hi, el, er, hxs, hys]
    rw [List.range'_append_1, treeSize, Nat.add_assoc 1, Nat.add_comm 1 (_ + _), List.range'_succ]

theorem childrenBelow_arenaFrom {i : Nat} {T : Tree} : ∀ x ∈ arenaFrom i T, childrenBelow (i + treeSize T) x := by
  induction T generalizing i with
  | leaf v => simp [arenaFrom, childrenBelow]
  | node l r ihl ihr =>
    intro x hx
    simp only [arenaFrom, List.mem_cons, List.mem_append] at hx
    simp only [treeSize]
    obtain rfl | hx | hx := hx
    · have hl := Nat.mod_le (i + 1) (2 ^ 16)
      have hr := Nat.mod_le (i + 1 + treeSize l) (2 ^ 16)
      have := one_le_treeSize l
      have := one_le_treeSize r
      simp only [childrenBelow, BitVec.toNat_ofNat]
      omega
    · exact childrenBelow_mono (by omega) (ihl x hx)
    · exact childrenBelow_mono (by omega) (ihr x hx)

/-- A deserialized tree that fits the arena is a tree there, also where its leaf values repeat (R238). -/
theorem arenaTree_arenaFrom {T : Tree} (h : treeSize T ≤ nodeCap) : ArenaTree (arenaFrom 0 T) 0 := by
  have hvisits := visits_of_arenaFrom (nodes := arenaFrom 0 T) (i := 0) (List.prefix_refl _) le_rfl (by simpa using h)
  have hbelow := childrenBelow_arenaFrom (i := 0) (T := T)
  rw [Nat.zero_add] at hbelow
  rw [ArenaTree, length_arenaFrom]
  exact ⟨h, fun _ => ⟨one_le_treeSize T, hbelow, _, hvisits, List.nodup_range'⟩⟩

/-- The root of a tree in the arena fits the register. -/
theorem arenaTree_setArena {nodes : List Node} {root : Nat} (s : State) (h : ArenaTree nodes root) :
    ArenaTree (setArena nodes root s).node (setArena nodes root s).root.toNat := by
  obtain ⟨hlen, htree⟩ := h
  refine ⟨hlen, fun hne => ?_⟩
  obtain ⟨hroot, hchildren, hvisits⟩ := htree hne
  have hcap : nodeCap = 511 := rfl
  have e : (setArena nodes root s).root.toNat = root := Nat.mod_eq_of_lt (by omega)
  rw [e]
  exact ⟨hroot, hchildren, hvisits⟩

/-! ## The code table of CTAB -/

/-- Every code has 1 to 255 bits (10_state.md R23). -/
def CodeLengthsOk (c : Vector Code 256) : Prop := ∀ v q, tableAt c v = some q → 1 ≤ q.length ∧ q.length ≤ 255

/-- What CODE may hold while no fault is recorded (R23, 44_prefix_tree.md R216). -/
def GoodCodes (c : Vector Code 256) : Prop := CodeLengthsOk c ∧ PrefixFree c

theorem goodCodes_of_none {c : Vector Code 256} (h : ∀ v, tableAt c v = none) : GoodCodes c :=
  ⟨fun v q hq => absurd ((h v).symm.trans hq) (by simp), fun v _ q _ hq => absurd ((h v).symm.trans hq) (by simp)⟩

theorem follow_append {T : Tree} {p q : List Bit} : follow T (p ++ q) = (follow T p).bind fun U => follow U q := by
  induction p generalizing T with
  | nil => simp [follow]
  | cons b p ih =>
    cases T with
    | leaf v => simp [follow]
    | node l r => simpa [follow] using ih

/-- A path that leads to a leaf leads no further, so no code begins with another value's. -/
theorem IsCode.not_prefix {T : Tree} {v w : Byte} {p q : List Bit} (hp : IsCode T v p) (hq : IsCode T w q)
    (hvw : v ≠ w) : ¬ p <+: q := by
  rintro ⟨rest, rfl⟩
  cases T with
  | leaf u => exact hvw (hp.1.trans hq.1.symm)
  | node l r =>
    simp only [IsCode] at hp hq
    rw [follow_append, hp, Option.bind_some] at hq
    cases rest with
    | nil => exact hvw (by simpa [follow] using hq)
    | cons b rest => simp [follow] at hq

theorem IsCode.one_le_length {T : Tree} {v : Byte} {q : List Bit} (h : IsCode T v q) : 1 ≤ q.length := by
  cases T with
  | leaf w => obtain ⟨-, rfl⟩ := h; exact le_rfl
  | node l r =>
    cases q with
    | nil => simp [IsCode, follow] at h
    | cons b q => simp

/-- The walk of CTAB fails on a value met twice (R217), so where it succeeds the leaf values are distinct. -/
theorem codeWalk_ok {T : Tree} {path : List Bit} {t t' : Vector Code 256} (h : codeWalk T path t = .ok t') :
    (leafValues T).Nodup ∧ (∀ v ∈ leafValues T, tableAt t v = none) ∧
      ∀ v, tableAt t v ≠ none ∨ v ∈ leafValues T → tableAt t' v ≠ none := by
  induction T generalizing path t t' with
  | leaf w =>
    unfold codeWalk at h
    split at h
    · rename_i hw
      cases h
      refine ⟨List.nodup_singleton w, by simpa [leafValues] using hw, fun v hv => ?_⟩
      rw [tableAt_tableSet]
      split
      · simp
      · exact hv.resolve_right (by simpa [leafValues])
    · cases h
  | node l r ihl ihr =>
    unfold codeWalk at h
    split at h
    · cases h
    · rename_i u hu
      obtain ⟨hl, hlnone, hlset⟩ := ihl hu
      obtain ⟨hr, hrnone, hrset⟩ := ihr h
      have hrfree : ∀ v ∈ leafValues r, tableAt t v = none ∧ v ∉ leafValues l := fun v hv =>
        ⟨by_contra fun hne => hlset v (.inl hne) (hrnone v hv), fun hvl => hlset v (.inr hvl) (hrnone v hv)⟩
      refine ⟨List.nodup_append.mpr ⟨hl, hr, ?_⟩, fun v hv => ?_, fun v hv => ?_⟩
      · rintro v hvl _ hvr rfl
        exact (hrfree v hvr).2 hvl
      · exact (List.mem_append.mp hv).elim (hlnone v) fun hvr => (hrfree v hvr).1
      · by_cases hvr : v ∈ leafValues r
        · exact hrset v (.inr hvr)
        · refine hrset v (.inl (hlset v (hv.imp_right fun hmem => ?_)))
          exact (List.mem_append.mp hmem).resolve_right hvr

theorem nodup_of_codesOf {T : Tree} {c : Vector Code 256} (h : codesOf T = .ok c) : (leafValues T).Nodup := by
  cases T with
  | leaf v => exact List.nodup_singleton v
  | node l r => exact (codeWalk_ok h).1

/-- Distinct byte values are at most 256. -/
theorem length_le_of_nodup {vs : List Byte} (h : vs.Nodup) : vs.length ≤ 256 := by
  simpa using (List.subperm_of_subset h fun v _ => mem_allBytes v).length_le

/-- The codes of a tree have 1 to 255 bits, and none begins with another value's (R215, R216). -/
theorem goodCodes_codesOf {T : Tree} {c : Vector Code 256} (h : codesOf T = .ok c) : GoodCodes c := by
  have hnodup := nodup_of_codesOf h
  obtain ⟨_, hc', hout, hin⟩ := codesOf_of_nodup hnodup
  cases h.symm.trans hc'
  have hcode {v : Byte} {q : List Bit} (hq : tableAt c v = some q) : IsCode T v q := by
    by_cases hv : v ∈ leafValues T
    · obtain ⟨p, hp, hcode⟩ := hin v hv
      cases hq.symm.trans hp
      exact hcode
    · cases hq.symm.trans (hout v hv)
  exact ⟨fun v q hq => ⟨(hcode hq).one_le_length, (hcode hq).length_le (length_le_of_nodup hnodup)⟩,
    fun v w q q' hq hq' hvw => (hcode hq).not_prefix (hcode hq') hvw⟩

/-- CTAB writes CODE only, and leaves a good table there. -/
theorem ctab_goodCodes {s t : State} (h : ctab s = .ok t) : ∃ c, t = setCode c s ∧ GoodCodes c := by
  unfold ctab at h
  split at h
  · cases h
    exact ⟨noCodes, rfl, goodCodes_of_none fun v => by simp [noCodes]⟩
  · split at h
    · cases h
    · split at h
      · cases h
      · rename_i c hc
        cases h
        exact ⟨c, rfl, goodCodes_codesOf hc⟩

end Sys2Proof.Safety
end

section
/-! SUPPORT. What a step can do to the parameters, the recorded fault, the arena and the code table, said once for every
command and every host access. -/

namespace Sys2Proof.Safety

open Machine

variable {s t u : State}

/-! ## Changes of state without a fault -/

/-- A change that leaves the parameters and the recorded fault alone, and leaves the arena and the code table as they were
or good anew. Every command's body that succeeds and every host write is one. -/
structure QuietEffect (s t : State) : Prop where
  cfg : t.cfg = s.cfg
  cause : t.cause = s.cause
  arena : (t.node = s.node ∧ t.root = s.root) ∨ ArenaTree t.node t.root.toNat
  code : t.code = s.code ∨ GoodCodes t.code

theorem QuietEffect.of_same (cfg : t.cfg = s.cfg := by rfl) (cause : t.cause = s.cause := by rfl)
    (node : t.node = s.node := by rfl) (root : t.root = s.root := by rfl) (code : t.code = s.code := by rfl) :
    QuietEffect s t :=
  ⟨cfg, cause, .inl ⟨node, root⟩, .inl code⟩

theorem QuietEffect.trans (h : QuietEffect s t) (h' : QuietEffect t u) : QuietEffect s u := by
  obtain ⟨hcfg, hcause, harena, hcode⟩ := h
  obtain ⟨hcfg', hcause', harena', hcode'⟩ := h'
  refine ⟨hcfg'.trans hcfg, hcause'.trans hcause, ?_, ?_⟩
  · obtain ⟨hnode, hroot⟩ | htree := harena'
    · rw [hnode, hroot]; exact harena
    · exact .inr htree
  · obtain hsame | hgood := hcode'
    · rw [hsame]; exact hcode
    · exact .inr hgood

theorem quietEffect_setArena {nodes : List Node} {root : Nat} (h : ArenaTree nodes root) :
    QuietEffect s (setArena nodes root s) :=
  ⟨rfl, rfl, .inr (arenaTree_setArena s h), .inl rfl⟩

theorem quietEffect_appendCon {y : List Byte} (h : appendCon y s = .ok t) : QuietEffect s t := by
  obtain ⟨rfl, -⟩ := appendCon_ok h
  exact .of_same

/-! ## The bodies of the commands -/

theorem quietEffect_find (h : find s = .ok t) : QuietEffect s t := by
  obtain ⟨p, -, -, rfl⟩ := find_ok h
  exact .of_same

theorem quietEffect_tokenize (h : tokenize s = .ok t) : QuietEffect s t := by
  obtain ⟨rs, p, -, rfl⟩ := tokenize_ok h
  exact .of_same

theorem quietEffect_tenc {idx : Nat} (h : tenc idx s = .ok t) : QuietEffect s t := by
  obtain ⟨r, -, -, rfl⟩ := tenc_ok h
  exact .of_same

theorem quietEffect_tdec (h : tdec s = .ok t) : QuietEffect s t := by
  obtain ⟨p, -, -, rfl⟩ := tdec_ok h
  exact .of_same

theorem quietEffect_b2y (h : b2y s = .ok t) : QuietEffect s t := by
  obtain ⟨-, rfl⟩ := b2y_ok h
  exact .of_same

theorem quietEffect_y2b (h : y2b s = .ok t) : QuietEffect s t := by
  obtain ⟨-, rfl⟩ := y2b_ok h
  exact .of_same

theorem quietEffect_pack (h : pack s = .ok t) : QuietEffect s t := by
  obtain ⟨-, hb⟩ := pack_ok h
  have hbit : QuietEffect s (setBit (s.tok.valid.flatMap encRec) s) := .of_same
  exact hbit.trans (quietEffect_b2y hb)

theorem quietEffect_unpack (h : unpack s = .ok t) : QuietEffect s t := by
  obtain ⟨b, u, hb, -, rfl⟩ := unpack_ok h
  exact (quietEffect_y2b hb).trans .of_same

theorem quietEffect_replay (h : replay s = .ok t) : QuietEffect s t := by
  obtain ⟨a, -, rfl⟩ := replay_ok h
  exact .of_same

theorem quietEffect_hbuild (h : hbuild s = .ok t) : QuietEffect s t := by
  cases hbuild_ok h
  have hfreq : QuietEffect s (setFreq (freqOf s.pre.valid) s) := .of_same
  exact hfreq.trans (quietEffect_setArena (arenaTree_buildArena _))

theorem quietEffect_ctab (h : ctab s = .ok t) : QuietEffect s t := by
  obtain ⟨c, rfl, hc⟩ := ctab_goodCodes h
  exact ⟨rfl, rfl, .inl ⟨rfl, rfl⟩, .inr hc⟩

theorem quietEffect_tser (h : tser s = .ok t) : QuietEffect s t := by
  obtain rfl | ⟨T, -, hT⟩ := tser_ok h
  · exact .of_same
  · exact quietEffect_appendCon hT

theorem quietEffect_tdes (h : tdes s = .ok t) : QuietEffect s t := by
  obtain ⟨T, rest, hT, rfl⟩ := tdes_ok h
  exact (quietEffect_setArena (arenaTree_arenaFrom (parseTree_ok hT).2)).trans .of_same

theorem quietEffect_appendPayload (h : appendPayload s = .ok t) : QuietEffect s t := by
  obtain ⟨u, hu, rfl⟩ := appendPayload_ok h
  exact (quietEffect_appendCon hu).trans .of_same

theorem quietEffect_epack (h : epack s = .ok t) : QuietEffect s t := by
  obtain ⟨b, c, hb, hc, hrest⟩ := epack_ok h
  have hcleared : QuietEffect s (setBitcnt 0 (setCon [] s)) := .of_same
  have hcoded := (hcleared.trans (quietEffect_hbuild hb)).trans (quietEffect_ctab hc)
  obtain rfl | ⟨d, hd, hp⟩ := hrest
  · exact hcoded
  · exact (hcoded.trans (quietEffect_tser hd)).trans (quietEffect_appendPayload hp)

theorem quietEffect_readHeader (h : readHeader s = .ok t) : QuietEffect s t := by
  obtain ⟨b, y, hy⟩ := readHeader_ok h
  obtain ⟨T, out, -, -, rfl⟩ := readPayload_ok hy
  exact .of_same

theorem quietEffect_eunpack (h : eunpack s = .ok t) : QuietEffect s t := by
  have hcleared : QuietEffect s (setConpos 0 (setBitcnt 0 (setPre [] s))) := .of_same
  obtain ⟨-, rfl⟩ | ⟨u, hu, hr⟩ := eunpack_ok h
  · exact hcleared.trans (quietEffect_setArena ⟨Nat.zero_le _, fun hne => absurd rfl hne⟩)
  · exact (hcleared.trans (quietEffect_tdes hu)).trans (quietEffect_readHeader hr)

theorem quietEffect_compress (h : compress s = .ok t) : QuietEffect s t := by
  obtain ⟨u, v, hu, hv, hw⟩ := compress_ok h
  exact ((quietEffect_tokenize hu).trans (quietEffect_pack hv)).trans (quietEffect_epack hw)

theorem quietEffect_decompress (h : decompress s = .ok t) : QuietEffect s t := by
  obtain ⟨u, v, hu, hv, hw⟩ := decompress_ok h
  exact ((quietEffect_eunpack hu).trans (quietEffect_unpack hv)).trans (quietEffect_replay hw)

/-! ## The host's writes -/

theorem quietEffect_storeBytes {i : Nat} {y : List Byte} : QuietEffect s (storeBytes i y s) := by
  induction y generalizing i s with
  | nil => exact .of_same
  | cons x y ih =>
    have hstore : QuietEffect s (storeCon i x s) := .of_same
    exact hstore.trans ih

theorem quietEffect_presentBytes {y : List Byte} : QuietEffect s (presentBytes y s) :=
  quietEffect_storeBytes.trans .of_same

theorem quietEffect_loadCon {y : List Byte} : QuietEffect s (loadCon y s) :=
  quietEffect_storeBytes.trans .of_same

theorem quietEffect_regWrite {n : Nat} {v : Word} : QuietEffect s (regWrite n v s) := by
  unfold regWrite
  split <;> exact .of_same

theorem quietEffect_bufWrite {sp : Space} {i v : Nat} : QuietEffect s (bufWrite sp i v s) := by
  cases sp <;> exact .of_same

/-! ## Instructions and steps -/

/-- Everything an instruction, a host access or a step can do to the parameters, the recorded fault, the arena and the code
table. A fault is recorded only where none was. -/
inductive Effect (s : State) : State → Prop where
  | quiet {t : State} (h : QuietEffect s t) : Effect s t
  | fault (ws : List Res) (c : Cause) (h : s.cause = none) : Effect s (takeFault ws c s)
  | illegal (c : Cause) (h : s.cause = none) : Effect s { s with cause := some c }
  | clr : Effect s (clearAll s)
  | reset : Effect s (resetEvent s)

/-- A command whose body is quiet changes the recorded fault only by taking one. -/
theorem effect_runCommand {ws : List Res} {body : State → Except Stop State}
    (hbody : ∀ {t}, body s = .ok t → QuietEffect s t) (h : runCommand ws body s = .next t) :
    QuietEffect s t ∨ s.cause = none ∧ ∃ c, t = takeFault ws c s := by
  obtain ⟨-, rfl⟩ | ⟨-, hok⟩ | ⟨hs, c, -, rfl⟩ := runCommand_next h
  · exact .inl .of_same
  · exact .inl (hbody hok)
  · exact .inr ⟨hs, c, rfl⟩

/-- Every instruction but CLR is quiet or takes a fault. -/
theorem exec_of_ne_clr {i : Instr} (hi : i ≠ .clr) (h : exec i s = .next t) :
    QuietEffect s t ∨ s.cause = none ∧ ∃ ws c, t = takeFault ws c s := by
  have command {ws : List Res} {body : State → Except Stop State} (hbody : ∀ {t}, body s = .ok t → QuietEffect s t)
      (h : runCommand ws body s = .next t) : QuietEffect s t ∨ s.cause = none ∧ ∃ ws c, t = takeFault ws c s :=
    (effect_runCommand hbody h).imp_right fun ⟨hs, hc⟩ => ⟨hs, ws, hc⟩
  cases i with
  | clr => exact absurd rfl hi
  | find => exact command quietEffect_find h
  | tokenize => exact command quietEffect_tokenize h
  | tenc arg => exact command quietEffect_tenc h
  | tdec => exact command quietEffect_tdec h
  | b2y => exact command quietEffect_b2y h
  | y2b => exact command quietEffect_y2b h
  | pack => exact command quietEffect_pack h
  | unpack => exact command quietEffect_unpack h
  | replay => exact command quietEffect_replay h
  | hbuild => exact command (ws := writesHbuild) quietEffect_hbuild h
  | ctab => exact command quietEffect_ctab h
  | tser => exact command quietEffect_tser h
  | tdes => exact command quietEffect_tdes h
  | epack => exact command quietEffect_epack h
  | eunpack => exact command quietEffect_eunpack h
  | compress => exact command quietEffect_compress h
  | decompress => exact command quietEffect_decompress h
  | recSimple d l b => cases h; exact .inl .of_same
  | recExtended d l b0 b1 b2 => cases h; exact .inl .of_same
  | treeLeaf v => cases h; exact .inl quietEffect_presentBytes
  | treeInternal => cases h; exact .inl quietEffect_presentBytes
  | container c => cases h; exact .inl quietEffect_loadCon

theorem exec_effect {i : Instr} (h : exec i s = .next t) : Effect s t := by
  by_cases hi : i = .clr
  · subst hi
    cases h
    exact .clr
  · obtain hq | ⟨hs, ws, c, rfl⟩ := exec_of_ne_clr hi h
    · exact .quiet hq
    · exact .fault ws c hs

theorem hostEffect_effect (h : HostEffect s t) : Effect s t := by
  cases h with
  | illegal c =>
    unfold takeIllegal
    split
    · exact .quiet .of_same
    · exact .illegal c (by simpa using ‹¬ s.cause.isSome = true›)
  | register n v => exact .quiet quietEffect_regWrite
  | element sp i v => exact .quiet quietEffect_bufWrite
  | answer r d => exact .quiet .of_same
  | reset => exact .reset

/-- What a step does, once the access it takes is off the list of those to come. -/
theorem step_effect (h : step s = .next t) : ∃ rest, Effect { s with pending := rest } t := by
  obtain rfl | ⟨rest, ⟨i, hi⟩ | hhost⟩ := step_next h
  · exact ⟨t.pending, .quiet .of_same⟩
  · exact ⟨rest, exec_effect hi⟩
  · exact ⟨rest, hostEffect_effect hhost⟩

/-! ## What a fault leaves in CODE -/

/-- A fault leaves a code table alone or full of free values, each none or a code of 1 to 255 bits (R23, R297). -/
theorem codeLengthsOk_scramble {k : Nat} {r : Res} (h : CodeLengthsOk s.code) : CodeLengthsOk (scramble k s r).code := by
  cases r
  case code =>
    intro v q hq
    simp only [scramble, tableAt_tableOf] at hq
    unfold boundCode at hq
    split at hq
    · cases hq
    · split at hq
      · cases hq; assumption
      · cases hq
  all_goals exact h

theorem codeLengthsOk_takeFault {ws : List Res} {c : Cause} (h : CodeLengthsOk s.code) :
    CodeLengthsOk (takeFault ws c s).code :=
  List.foldlRecOn (motive := fun u => CodeLengthsOk (State.code u)) ws (scramble s.draw) h
    fun _ hu _ _ => codeLengthsOk_scramble hu

end Sys2Proof.Safety
end

section
/-! PROOFS. What holds of every step: the arena stays a tree (10_state.md R38), no code begins with another's (R23,
44_prefix_tree.md R216), the parameters the same (R36), and a recorded fault until CLR or reset (R35, 60_exceptions.md
R302). -/

namespace Sys2Proof.Safety

open Machine

variable {s t : State}

/-! ## The arena and the code table -/

theorem arenaOk_effect (h : ArenaOk s) (he : Effect s t) : ArenaOk t := by
  cases he with
  | quiet hq =>
    intro hcause
    obtain ⟨hnode, hroot⟩ | htree := hq.arena
    · rw [hnode, hroot]; exact h (hq.cause.symm.trans hcause)
    · exact htree
  | fault ws c _ => exact fun hcause => nomatch hcause
  | illegal c _ => exact fun hcause => nomatch hcause
  | clr => exact fun _ => ⟨Nat.zero_le _, fun hne => absurd rfl hne⟩
  | reset => exact fun _ => ⟨Nat.zero_le _, fun hne => absurd rfl hne⟩

/-- Settles O20: HBUILD and TDES, on their own or inside another command, leave a tree in the arena; nothing else but a
fault, CLR and reset writes it, and the latter two empty it. -/
theorem stepsKeepArenaOk : Obligations.StepsKeepArenaOk := by
  intro s t h ht
  obtain ⟨rest, he⟩ := step_effect ht
  have hs : ArenaOk { s with pending := rest } := h
  exact arenaOk_effect hs he

theorem GoodCodes.codesOk (h : GoodCodes s.code) : CodesOk s := ⟨h.1, fun _ => h.2⟩

theorem codesOk_effect (h : CodesOk s) (he : Effect s t) : CodesOk t := by
  have hreset : GoodCodes State.reset.code := goodCodes_of_none tableAt_reset_code
  obtain ⟨hlen, hfree⟩ := h
  cases he with
  | quiet hq =>
    obtain hsame | hgood := hq.code
    · unfold CodesOk
      rw [hsame, hq.cause]
      exact ⟨hlen, hfree⟩
    · exact hgood.codesOk
  | fault ws c _ => exact ⟨codeLengthsOk_takeFault hlen, fun hcause => nomatch hcause⟩
  | illegal c _ => exact ⟨hlen, fun hcause => nomatch hcause⟩
  | clr => exact GoodCodes.codesOk hreset
  | reset => exact GoodCodes.codesOk hreset

/-- Settles O21: CTAB, on its own or inside another command, leaves the codes of a tree, whatever tree the arena holds;
nothing else but a fault, CLR and reset writes CODE, and the latter two empty it. -/
theorem stepsKeepCodesOk : Obligations.StepsKeepCodesOk := by
  intro s t _ h ht
  obtain ⟨rest, he⟩ := step_effect ht
  have hs : CodesOk { s with pending := rest } := h
  exact codesOk_effect hs he

/-! ## The parameters -/

theorem Effect.cfg_eq (h : Effect s t) : t.cfg = s.cfg := by
  cases h with
  | quiet hq => exact hq.cfg
  | fault ws c _ => exact takeFault_cfg ws c s
  | illegal | clr | reset => rfl

/-- Settles O22: no effect touches the parameters, and the two configuration registers read them. -/
theorem parametersNeverChange : Obligations.ParametersNeverChange := by
  refine ⟨fun s t ht => ?_, fun i s t ht => (exec_effect ht).cfg_eq, fun s => ⟨rfl, rfl⟩⟩
  obtain ⟨rest, he⟩ := step_effect ht
  exact he.cfg_eq

/-! ## The recorded fault -/

/-- The one command word of CLR (30_encoding.md R92). -/
theorem decodeWord_eq_clr {w : Word} (h : decodeWord w = .ok .clr) : w = 1 := by
  have hop : ∀ op : Byte, opcodeMap.lookup op = some .clr → op = 1 := by decide
  unfold decodeWord at h
  dsimp only at h
  split at h
  · cases h
  · split at h
    · cases h
    · rename_i i hi
      split at h
      · rename_i harg
        cases h
        have hlow := congrArg BitVec.toNat (hop _ hi)
        have hhigh := congrArg BitVec.toNat harg
        apply BitVec.eq_of_toNat_eq
        have := w.isLt
        simp only [BitVec.extractLsb'_toNat, Nat.shiftRight_eq_div_pow] at hlow hhigh
        change w.toNat / 2 ^ 0 % 2 ^ 8 = 1 at hlow
        change w.toNat / 2 ^ 8 % 2 ^ 24 = 0 at hhigh
        change w.toNat = 1
        omega
      · cases h

theorem ofLeBytes_lt (y : List Byte) : ofLeBytes y < 256 ^ y.length := by
  induction y with
  | nil => simp [ofLeBytes]
  | cons b y ih =>
    have := b.isLt
    simp only [ofLeBytes, List.length_cons, pow_succ]
    omega

theorem leBytes_ofLeBytes (y : List Byte) : leBytes y.length (ofLeBytes y) = y := by
  induction y with
  | nil => rfl
  | cons b y ih =>
    have hb := b.isLt
    have hdiv : (b.toNat + 256 * ofLeBytes y) / 256 = ofLeBytes y := by omega
    have hmod : BitVec.ofNat 8 (b.toNat + 256 * ofLeBytes y) = b := by
      apply BitVec.eq_of_toNat_eq
      rw [BitVec.toNat_ofNat]
      omega
    simp only [ofLeBytes, List.length_cons, leBytes, hdiv, hmod, ih]

theorem source_of_decodeRecord {y : List Byte} {i : Instr} (h : decodeRecord y = .ok i) : i.source = .record := by
  unfold decodeRecord at h
  dsimp only at h
  split at h
  · cases h
  · split at h
    · cases h; rfl
    · split at h <;> cases h
      rfl

theorem source_of_decodeTreeNode {y : List Byte} {i : Instr} (h : decodeTreeNode y = .ok i) :
    i.source = .treeNode := by
  unfold decodeTreeNode at h
  split at h
  · cases h
  · split at h
    · split at h <;> cases h
      rfl
    · split at h
      · split at h <;> cases h
        rfl
      · cases h

theorem source_of_decodeContainer {y : List Byte} {i : Instr} (h : decodeContainer y = .ok i) :
    i.source = .container := by
  unfold decodeContainer at h
  split at h
  · cases h
  · split at h <;> cases h
    rfl

/-- The bytes that present CLR: of the four formats only the command word's spells a command. -/
theorem decode_eq_clr {src : Source} {y : List Byte} (h : decode src y = .ok .clr) :
    src = .command ∧ y = [1, 0, 0, 0] := by
  cases src with
  | command =>
    simp only [decode] at h
    split at h
    · rename_i hlen
      have hw := congrArg BitVec.toNat (decodeWord_eq_clr h)
      have hlt := ofLeBytes_lt y
      have hy := leBytes_ofLeBytes y
      rw [hlen] at hlt hy
      rw [BitVec.toNat_ofNat, Nat.mod_eq_of_lt (show ofLeBytes y < 2 ^ 32 from hlt)] at hw
      rw [hw] at hy
      exact ⟨rfl, hy.symm⟩
    · cases h
  | record => cases source_of_decodeRecord h
  | treeNode => cases source_of_decodeTreeNode h
  | container => cases source_of_decodeContainer h

/-- The accesses that run CLR (60_exceptions.md R302). -/
theorem fetchOp_eq_clr {op : HostOp} (h : fetchOp op s = .run .clr t) :
    op = .regWrite 0 1 ∨ op = .present .command [1, 0, 0, 0] := by
  have hbytes {src : Source} {y : List Byte} (h : fetchBytes src y s = .run .clr t) :
      src = .command ∧ y = [1, 0, 0, 0] := by
    unfold fetchBytes at h
    split at h <;> cases h
    exact decode_eq_clr ‹_›
  cases op with
  | regWrite n v =>
    simp only [fetchOp] at h
    split at h
    · rename_i hn
      obtain ⟨-, hv⟩ := hbytes h
      have hv' := congrArg ofLeBytes hv
      rw [ofLeBytes_leBytes, Nat.mod_eq_of_lt (show v.toNat < 256 ^ 4 from v.isLt)] at hv'
      exact .inl (by rw [hn, BitVec.eq_of_toNat_eq (y := 1) hv'])
    · cases h
  | present src y =>
    obtain ⟨rfl, rfl⟩ := hbytes h
    exact .inr rfl
  | regRead | bufRead | bufWrite | reset => cases h

/-- A host access that runs no instruction keeps a recorded fault, unless it is a reset. -/
theorem fetchOp_done_cause {op : HostOp} (h : fetchOp op s = .done t) (hs : s.cause.isSome) (hop : op ≠ .reset) :
    t.cause = s.cause := by
  have hbytes {src : Source} {y : List Byte} (h : fetchBytes src y s = .done t) : t.cause = s.cause := by
    unfold fetchBytes at h
    split at h <;> cases h
    all_goals simp only [takeIllegal, if_pos hs]
  cases op with
  | regWrite n v =>
    simp only [fetchOp] at h
    split at h
    · exact hbytes h
    · cases h; exact quietEffect_regWrite.cause
  | present src y => exact hbytes h
  | bufWrite sp i v => cases h; exact quietEffect_bufWrite.cause
  | regRead | bufRead => cases h; rfl
  | reset => exact absurd rfl hop

/-- Settles O8: every command but CLR is refused while a fault is recorded, or its body or access is quiet. -/
theorem faultClearsOnlyByClrOrReset : Obligations.FaultClearsOnlyByClrOrReset := by
  intro s t h hs hne
  unfold step fetch at h
  cases hp : s.pending with
  | nil => rw [hp] at h; cases h; exact absurd rfl hne
  | cons op rest =>
    rw [hp] at h
    dsimp only at h
    refine ⟨op, rest, rfl, ?_⟩
    split at h
    · rename_i i u hu
      cases fetchOp_run hu
      by_cases hi : i = .clr
      · subst hi
        cases h
        exact ⟨(fetchOp_eq_clr hu).imp_right .inl, rfl⟩
      · obtain hq | ⟨hnone, -⟩ := exec_of_ne_clr hi h
        · exact absurd hq.cause hne
        · rw [show s.cause = none from hnone] at hs; cases hs
    · rename_i u hu
      cases h
      by_cases hop : op = .reset
      · subst hop
        cases hu
        exact ⟨.inr (.inr rfl), rfl⟩
      · exact absurd (fetchOp_done_cause hu hs hop) hne
    · cases h

end Sys2Proof.Safety
end

section
/-! PROOFS. The registers and the ports: what STATUS and FINFO say of the recorded fault (10_state.md R35, 60_exceptions.md
R295, R296), the register port (10_state.md R34, R37, 20_memory.md R66), what a host read answers (R67), and the reset
values (10_state.md R46). -/

namespace Sys2Proof.Safety

open Machine

variable {s : State}

/-! ## STATUS and FINFO -/

/-- The rows of the table of 60_exceptions.md R296, read from code and sub-reason. -/
def causeOf : Nat → Nat → Option Cause
  | 1, 1 => some .unknownOpcode
  | 1, 2 => some .nonzeroArg
  | 2, 1 => some .tokIndex
  | 2, 2 => some .txtPos
  | 2, 3 => some .bitPos
  | 3, 1 => some .capTxt
  | 3, 2 => some .capTok
  | 3, 3 => some .capBit
  | 3, 4 => some .capPre
  | 3, 5 => some .capCon
  | 3, 6 => some .capNode
  | 3, 7 => some .capBitCount
  | 4, 1 => some .badMarker
  | 4, 2 => some .treeTruncated
  | 4, 3 => some .headerTruncated
  | 4, 4 => some .payloadTruncated
  | 4, 5 => some .leafRootOneBit
  | 4, 6 => some .partialCode
  | 4, 7 => some .dupLeaf
  | _, _ => none

theorem causeOf_codes (c : Cause) : causeOf (causeCode c) (causeInfo c) = some c := by cases c <;> rfl

theorem causeCode_range (c : Cause) : 1 ≤ causeCode c ∧ causeCode c ≤ 4 := by cases c <;> decide

theorem causeInfo_range (c : Cause) : 1 ≤ causeInfo c ∧ causeInfo c ≤ 7 := by cases c <;> decide

/-- The number in FINFO. -/
def infoField (s : State) : Nat := (s.cause.map causeInfo).getD 0

theorem infoField_le (s : State) : infoField s ≤ 7 := by
  unfold infoField
  cases s.cause with
  | none => exact Nat.zero_le _
  | some c => exact (causeInfo_range c).2

theorem faultField_le (s : State) : faultField s ≤ 4 := by
  unfold faultField
  cases s.cause with
  | none => exact Nat.zero_le _
  | some c => exact (causeCode_range c).2

theorem toNat_finfo (s : State) : (regRead s 2).toNat = infoField s := by
  have := infoField_le s
  exact Nat.mod_eq_of_lt (show infoField s < 2 ^ 32 by omega)

/-- Code and sub-reason are those of a row exactly when a fault is recorded, and of that fault's row. -/
theorem causeOf_fields (s : State) : causeOf (faultField s) (infoField s) = s.cause := by
  unfold faultField infoField
  cases s.cause with
  | none => rfl
  | some c => exact causeOf_codes c

theorem faultField_eq_zero : faultField s = 0 ↔ s.cause = none := by
  unfold faultField
  cases s.cause with
  | none => simp
  | some c => have := causeCode_range c; simp; omega

theorem infoField_eq_zero : infoField s = 0 ↔ s.cause = none := by
  unfold infoField
  cases s.cause with
  | none => simp
  | some c => have := causeInfo_range c; simp; omega

theorem toNat_status (s : State) :
    (regRead s 1).toNat = s.trunc.toNat + 2 * s.oor.toNat + 256 * faultField s := by
  have := Bool.toNat_le s.trunc
  have := Bool.toNat_le s.oor
  have := faultField_le s
  exact Nat.mod_eq_of_lt (by omega)

/-- Settles O9: the fields of STATUS do not overlap, and each fault is one row of R296's table. -/
theorem statusAndFinfoNameTheFault : Obligations.StatusAndFinfoNameTheFault := by
  refine ⟨fun s => ?_, fun s => ⟨faultField_eq_zero, faultField_le s, ?_⟩, fun s t hcode hinfo => ?_⟩
  · have hstatus := toNat_status s
    have hfault := faultField_le s
    have hbit (b : Bool) : b = decide (b.toNat = 1) := by cases b <;> rfl
    have htrunc := Bool.toNat_le s.trunc
    have hoor := Bool.toNat_le s.oor
    refine ⟨?_, ?_, ?_, ?_, ?_, fun v => rfl⟩
    · rw [← BitVec.testBit_toNat, hstatus, Nat.testBit_zero]
      exact (decide_eq_decide.mpr (by omega)).trans (hbit s.trunc).symm
    · rw [← BitVec.testBit_toNat, hstatus, Nat.testBit_succ, Nat.testBit_zero]
      exact (decide_eq_decide.mpr (by omega)).trans (hbit s.oor).symm
    all_goals
      rw [BitVec.extractLsb'_toNat, hstatus, Nat.shiftRight_eq_div_pow]
      omega
  · rw [← infoField_eq_zero, ← toNat_finfo, ← BitVec.toNat_inj]
    rfl
  · have hinfo' : infoField s = infoField t := by rw [← toNat_finfo, hinfo, toNat_finfo]
    rw [← causeOf_fields, ← causeOf_fields t, hcode, hinfo']

/-! ## The register port -/

theorem length_lengthWrite {α : Type} (free : Nat → Nat → α) {cap n : Nat} (b : Buffer α) (h : n ≤ cap) :
    (lengthWrite free cap n b).valid.length = n := by
  rw [lengthWrite, if_pos h, Buffer.length_resize]

theorem elem_lengthWrite {α : Type} (free : Nat → Nat → α) (cap n : Nat) (b : Buffer α) (i : Nat) :
    (lengthWrite free cap n b).elem free i = b.elem free i := by
  unfold lengthWrite
  split
  · exact Buffer.elem_resize free b n i
  · rfl

theorem lengthWrite_of_lt {α : Type} (free : Nat → Nat → α) {cap n : Nat} (b : Buffer α) (h : cap < n) :
    lengthWrite free cap n b = b := if_neg (Nat.not_le.mpr h)

/-- No register but the written one changes: each write updates one field, and no other register reads it. -/
theorem regRead_regWrite_of_ne {n m : Nat} (v : Word) (h : m ≠ n) : regRead (regWrite n v s) m = regRead s m := by
  unfold regWrite
  split
  all_goals
    unfold regRead
    split <;> simp_all [statusWord, finfoWord, faultField]

theorem regRead_of_ge {n : Nat} (h : 16 ≤ n) : regRead s n = 0 := by
  obtain ⟨k, rfl⟩ := Nat.exists_eq_add_of_le' h
  rfl

theorem regWrite_of_ge {n : Nat} (v : Word) (h : 16 ≤ n) : regWrite n v s = s := by
  obtain ⟨k, rfl⟩ := Nat.exists_eq_add_of_le' h
  rfl

theorem ofNat_length_lengthWrite {α : Type} (free : Nat → Nat → α) {cap : Nat} {v : Word} (b : Buffer α)
    (h : v.toNat ≤ cap) : BitVec.ofNat 32 (lengthWrite free cap v.toNat b).valid.length = v := by
  rw [length_lengthWrite free b h, BitVec.ofNat_toNat, BitVec.setWidth_eq]

/-- Settles O10: a cursor is stored as it is, a length that fits becomes the buffer's. -/
theorem registerPort : Obligations.RegisterPort := by
  have hreg {s : State} {v : Word} {n : Nat} (m : Nat) (hn : regRead (regWrite n v s) n = v) :
      regRead (regWrite n v s) m = if m = n then v else regRead s m := by
    split
    · rename_i hm
      rw [hm, hn]
    · exact regRead_regWrite_of_ne v ‹_›
  refine ⟨fun s v n m hn => hreg m ?_, fun s v n m hn => hreg m ?_, fun s v n hn => ?_, fun s n hn => ?_⟩
  · obtain rfl | rfl | rfl := hn <;> rfl
  · obtain ⟨rfl, h⟩ | ⟨rfl, h⟩ | ⟨rfl, h⟩ | ⟨rfl, h⟩ | ⟨rfl, h⟩ := hn <;> exact ofNat_length_lengthWrite _ _ h
  · obtain hn | hn := hn
    · simp only [List.mem_cons, List.not_mem_nil, or_false] at hn
      obtain rfl | rfl | rfl | rfl | rfl | rfl | rfl := hn <;> rfl
    · exact regWrite_of_ge v hn
  · obtain rfl | hn := hn
    · rfl
    · exact regRead_of_ge hn

/-- Settles O11: each length register is a `lengthWrite` of its buffer and of nothing else. -/
theorem lengthWrites : Obligations.LengthWrites := by
  refine ⟨fun s v => ⟨fun h => ?_, fun h => ?_⟩, fun s v => ⟨fun h => ?_, fun h => ?_⟩,
    fun s v => ⟨fun h => ?_, fun h => ?_⟩, fun s v => ⟨fun h => ?_, fun h => ?_⟩,
    fun s v => ⟨fun h => ?_, fun h => ?_⟩⟩
  · exact ⟨length_lengthWrite _ _ h, fun i => ⟨elem_lengthWrite _ _ _ _ i, rfl, rfl, rfl, rfl⟩, rfl⟩
  · exact congrArg (fun b => { s with txt := b }) (lengthWrite_of_lt _ _ h)
  · exact ⟨length_lengthWrite _ _ h, fun i => ⟨rfl, elem_lengthWrite _ _ _ _ i, rfl, rfl, rfl⟩, rfl⟩
  · exact congrArg (fun b => { s with tok := b }) (lengthWrite_of_lt _ _ h)
  · exact ⟨length_lengthWrite _ _ h, fun i => ⟨rfl, rfl, elem_lengthWrite _ _ _ _ i, rfl, rfl⟩, rfl⟩
  · exact congrArg (fun b => { s with bit := b }) (lengthWrite_of_lt _ _ h)
  · exact ⟨length_lengthWrite _ _ h, fun i => ⟨rfl, rfl, rfl, elem_lengthWrite _ _ _ _ i, rfl⟩, rfl⟩
  · exact congrArg (fun b => { s with pre := b }) (lengthWrite_of_lt _ _ h)
  · exact ⟨length_lengthWrite _ _ h, fun i => ⟨rfl, rfl, rfl, rfl, elem_lengthWrite _ _ _ _ i⟩, rfl⟩
  · exact congrArg (fun b => { s with con := b }) (lengthWrite_of_lt _ _ h)

/-! ## The buffer port -/

/-- What the port answers for an index of a buffer of capacity `cap` (20_memory.md R67). -/
theorem portRead_spec {α : Type} (free : Nat → Nat → α) (number : α → Nat) (draw cap : Nat) (valid : List α) (i : Nat) :
    (cap ≤ i → portRead free number draw cap valid i = 0) ∧
      (i < cap → ∃ x, portRead free number draw cap valid i = number x ∧ ∀ y, valid[i]? = some y → x = y) :=
  ⟨fun h => if_neg (Nat.not_lt.mpr h),
    fun h => ⟨valid[i]?.getD (free draw i), if_pos h, fun y hy => by rw [hy, Option.getD_some]⟩⟩

/-- Settles O14: the six list spaces are read by `portRead`, and the two tables have an entry for every byte value. -/
theorem bufferPortReads : Obligations.BufferPortReads := by
  refine ⟨fun _ _ => portRead_spec .., fun _ _ => portRead_spec .., fun _ _ => portRead_spec .., fun _ _ => portRead_spec ..,
    fun _ _ => portRead_spec .., fun _ _ => portRead_spec .., fun s => ⟨fun v => ⟨?_, ?_⟩, fun i hi => ⟨?_, ?_⟩⟩⟩
  · exact dif_pos v.isLt
  · exact dif_pos v.isLt
  · exact dif_neg (Nat.not_lt.mpr hi)
  · exact dif_neg (Nat.not_lt.mpr hi)

/-! ## Reset and CLR -/

/-- The state that reset and CLR lead to, as the registers show it: everything but the configuration is 0 or empty
(10_state.md R46, 47_pipeline.md R275). -/
structure Cleared (s : State) : Prop where
  cause : s.cause = none
  trunc : s.trunc = false
  oor : s.oor = false
  txt : s.txt.valid = []
  tok : s.tok.valid = []
  bit : s.bit.valid = []
  pre : s.pre.valid = []
  con : s.con.valid = []
  node : s.node = []
  root : s.root = 0
  pos : s.pos = 0
  bitpos : s.bitpos = 0
  conpos : s.conpos = 0
  bitcnt : s.bitcnt = 0
  code : s.code = State.reset.code
  freq : s.freq = State.reset.freq

theorem cleared_reset : Cleared State.reset := by constructor <;> rfl

theorem cleared_resetEvent (s : State) : Cleared (resetEvent s) := by constructor <;> rfl

theorem cleared_clearAll (s : State) : Cleared (clearAll s) := by
  have hempty {α : Type} (free : Nat → Nat → α) (b : Buffer α) : (b.resize free 0).valid = [] :=
    List.eq_nil_of_length_eq_zero (Buffer.length_resize free b 0)
  exact ⟨rfl, rfl, rfl, hempty Config.freeSym s.txt, hempty Config.freeRec s.tok, hempty Config.freeBit s.bit,
    hempty Config.freePre s.pre, hempty Config.freeCon s.con, rfl, rfl, rfl, rfl, rfl, rfl, rfl, rfl⟩

/-- Every register of a cleared state but the two of the configuration reads 0. -/
theorem Cleared.regRead (h : Cleared s) (n : Nat) : Machine.regRead s n =
    if n = 3 then BitVec.ofNat 32 s.cfg.windowSize else if n = 4 then BitVec.ofNat 32 s.cfg.maxMatch else 0 := by
  unfold Machine.regRead
  obtain ⟨⟩ := h
  split <;> simp_all [statusWord, finfoWord, faultField]

theorem Cleared.tables (h : Cleared s) (v : Byte) : tableAt s.code v = none ∧ tableAt s.freq v = 0 := by
  rw [h.code, h.freq]
  exact ⟨tableAt_reset_code v, Vector.getElem_replicate v.isLt⟩

/-- Settles O16: reset, the reset event and CLR each lead to a cleared state, and the parameters stay. -/
theorem resetStateAndClrAgree : Obligations.ResetStateAndClrAgree := by
  refine ⟨cleared_reset.regRead, cleared_reset.tables, fun s => (cleared_resetEvent s).regRead,
    fun s => (cleared_resetEvent s).tables, fun s t ht => ?_⟩
  cases ht
  have hclr := cleared_clearAll s
  have hreset := cleared_resetEvent s
  exact ⟨fun n => (hclr.regRead n).trans (hreset.regRead n).symm, rfl, rfl, hclr.txt, hclr.tok, hclr.bit, hclr.pre,
    hclr.con, rfl⟩

end Sys2Proof.Safety
end

section
/-! PROOFS. The host's memory accesses: that a step is the next access's effect (20_memory.md R66, R67, R71), what a host
write does to a buffer (R67, R68), how the port shows an element and narrows a written one (R61), and what presenting a
datum leaves (30_encoding.md R97, R101, R108). -/

namespace Sys2Proof.Safety

open Machine

variable {s t : State} {op : HostOp} {rest : List HostOp} {i : Instr}

/-! ## The buffer port's writes -/

theorem elem_portStore {α : Type} (free : Nat → Nat → α) {cap k : Nat} (x : α) (b : Buffer α) (h : k < cap) (j : Nat) :
    (portStore cap k x b).elem free j = if j = k then x else b.elem free j := by
  rw [portStore, if_pos h, Buffer.elem_store]

theorem portStore_of_le {α : Type} {cap k : Nat} (x : α) (b : Buffer α) (h : cap ≤ k) : portStore cap k x b = b :=
  if_neg (Nat.not_lt.mpr h)

/-- Settles O12: a host write of any of the five buffers is a `portStore` of that buffer and of nothing else. -/
theorem bufferPortWrites : Obligations.BufferPortWrites := by
  refine ⟨fun s i v => ⟨fun h => ?_, fun h => ?_⟩, fun s i v => ⟨fun h => ?_, fun h => ?_⟩,
    fun s i v => ⟨fun h => ?_, fun h => ?_⟩, fun s i v => ⟨fun h => ?_, fun h => ?_⟩,
    fun s i v => ⟨fun h => ?_, fun h => ?_⟩⟩
  · exact ⟨elem_portStore _ _ _ h, Buffer.length_portStore _ _ _ _, rfl⟩
  · exact congrArg (fun b => { s with txt := b }) (portStore_of_le _ _ h)
  · exact ⟨elem_portStore _ _ _ h, Buffer.length_portStore _ _ _ _, rfl⟩
  · exact congrArg (fun b => { s with tok := b }) (portStore_of_le _ _ h)
  · exact ⟨elem_portStore _ _ _ h, Buffer.length_portStore _ _ _ _, rfl⟩
  · exact congrArg (fun b => { s with bit := b }) (portStore_of_le _ _ h)
  · exact ⟨elem_portStore _ _ _ h, Buffer.length_portStore _ _ _ _, rfl⟩
  · exact congrArg (fun b => { s with pre := b }) (portStore_of_le _ _ h)
  · exact ⟨elem_portStore _ _ _ h, Buffer.length_portStore _ _ _ _, rfl⟩
  · exact congrArg (fun b => { s with con := b }) (portStore_of_le _ _ h)

/-- Settles O13: `bufWrite` has no effect on the three read-only spaces. -/
theorem readOnlySpaces : Obligations.ReadOnlySpaces := fun _ _ _ => ⟨rfl, rfl, rfl⟩

/-! ## The layout at the port -/

theorem valLsb_append (p q : List Bit) : valLsb (p ++ q) = valLsb p + 2 ^ p.length * valLsb q := by
  induction p with
  | nil => simp [valLsb]
  | cons b p ih => rw [List.cons_append, valLsb, valLsb, ih, List.length_cons]; ring

theorem valLsb_lsbBits_toNat {w : Nat} (x : BitVec w) : valLsb (lsbBits x.toNat w) = x.toNat := by
  rw [valLsb_lsbBits, Nat.mod_eq_of_lt x.isLt]

/-- The number of a symbol is its bytes, and above them the bit that says which kind of symbol it is. -/
theorem symNumber_eq (x : Sym) : symNumber x = valLsb (litBits x) + 2 ^ 24 * (symExt x).toNat := by
  cases x with
  | simple b => simp [symNumber, litBits, symExt, valLsb_lsbBits_toNat]
  | extended b0 b1 b2 =>
    simp only [symNumber, litBits, symExt, valLsb_append, valLsb_lsbBits_toNat, List.length_append, length_lsbBits,
      Bool.toNat_true, Nat.mul_one]

theorem valLsb_litBits_lt (x : Sym) : valLsb (litBits x) < 2 ^ 24 :=
  (valLsb_lt _).trans_le (Nat.pow_le_pow_right (by decide)
    (by have := Bool.toNat_le (symExt x); rw [length_litBits]; omega))

theorem valLsb_litBits (x : Sym) : valLsb (litBits x) = symNumber x % 2 ^ 24 := by
  have := valLsb_litBits_lt x
  rw [symNumber_eq]
  omega

/-- The number of a record as the sum of its fields, each shifted to its place (20_memory.md R61, 30_encoding.md R96). -/
theorem recNumber_eq (r : Rec) : recNumber r =
    r.distance.toNat + 2 ^ 16 * r.runLength.toNat + 2 ^ 32 * (symExt r.literal).toNat +
      2 ^ 33 * (symNumber r.literal % 2 ^ 24) := by
  simp only [recNumber, encRec, valLsb_append, valLsb_lsbBits_toNat, valLsb_litBits, List.length_append, length_lsbBits,
    List.length_singleton, valLsb, Nat.mul_zero, Nat.add_zero]

theorem recNumber_fields (r : Rec) :
    recNumber r % 2 ^ 16 = r.distance.toNat ∧ recNumber r / 2 ^ 16 % 2 ^ 16 = r.runLength.toNat ∧
      recNumber r / 2 ^ 32 % 2 = (symExt r.literal).toNat ∧ recNumber r / 2 ^ 33 = symNumber r.literal % 2 ^ 24 := by
  have hd := r.distance.isLt
  have hl := r.runLength.isLt
  have he := Bool.toNat_le (symExt r.literal)
  rw [recNumber_eq]
  omega

theorem nodeNumber_leaf_fields (w : Word) (v : Byte) :
    nodeNumber (.leaf w v) % 2 = 1 ∧ nodeNumber (.leaf w v) / 2 % 2 ^ 32 = w.toNat ∧
      nodeNumber (.leaf w v) / 2 ^ 33 = v.toNat := by
  have hw := w.isLt
  rw [nodeNumber]
  omega

theorem nodeNumber_internal_fields (w : Word) (l r : BitVec 16) :
    nodeNumber (.internal w l r) % 2 = 0 ∧ nodeNumber (.internal w l r) / 2 % 2 ^ 32 = w.toNat ∧
      nodeNumber (.internal w l r) / 2 ^ 33 % 2 ^ 8 = 0 ∧ nodeNumber (.internal w l r) / 2 ^ 41 % 2 ^ 16 = l.toNat ∧
      nodeNumber (.internal w l r) / 2 ^ 57 = r.toNat := by
  have hw := w.isLt
  have hl := l.isLt
  rw [nodeNumber]
  omega

/-- A code's length has its eight bits to itself, as it is at most 255 (10_state.md R23). -/
theorem codeNumber_some {q : List Bit} (h : q.length ≤ 255) :
    codeNumber (some q) % 2 ^ 8 = q.length ∧ ∀ i, (codeNumber (some q)).testBit (8 + i) = q[i]?.getD false := by
  have hdiv : codeNumber (some q) / 2 ^ 8 = valLsb q := by rw [codeNumber]; omega
  refine ⟨by rw [codeNumber]; omega, fun i => ?_⟩
  rw [Nat.add_comm, ← Nat.testBit_div_two_pow, hdiv, testBit_valLsb]

theorem ofNat_eq_of_mod {w n : Nat} {x : BitVec w} (h : n % 2 ^ w = x.toNat) : BitVec.ofNat w n = x :=
  BitVec.eq_of_toNat_eq h

theorem ofNat_congr_mod {w m n : Nat} (h : m % 2 ^ w = n % 2 ^ w) : BitVec.ofNat w m = BitVec.ofNat w n :=
  BitVec.eq_of_toNat_eq h

theorem byteAt_eq (v i : Nat) : byteAt v i = BitVec.ofNat 8 (v / 2 ^ i) := by rw [byteAt, Nat.shiftRight_eq_div_pow]

/-- The narrowing of a written symbol (20_memory.md R61). -/
theorem symOfNumber_eq (v : Nat) : symOfNumber v =
    if v / 2 ^ 24 % 2 = 0 then .simple (BitVec.ofNat 8 v)
    else .extended (BitVec.ofNat 8 v) (BitVec.ofNat 8 (v / 2 ^ 8)) (BitVec.ofNat 8 (v / 2 ^ 16)) := by
  simp only [symOfNumber, byteAt_eq, pow_zero, Nat.div_one, Nat.testBit_eq_decide_div_mod_eq, decide_eq_true_eq]
  by_cases h : v / 2 ^ 24 % 2 = 0
  · rw [if_pos h, if_neg (by omega)]
  · rw [if_neg h, if_pos (by omega)]

/-- The symbol of 24 bits of `x`, and the last bit of `n` above them. -/
theorem symOfNumber_low (x n : Nat) : symOfNumber (x % 2 ^ 24 + n % 2 * 2 ^ 24) =
    if n % 2 = 0 then .simple (BitVec.ofNat 8 x)
    else .extended (BitVec.ofNat 8 x) (BitVec.ofNat 8 (x / 2 ^ 8)) (BitVec.ofNat 8 (x / 2 ^ 16)) := by
  have hext : (x % 2 ^ 24 + n % 2 * 2 ^ 24) / 2 ^ 24 % 2 = n % 2 := by omega
  have h0 : (x % 2 ^ 24 + n % 2 * 2 ^ 24) % 2 ^ 8 = x % 2 ^ 8 := by omega
  have h1 : (x % 2 ^ 24 + n % 2 * 2 ^ 24) / 2 ^ 8 % 2 ^ 8 = x / 2 ^ 8 % 2 ^ 8 := by omega
  have h2 : (x % 2 ^ 24 + n % 2 * 2 ^ 24) / 2 ^ 16 % 2 ^ 8 = x / 2 ^ 16 % 2 ^ 8 := by omega
  rw [symOfNumber_eq, hext, ofNat_congr_mod h0, ofNat_congr_mod h1, ofNat_congr_mod h2]

/-- The narrowing of a written record: its literal is the symbol of the bits from 33 on, of the kind that bit 32 says. -/
theorem recOfNumber_eq (v : Nat) : recOfNumber v =
    ⟨BitVec.ofNat 16 v, BitVec.ofNat 16 (v / 2 ^ 16), symOfNumber (v / 2 ^ 33 % 2 ^ 24 + v / 2 ^ 32 % 2 * 2 ^ 24)⟩ := by
  have h41 : v / 2 ^ 33 / 2 ^ 8 = v / 2 ^ 41 := Nat.div_div_eq_div_mul v (2 ^ 33) (2 ^ 8)
  have h49 : v / 2 ^ 33 / 2 ^ 16 = v / 2 ^ 49 := Nat.div_div_eq_div_mul v (2 ^ 33) (2 ^ 16)
  rw [symOfNumber_low, h41, h49]
  simp only [recOfNumber, byteAt_eq, Nat.shiftRight_eq_div_pow, Nat.testBit_eq_decide_div_mod_eq, decide_eq_true_eq]
  by_cases h : v / 2 ^ 32 % 2 = 0
  · rw [if_pos h, if_neg (by omega)]
  · rw [if_neg h, if_pos (by omega)]

theorem symNumber_extended_fields (b0 b1 b2 : Byte) : symNumber (.extended b0 b1 b2) / 2 ^ 24 = 1 ∧
    symNumber (.extended b0 b1 b2) % 2 ^ 8 = b0.toNat ∧ symNumber (.extended b0 b1 b2) / 2 ^ 8 % 2 ^ 8 = b1.toNat ∧
    symNumber (.extended b0 b1 b2) / 2 ^ 16 % 2 ^ 8 = b2.toNat := by
  have h0 := b0.isLt
  have h1 := b1.isLt
  have h2 := b2.isLt
  rw [symNumber]
  omega

theorem symOfNumber_symNumber (x : Sym) : symOfNumber (symNumber x) = x := by
  rw [symOfNumber_eq]
  cases x with
  | simple b =>
    have hb : b.toNat < 2 ^ 8 := b.isLt
    rw [symNumber, if_pos (by omega), BitVec.ofNat_toNat, BitVec.setWidth_eq]
  | extended b0 b1 b2 =>
    obtain ⟨hext, h0, h1, h2⟩ := symNumber_extended_fields b0 b1 b2
    rw [if_neg (by omega), ofNat_eq_of_mod h0, ofNat_eq_of_mod h1, ofNat_eq_of_mod h2]

theorem recOfNumber_recNumber (r : Rec) : recOfNumber (recNumber r) = r := by
  obtain ⟨hd, hl, hext, hlit⟩ := recNumber_fields r
  have hsym : symNumber r.literal % 2 ^ 24 % 2 ^ 24 + (symExt r.literal).toNat * 2 ^ 24 = symNumber r.literal := by
    rw [Nat.mod_mod, ← valLsb_litBits, Nat.mul_comm, ← symNumber_eq]
  rw [recOfNumber_eq, ofNat_eq_of_mod hd, ofNat_eq_of_mod hl, hext, hlit, hsym, symOfNumber_symNumber]

/-- Settles O15: each number is the sum of its fields at disjoint places, so that each field can be read from it. -/
theorem portLayout : Obligations.PortLayout :=
  ⟨fun _ => rfl, symNumber_extended_fields, fun r => testBit_valLsb (encRec r), recNumber_fields, nodeNumber_leaf_fields,
    nodeNumber_internal_fields, rfl, fun _ _ h => codeNumber_some h, symOfNumber_eq, recOfNumber_eq,
    symOfNumber_symNumber, recOfNumber_recNumber⟩

/-! ## Presenting a datum -/

/-- Without room both accesses that present a record, the write of the element and of the length, do nothing. -/
theorem presentRec_full {r : Rec} (h : s.cfg.tokCap ≤ s.tok.valid.length) : presentRec r s = s := by
  have hstore : storeTok s.tok.valid.length r s = s :=
    congrArg (fun b => { s with tok := b }) (portStore_of_le r s.tok h)
  rw [presentRec, hstore]
  exact congrArg (fun b => { s with tok := b }) (lengthWrite_of_lt Config.freeRec s.tok (Nat.lt_succ_of_le h))

theorem valid_portStore_of_le {α : Type} {cap k : Nat} (x : α) {b : Buffer α} (h : b.valid.length ≤ k) :
    (portStore cap k x b).valid = b.valid := by
  unfold portStore Buffer.store
  split
  · rw [if_neg (Nat.not_lt.mpr h)]
  · rfl

theorem valid_storeBytes_of_le {k : Nat} {y : List Byte} (h : s.con.valid.length ≤ k) :
    (storeBytes k y s).con.valid = s.con.valid := by
  induction y generalizing k s with
  | nil => rfl
  | cons x y ih =>
    have hx : (storeCon k x s).con.valid = s.con.valid := valid_portStore_of_le x h
    rw [storeBytes, ih (by rw [hx]; exact Nat.le_succ_of_le h), hx]

theorem writeConLen_of_lt {n : Nat} (h : s.cfg.conCap < n) : writeConLen n s = s :=
  congrArg (fun b => { s with con := b }) (lengthWrite_of_lt Config.freeCon s.con h)

/-- Without room for all of them, bytes presented at the end of CON are stored beyond the length, which stays. -/
theorem presentBytes_valid_of_lt {y : List Byte} (h : s.cfg.conCap < s.con.valid.length + y.length) :
    (presentBytes y s).con.valid = s.con.valid := by
  rw [presentBytes, writeConLen_of_lt (by rwa [storeBytes_cfg]), valid_storeBytes_of_le le_rfl]

theorem loadCon_length_of_lt {y : List Byte} (h : s.cfg.conCap < y.length) :
    (loadCon y s).con.valid.length = s.con.valid.length := by
  rw [loadCon, writeConLen_of_lt (by rwa [storeBytes_cfg]), storeBytes_length]

/-- Settles O57: a record is one element of TOK, a tree node or container a run of bytes of CON; the length is written
after the elements, and a length above the capacity is ignored. -/
theorem presentedDataIsStored : Obligations.PresentedDataIsStored := by
  have hrec {s : State} (r : Rec) (h : s.tok.valid.length < s.cfg.tokCap) :
      (presentRec r s).tok.valid = s.tok.valid ++ [r] := by rw [presentRec_valid, if_pos h]
  refine ⟨fun s d l b h => ⟨_, rfl, hrec _ h⟩, fun s d l b0 b1 b2 h => ⟨_, rfl, hrec _ h⟩,
    fun s v h => ⟨_, rfl, presentBytes_valid h⟩, fun s h => ⟨_, rfl, presentBytes_valid h⟩,
    fun s c h => ⟨_, rfl, loadCon_valid h⟩, fun s => ⟨fun h d l b b0 b1 b2 => ⟨?_, ?_⟩,
      fun h v => ⟨_, rfl, presentBytes_valid_of_lt h⟩, fun h => ⟨_, rfl, presentBytes_valid_of_lt h⟩,
      fun c h => ⟨_, rfl, loadCon_length_of_lt h⟩⟩⟩
  · exact congrArg Host.Outcome.next (presentRec_full h)
  · exact congrArg Host.Outcome.next (presentRec_full h)

/-! ## The step -/

theorem step_of_pending_nil (h : s.pending = []) : step s = .next s := by
  rw [step, fetch, h]

theorem step_of_fetchOp_run (hp : s.pending = op :: rest) (h : fetchOp op { s with pending := rest } = .run i t) :
    step s = exec i t := by
  simp only [step, fetch, hp, h]

theorem step_of_fetchOp_done (hp : s.pending = op :: rest) (h : fetchOp op { s with pending := rest } = .done t) :
    step s = .next t := by
  simp only [step, fetch, hp, h]

theorem fetchBytes_of_decode {src : Source} {y : List Byte} (h : decode src y = .ok i) : fetchBytes src y s = .run i s := by
  rw [fetchBytes, h]

/-- The four bytes of a command word decode as the word. -/
theorem decode_leBytes (w : Word) : decode .command (leBytes 4 w.toNat) = decodeWord w := by
  have hw : BitVec.ofNat 32 (ofLeBytes (leBytes 4 w.toNat)) = w := by
    rw [ofLeBytes_leBytes]
    exact ofNat_eq_of_mod ((Nat.mod_mod _ _).trans (Nat.mod_eq_of_lt w.isLt))
  rw [decode, if_pos (length_leBytes _ _), hw]

/-- Settles O1: the fetch takes the access off the list and decodes its bytes. -/
theorem stepRunsTheInstruction : Obligations.StepRunsTheInstruction :=
  ⟨fun _ _ w _ hp hw => step_of_fetchOp_run hp (fetchBytes_of_decode ((decode_leBytes w).trans hw)),
    fun _ _ _ _ _ hp hy => step_of_fetchOp_run hp (fetchBytes_of_decode hy)⟩

/-- Settles O2: no other access presents bytes to decode, so the fetch already leaves its whole effect. -/
theorem stepTakesEveryOtherAccess : Obligations.StepTakesEveryOtherAccess :=
  ⟨fun _ => step_of_pending_nil, fun _ _ _ hp => step_of_fetchOp_done hp rfl,
    fun _ _ _ _ hp hn => step_of_fetchOp_done hp (if_neg hn), fun _ _ _ _ hp => step_of_fetchOp_done hp rfl,
    fun _ _ _ _ _ hp => step_of_fetchOp_done hp rfl, fun _ _ hp => step_of_fetchOp_done hp rfl⟩

end Sys2Proof.Safety
end

section
/-! PROOFS. Decoding and encoding: the command word (30_encoding.md R90 to R93), the record's wire form bit by bit (R96, R97,
20_memory.md R61), the tree node (R101), the container (R108, R114), and the two commands that append a wire form, TENC and
TSER (41_token_codec.md R153, 45_tree_serializer.md R231). -/

namespace Sys2Proof.Safety

open Machine

variable {s : State} {i : Instr}

/-! ## The command word -/

theorem encode_of_source_command (h : i.source = .command) : encode i = leBytes 4 (encodeWord i).toNat := by
  cases i with
  | recSimple | recExtended | treeLeaf | treeInternal | container => cases h
  | _ => rfl

/-- A word is its argument above its opcode (30_encoding.md R90). -/
theorem append_extractLsb'_word (w : Word) : w.extractLsb' 8 24 ++ w.extractLsb' 0 8 = w :=
  (BitVec.extractLsb'_append_extractLsb'_eq_extractLsb' rfl).trans BitVec.extractLsb'_eq_self

/-- Decoding a word of the form that 30_encoding.md R91 gives `TENC`. -/
theorem decodeWord_tenc (arg : BitVec 24) : decodeWord (arg ++ (0x20 : Byte)) = .ok (.tenc arg) := by
  have hop : (arg ++ (0x20 : Byte)).extractLsb' 0 8 = (0x20 : Byte) := BitVec.extractLsb'_append_eq_right
  have harg : (arg ++ (0x20 : Byte)).extractLsb' 8 24 = arg := BitVec.extractLsb'_append_eq_left
  simp only [decodeWord, hop, harg, tencOpcode, if_true]

theorem decodeWord_encodeWord (h : i.source = .command) : decodeWord (encodeWord i) = .ok i := by
  cases i with
  | recSimple | recExtended | treeLeaf | treeInternal | container => cases h
  | tenc arg => exact decodeWord_tenc arg
  | _ => rfl

/-- The rows of format `N`: the command word is the opcode with argument 0 (30_encoding.md R91, R92). -/
theorem encodeWord_of_mem_opcodeMap : ∀ p ∈ opcodeMap, p.2.source = .command ∧ encodeWord p.2 = (0 : BitVec 24) ++ p.1 := by
  decide

theorem mem_of_lookup_eq_some {α β : Type} [BEq α] [LawfulBEq α] {a : α} {b : β} {l : List (α × β)}
    (h : l.lookup a = some b) : (a, b) ∈ l := by
  obtain ⟨l₁, l₂, rfl, -⟩ := List.lookup_eq_some_iff.mp h
  simp

/-- A word that decodes is the command word of what it decodes to. -/
theorem decodeWord_ok {w : Word} (h : decodeWord w = .ok i) : i.source = .command ∧ encodeWord i = w := by
  have hw := append_extractLsb'_word w
  unfold decodeWord at h
  dsimp only at h
  split at h
  · rename_i hop
    cases h
    rw [hop] at hw
    exact ⟨rfl, hw⟩
  · split at h
    · cases h
    · rename_i j hj
      split at h
      · rename_i harg
        cases h
        obtain ⟨hsource, hword⟩ := encodeWord_of_mem_opcodeMap _ (mem_of_lookup_eq_some hj)
        rw [harg] at hw
        exact ⟨hsource, hword.trans hw⟩
      · cases h

theorem decode_encode_command (h : i.source = .command) : decode .command (encode i) = .ok i := by
  rw [encode_of_source_command h, decode_leBytes, decodeWord_encodeWord h]

theorem decode_command_ok {y : List Byte} (h : decode .command y = .ok i) : i.source = .command ∧ y = encode i := by
  rw [decode] at h
  split at h
  · rename_i hlen
    obtain ⟨hsource, hword⟩ := decodeWord_ok h
    have hlt : ofLeBytes y < 2 ^ 32 := by simpa [hlen] using ofLeBytes_lt y
    refine ⟨hsource, ?_⟩
    rw [encode_of_source_command hsource, hword, BitVec.toNat_ofNat, Nat.mod_eq_of_lt hlt, ← hlen, leBytes_ofLeBytes]
  · cases h

/-! ## The record -/

theorem getElem?_lsbBits_toNat {w : Nat} (x : BitVec w) {k : Nat} (h : k < w) :
    (lsbBits x.toNat w)[k]? = some (x.getLsbD k) := by
  rw [getElem?_lsbBits, if_pos h, BitVec.testBit_toNat]

/-- A field of `w` bits that stands behind the bits `p`, bit by bit. -/
theorem getElem?_field {w n k : Nat} (x : BitVec w) {p q : List Bit} (hp : p.length = n) (hk : k < w) :
    (p ++ (lsbBits x.toNat w ++ q))[n + k]? = some (x.getLsbD k) := by
  subst hp
  rw [List.getElem?_append_right (Nat.le_add_right _ _), Nat.add_sub_cancel_left,
    List.getElem?_append_left (by simpa using hk), getElem?_lsbBits_toNat x hk]

/-- Bit 32 of the wire form is `extended` (30_encoding.md R97). -/
theorem getElem?_encRec_ext (r : Rec) : (encRec r)[32]? = some (symExt r.literal) := by
  simp [encRec, List.getElem?_append]

theorem length_encRec_eq_ite (r : Rec) : (encRec r).length = if symExt r.literal then 57 else 41 := by
  rw [length_encRec, recWidth]
  cases symExt r.literal <;> rfl

/-- The literal's bits stand from bit 33 on (R97). -/
theorem getElem?_encRec_literal (r : Rec) (k : Nat) : (encRec r)[33 + k]? = (litBits r.literal)[k]? := by
  have hhead : (lsbBits r.distance.toNat 16 ++ lsbBits r.runLength.toNat 16 ++ [symExt r.literal]).length = 33 := by simp
  rw [encRec, List.getElem?_append_right (by omega), hhead, Nat.add_sub_cancel_left]

/-- Settles O28: each field stands behind those before it, whose widths add up to its offset. -/
theorem recordFieldPositions : Obligations.RecordFieldPositions := by
  rintro ⟨d, l, x⟩
  refine ⟨length_encRec_eq_ite _, fun k hk => ⟨?_, ?_⟩, getElem?_encRec_ext _, ?_⟩
  · simpa [encRec] using getElem?_field d (p := []) rfl hk
  · simpa [encRec] using getElem?_field l (length_lsbBits d.toNat 16) hk
  · cases x with
    | simple b => exact fun k hk => (getElem?_encRec_literal _ k).trans (getElem?_lsbBits_toNat b hk)
    | extended b0 b1 b2 =>
      refine fun k hk => ⟨?_, ?_, ?_⟩
      · rw [getElem?_encRec_literal]
        simpa [litBits] using getElem?_field b0 (p := []) rfl hk
      · rw [show 41 + k = 33 + (8 + k) by omega, getElem?_encRec_literal]
        simpa [litBits] using getElem?_field b1 (length_lsbBits b0.toNat 8) hk
      · rw [show 49 + k = 33 + (16 + k) by omega, getElem?_encRec_literal]
        exact getElem?_field b2 (p := lsbBits b0.toNat 8 ++ lsbBits b1.toNat 8) (q := []) (by simp) hk

/-- A record as the instruction that presents it. -/
def recInstr (r : Rec) : Instr :=
  match r.literal with
  | .simple b => .recSimple r.distance r.runLength b
  | .extended b0 b1 b2 => .recExtended r.distance r.runLength b0 b1 b2

theorem encode_recInstr (r : Rec) : encode (recInstr r) = bytesLsb (encRec r) := by
  obtain ⟨d, l, x⟩ := r
  cases x <;> rfl

/-- Reading a field and writing it again gives the bits it was read from. -/
theorem lsbBits_bitField {q : List Bit} {k n : Nat} (h : k + n ≤ q.length) :
    lsbBits (BitVec.ofNat n (bitField q k n)).toNat n = (q.drop k).take n := by
  have hlen : ((q.drop k).take n).length = n := by simp; omega
  have hlt := valLsb_lt ((q.drop k).take n)
  rw [hlen] at hlt
  rw [bitField, BitVec.toNat_ofNat, Nat.mod_eq_of_lt hlt]
  conv_rhs => rw [← lsbBits_valLsb ((q.drop k).take n), hlen]

/-- Two pieces of a list that adjoin. -/
theorem take_drop_append_take_drop {α : Type} (q : List α) (k m n : Nat) :
    (q.drop k).take m ++ (q.drop (k + m)).take n = (q.drop k).take (m + n) := by
  rw [List.take_add, List.drop_drop]

theorem take_one_drop {α : Type} {q : List α} {k : Nat} {x : α} (h : q[k]? = some x) : (q.drop k).take 1 = [x] := by
  rw [List.take_one, List.head?_drop, h, Option.toList_some]

/-- The wire form of the literal that is read from whole bits is those bits (41_token_codec.md R154). -/
theorem litBits_decLiteral {q : List Bit} {e : Bit} (h : 41 + 16 * e.toNat ≤ q.length) :
    litBits (decLiteral q e) = (q.drop 33).take (8 + 16 * e.toNat) := by
  cases e with
  | false => exact lsbBits_bitField h
  | true =>
    simp only [Bool.toNat_true] at h
    simp only [decLiteral, litBits]
    rw [lsbBits_bitField (by omega), lsbBits_bitField (by omega), lsbBits_bitField (by omega),
      take_drop_append_take_drop q 33 8 8, take_drop_append_take_drop q 33 16 8]
    rfl

theorem symExt_decLiteral (q : List Bit) (e : Bit) : symExt (decLiteral q e) = e := by cases e <;> rfl

theorem decBits_of_whole {q : List Bit} {e : Bit} (he : q[32]? = some e) (h : 41 + 16 * e.toNat ≤ q.length) :
    decBits q = decWhole q (decLiteral q e) (41 + 16 * e.toNat) := by
  simp only [decBits, he, if_pos h]

/-- The wire form of a record that is decoded from whole bits is those bits (41_token_codec.md R154). -/
theorem encRec_decBits {q : List Bit} {e : Bit} (he : q[32]? = some e) (h : 41 + 16 * e.toNat ≤ q.length) :
    encRec (decBits q).record = q.take (41 + 16 * e.toNat) := by
  rw [decBits_of_whole he h]
  simp only [encRec, decWhole, symExt_decLiteral, litBits_decLiteral h]
  rw [lsbBits_bitField (by omega), lsbBits_bitField (by omega), ← take_one_drop he, take_drop_append_take_drop q 0 16 16,
    take_drop_append_take_drop q 0 32 1, take_drop_append_take_drop q 0 33, List.drop_zero, ← Nat.add_assoc]

/-- The port of TOK reads a record as the bits from its first bit on decode; the record needs 8 bytes when it is extended
(20_memory.md R61). -/
theorem decodeRecord_eq {y : List Byte} {e : Bit} (hy : y.length = 6 ∨ y.length = 8) (he : (bitsLsb y)[32]? = some e) :
    decodeRecord y = if 41 + 16 * e.toNat ≤ (bitsLsb y).length then .ok (recInstr (decBits (bitsLsb y)).record)
      else .error .badLength := by
  have hlen : ¬(y.length ≠ 6 ∧ y.length ≠ 8) := by omega
  have hbits := length_bitsLsb y
  cases e with
  | false =>
    have h : 41 + 16 * false.toNat ≤ (bitsLsb y).length := by rw [Bool.toNat_false]; omega
    simp only [decodeRecord, he, if_neg hlen, if_pos h, decBits_of_whole he h]
    rfl
  | true =>
    by_cases h : 41 + 16 * true.toNat ≤ (bitsLsb y).length
    · have h8 : y.length = 8 := by rw [Bool.toNat_true] at h; omega
      simp only [decodeRecord, he, if_neg hlen, if_pos h, decBits_of_whole he h, decWhole, decLiteral, Option.getD_some,
        if_pos h8, recInstr]
    · have h8 : y.length ≠ 8 := by rw [Bool.toNat_true] at h; omega
      simp only [decodeRecord, he, if_neg hlen, if_neg h, decLiteral, Option.getD_some, if_neg h8]

theorem decode_encode_recInstr (r : Rec) : decode .record (encode (recInstr r)) = .ok (recInstr r) := by
  have hbits : bitsLsb (encode (recInstr r)) = encRec r ++ List.replicate (padding (encRec r).length) false := by
    rw [encode_recInstr, bitsLsb_bytesLsb]
  have hlen : (encode (recInstr r)).length = 6 ∨ (encode (recInstr r)).length = 8 := by
    rw [encode_recInstr, length_bytesLsb, length_encRec_eq_ite]
    cases symExt r.literal <;> decide
  have hext : (bitsLsb (encode (recInstr r)))[32]? = some (symExt r.literal) := by
    have hlt := (List.getElem?_eq_some_iff.mp (getElem?_encRec_ext r)).1
    rw [hbits, List.getElem?_append_left hlt, getElem?_encRec_ext]
  have hwhole : 41 + 16 * (symExt r.literal).toNat ≤ (bitsLsb (encode (recInstr r))).length := by
    rw [hbits, List.length_append, length_encRec]
    exact Nat.le_add_right _ _
  rw [decode, decodeRecord_eq hlen hext, if_pos hwhole, hbits, decBits_encRec]

/-- A record that bytes present is the one whose wire form their bits begin with. -/
theorem decodeRecord_ok {y : List Byte} (h : decodeRecord y = .ok i) :
    ∃ r, i = recInstr r ∧ encRec r <+: bitsLsb y := by
  by_cases hlen : y.length = 6 ∨ y.length = 8
  · obtain ⟨e, he⟩ : ∃ e, (bitsLsb y)[32]? = some e :=
      ⟨_, List.getElem?_eq_getElem (by rw [length_bitsLsb]; omega)⟩
    rw [decodeRecord_eq hlen he] at h
    split at h
    · rename_i hwhole
      cases h
      exact ⟨_, rfl, encRec_decBits he hwhole ▸ List.take_prefix _ _⟩
    · cases h
  · unfold decodeRecord at h
    dsimp only at h
    rw [if_pos (by omega)] at h
    cases h

/-! ## The tree node -/

theorem decodeTreeNode_ok {y : List Byte} (h : decodeTreeNode y = .ok i) : y = encode i := by
  unfold decodeTreeNode at h
  split at h
  · cases h
  · split at h
    · rename_i hm
      split at h <;> cases h
      rename_i hy
      rw [hm, hy]
      rfl
    · split at h
      · rename_i hm
        split at h <;> cases h
        rw [hm]
        rfl
      · cases h

/-! ## The container -/

/-- A byte of a number that a word holds. -/
theorem extractLsb'_ofNat_byte {n k : Nat} (hk : k + 8 ≤ 32) :
    (BitVec.ofNat 32 n).extractLsb' k 8 = BitVec.ofNat 8 (n / 2 ^ k) := by
  apply BitVec.eq_of_getLsbD_eq
  intro j hj
  have hjk : k + j < 32 := by omega
  simp only [BitVec.getLsbD_extractLsb', BitVec.getLsbD_ofNat, Nat.testBit_div_two_pow, hj, hjk,
    Nat.add_comm j k, decide_true, Bool.true_and]

theorem be32_ofBe32 (y0 y1 y2 y3 : Byte) : be32 (ofBe32 y0 y1 y2 y3) = [y0, y1, y2, y3] := by
  have h0 := y0.isLt
  have h1 := y1.isLt
  have h2 := y2.isLt
  have h3 := y3.isLt
  simp only [be32, ofBe32, extractLsb'_ofNat_byte (show 24 + 8 ≤ 32 by decide),
    extractLsb'_ofNat_byte (show 16 + 8 ≤ 32 by decide), extractLsb'_ofNat_byte (show 8 + 8 ≤ 32 by decide),
    extractLsb'_ofNat_byte (show 0 + 8 ≤ 32 by decide)]
  rw [ofNat_eq_of_mod (x := y0) (by omega), ofNat_eq_of_mod (x := y1) (by omega), ofNat_eq_of_mod (x := y2) (by omega),
    ofNat_eq_of_mod (x := y3) (by omega)]

theorem serTree_ne_nil (T : Tree) : serTree T ≠ [] := by cases T <;> simp [serTree]

/-- What 30_encoding.md R114 asks of a container that is not empty. -/
theorem wellFormed_coded {T : Tree} {b : Word} {y : List Byte} : (Container.coded T b y).wellFormed = true ↔
    treeSize T ≤ nodeCap ∧ ceil8 b.toNat ≤ y.length ∧ ∃ z, walkContainer (.coded T b y) = .ok z := by
  have hwalk : (walkContainer (.coded T b y)).isOk = true ↔ ∃ z, walkContainer (.coded T b y) = .ok z := by
    cases walkContainer (.coded T b y) <;> simp [Except.isOk, Except.toBool]
  simp only [Container.wellFormed, Bool.and_eq_true, decide_eq_true_eq, hwalk, and_assoc]

theorem parseContainer_coded {T : Tree} {b : Word} {y : List Byte} (hT : treeSize T ≤ nodeCap)
    (hy : ceil8 b.toNat ≤ y.length) : parseContainer (containerBytes (.coded T b y)) = .ok (.coded T b y) := by
  have hparse := parseTree_serTree T (be32 b ++ y) hT
  have hb : ofBe32 _ _ _ _ = b := ofBe32_be32 b _ _ _ _ rfl
  rw [containerBytes, List.append_assoc]
  unfold parseContainer
  split
  · rename_i hnil
    exact absurd (List.append_eq_nil_iff.mp hnil).1 (serTree_ne_nil T)
  · simp only [hparse]
    simp only [be32, List.cons_append, List.nil_append, hb, if_pos hy]

/-- What bytes that parse as a container are: the container's bytes, with a tree that fits and the payload's bytes there. -/
theorem parseContainer_ok {y : List Byte} {c : Container} (h : parseContainer y = .ok c) :
    y = containerBytes c ∧ (c = .empty ∨
      ∃ T b p, c = .coded T b p ∧ treeSize T ≤ nodeCap ∧ ceil8 b.toNat ≤ p.length) := by
  unfold parseContainer at h
  split at h
  · cases h
    exact ⟨rfl, .inl rfl⟩
  · split at h
    · cases h
    · rename_i T b0 b1 b2 b3 p hparse
      split at h
      · rename_i hp
        cases h
        obtain ⟨rfl, hT⟩ := parseTree_ok hparse
        exact ⟨by simp [containerBytes, be32_ofBe32], .inr ⟨T, _, p, rfl, hT, hp⟩⟩
      · cases h
    · cases h

theorem decodeContainer_containerBytes {c : Container} (h : c.wellFormed = true) :
    decodeContainer (containerBytes c) = .ok (.container c) := by
  cases c with
  | empty => rfl
  | coded T b y =>
    obtain ⟨hT, hy, z, hz⟩ := wellFormed_coded.mp h
    simp only [decodeContainer, parseContainer_coded hT hy, hz]

theorem decodeContainer_ok {y : List Byte} (h : decodeContainer y = .ok i) : i.wellFormed = true ∧ y = encode i := by
  unfold decodeContainer at h
  split at h
  · cases h
  · rename_i c hc
    split at h
    · cases h
    · rename_i z hz
      cases h
      obtain ⟨rfl, rfl | ⟨T, b, p, rfl, hT, hp⟩⟩ := parseContainer_ok hc
      · exact ⟨rfl, rfl⟩
      · exact ⟨wellFormed_coded.mpr ⟨hT, hp, z, hz⟩, rfl⟩

/-! ## Every format -/

/-- Settles O4, by the four formats: a command's word, a record's wire form, a tree node's bytes, a container's. -/
theorem decodeInvertsEncode : Obligations.DecodeInvertsEncode := by
  intro i hi
  cases i with
  | recSimple d l b => exact decode_encode_recInstr ⟨d, l, .simple b⟩
  | recExtended d l b0 b1 b2 => exact decode_encode_recInstr ⟨d, l, .extended b0 b1 b2⟩
  | treeLeaf v => rfl
  | treeInternal => rfl
  | container c => exact decodeContainer_containerBytes hi
  | _ => exact decode_encode_command rfl

theorem wellFormed_of_source_ne (h : i.source ≠ .container) : i.wellFormed = true := by
  cases i with
  | container => exact absurd rfl h
  | _ => rfl

/-- Bytes of any format but a record's that decode are the encoder's. -/
theorem eq_encode_of_decode {src : Source} {y : List Byte} (h : decode src y = .ok i) (hsrc : src ≠ .record) :
    i.source = src ∧ i.wellFormed = true ∧ y = encode i := by
  cases src with
  | command =>
    obtain ⟨hs, hy⟩ := decode_command_ok h
    exact ⟨hs, wellFormed_of_source_ne (by simp [hs]), hy⟩
  | record => exact absurd rfl hsrc
  | treeNode =>
    have hs := source_of_decodeTreeNode h
    exact ⟨hs, wellFormed_of_source_ne (by simp [hs]), decodeTreeNode_ok h⟩
  | container => exact ⟨source_of_decodeContainer h, decodeContainer_ok h⟩

/-- Settles O5: the bits that present a record begin with its wire form, and every other format leaves the encoder no
choice. -/
theorem encodeInvertsDecode : Obligations.EncodeInvertsDecode := by
  intro src y i h
  by_cases hsrc : src = .record
  · subst hsrc
    obtain ⟨⟨d, l, x⟩, rfl, hprefix⟩ := decodeRecord_ok h
    cases x <;> exact ⟨rfl, rfl, hprefix⟩
  · obtain ⟨rfl, hwf, hy⟩ := eq_encode_of_decode h hsrc
    refine ⟨rfl, hwf, ?_⟩
    split
    · exact absurd rfl hsrc
    · exact absurd rfl hsrc
    · exact hy

/-- Settles O3: the table's rows are evaluated; the container's bytes are what the encoder writes for it. -/
theorem sampleWordsDecode : Obligations.SampleWordsDecode :=
  ⟨by decide, by decide, by decide, by decide, by decide, by decide, by decide, by decide, rfl,
    decodeInvertsEncode (.container (.coded (.leaf 0x41) 5 [0x00])) (by decide)⟩

/-! ## TENC -/

theorem tenc_of_le {idx : Nat} {r : Rec} (hr : s.tok.valid[idx]? = some r)
    (hl : s.bit.valid.length + (encRec r).length ≤ s.cfg.bitCap) :
    tenc idx s = .ok (setBit (s.bit.valid ++ encRec r) s) := by
  simp only [tenc, tokOperand_ok hr, appendBit_of_le hl]

/-- Settles O30: with room for the wire form, TENC appends it to BIT. -/
theorem tencAppendsTheWireForm : Obligations.TencAppendsTheWireForm := by
  intro s arg r hs hr hl
  exact completes_of_ok hs (tenc_of_le hr (by rwa [length_encRec])) hs rfl

/-! ## TSER -/

/-- A command that raises a fault, none being recorded before, leaves that fault in `STATUS` and `FINFO`. -/
theorem faulted_of_raise {ws : List Res} {body : State → Except Stop State} {c : Cause} (hs : s.cause = none)
    (hbody : body s = .error (.raise c)) : Faulted (causeCode c) (causeInfo c) (runCommand ws body s) :=
  ⟨takeFault ws c s, runCommand_of_raise hs hbody, rfl, rfl, rfl⟩

theorem tser_of_nil (h : s.node = []) : tser s = .ok s := if_pos h

theorem tser_of_lt {T : Tree} (hn : s.node ≠ []) (hT : rootTree s = .ok T)
    (hl : s.cfg.conCap < s.con.valid.length + (serTree T).length) : tser s = .error (.raise .capCon) := by
  simp only [tser, if_neg hn, hT, appendCon_of_lt hl]

/-- No tree is read from the empty arena. -/
theorem ne_nil_of_treeAt {nodes : List Node} {k : Nat} {T : Tree} (h : treeAt nodes nodes.length k = some T) :
    nodes ≠ [] := by
  rintro rfl
  cases h

/-- Settles O44: the serialized tree is appended to CON at once, if there is room for it. -/
theorem tserAppendsTheTree : Obligations.TserAppendsTheTree :=
  ⟨fun _ hs hnode => runCommand_of_ok hs (tser_of_nil hnode),
    fun _ _ hs hT hl => completes_of_ok hs (tser_of_tree (ne_nil_of_treeAt hT) (rootTree_of_treeAt hT) hl) hs rfl,
    fun _ _ hs hT hl => faulted_of_raise hs (tser_of_lt (ne_nil_of_treeAt hT) (rootTree_of_treeAt hT) hl),
    fun T => Nat.eq_sub_of_add_eq (length_serTree T)⟩

end Sys2Proof.Safety
end

section
/-! SUPPORT. The record of a position and the records of a text: what FIND and TOKENIZE compute is what 40_match_finder.md
R130 to R136 describe, and the description has one record for each position. -/

namespace Sys2Proof.Safety

open Machine

variable {c : Params} {T : List Sym} {p q d j m L fuel : Nat} {r r' : Rec} {rs : List Rec}

/-! ## The greatest match -/

theorem agree_matchLen (hp : p ≤ T.length) : Agree m T j p (matchLen m T j p) := by
  obtain ⟨hm, hlen, hrun⟩ := commonRun_agree m (T.drop j) (T.drop p)
  rw [List.length_drop] at hlen
  exact ⟨hm, by unfold matchLen; omega, fun k hk => by simpa using hrun k hk⟩

theorem Agree.le_matchLen (h : Agree m T j p L) : L ≤ matchLen m T j p := by
  obtain ⟨hm, hlen, hrun⟩ := h
  exact commonRun_greatest hm (by rw [List.length_drop]; omega) fun k hk => by simpa using hrun k hk

theorem candidate_iff : Candidate c p d ↔ 1 ≤ d ∧ d < 1 + min p c.windowSize := by
  unfold Candidate
  omega

/-- The scan over all candidates finds no match, or the greatest match length at the smallest distance that reaches it. -/
theorem best_cases (c : Params) (T : List Sym) (p : Nat) :
    (best c T p = (0, 0) ∧ ∀ d, Candidate c p d → matchLen c.maxMatch T (p - d) p = 0) ∨
    ∃ d, Candidate c p d ∧ best c T p = (d, matchLen c.maxMatch T (p - d) p) ∧
      0 < matchLen c.maxMatch T (p - d) p ∧
      ∀ e, Candidate c p e → matchLen c.maxMatch T (p - e) p ≤ matchLen c.maxMatch T (p - d) p ∧
        (matchLen c.maxMatch T (p - e) p = matchLen c.maxMatch T (p - d) p → d ≤ e) := by
  obtain ⟨hle, -, hbest⟩ := scan_best c.maxMatch T p (min p c.windowSize) 1 (0, 0)
  obtain hbest | ⟨d, hd1, hd2, hbest, hpos, hnear⟩ := hbest <;> rw [hbest] at hle
  · refine .inl ⟨hbest, fun d hd => ?_⟩
    obtain ⟨hd1, hd2⟩ := candidate_iff.mp hd
    exact Nat.le_zero.mp (hle d hd1 hd2)
  · refine .inr ⟨d, candidate_iff.mpr ⟨hd1, hd2⟩, hbest, hpos, fun e he => ?_⟩
    obtain ⟨he1, he2⟩ := candidate_iff.mp he
    exact ⟨hle e he1 he2, fun heq => Nat.not_lt.mp fun hlt => (hnear e he1 hlt).ne heq⟩

/-! ## The record of a position -/

theorem recordAt_of_noMatch (h : ∀ d, Candidate c p d → matchLen c.maxMatch T (p - d) p = 0) :
    recordAt c T p = ⟨0, 0, T[p]?.getD sentinel⟩ := by
  obtain ⟨hbest, -⟩ | ⟨d, hd, -, hpos, -⟩ := best_cases c T p
  · simp [recordAt, hbest]
  · exact absurd (h d hd) hpos.ne'

theorem isRecordAt_recordAt (hc : c.Wf) (hp : p < T.length) : IsRecordAt c T p (recordAt c T p) := by
  obtain ⟨-, hnone⟩ | ⟨d, hd, hbest, hpos, hgreatest⟩ := best_cases c T p
  · rw [recordAt_of_noMatch hnone]
    exact .inl ⟨fun d L hd hL => Nat.le_zero.mp (hnone d hd ▸ hL.le_matchLen), rfl, rfl, by simp [hp]⟩
  · have hagree : Agree c.maxMatch T (p - d) p (matchLen c.maxMatch T (p - d) p) := agree_matchLen hp.le
    obtain ⟨⟨-, hwindow⟩, ⟨-, hmatch⟩, -⟩ := hc
    have hdist : (recordAt c T p).distance.toNat = d := by
      simp only [recordAt, hbest, BitVec.toNat_ofNat]
      exact Nat.mod_eq_of_lt (by have := hd.2.2; omega)
    have hrun : (recordAt c T p).runLength.toNat = matchLen c.maxMatch T (p - d) p := by
      simp only [recordAt, hbest, BitVec.toNat_ofNat]
      exact Nat.mod_eq_of_lt (by have := hagree.1; omega)
    unfold IsRecordAt
    rw [hdist, hrun]
    refine .inr ⟨hd, hpos, hagree, fun e L he hL => ?_, by simp only [recordAt, hbest]⟩
    obtain ⟨hle, hnear⟩ := hgreatest e he
    have hLe := hL.le_matchLen
    exact ⟨hLe.trans hle, fun heq => hnear (by omega)⟩

/-- The greatest length, the smallest distance and the literal leave no choice. -/
theorem IsRecordAt.unique (h : IsRecordAt c T p r) (h' : IsRecordAt c T p r') : r = r' := by
  obtain ⟨dist, run, lit⟩ := r
  obtain ⟨dist', run', lit'⟩ := r'
  unfold IsRecordAt at h h'
  dsimp only at h h'
  obtain ⟨hnone, rfl, rfl, hlit⟩ | ⟨hd, hpos, hagree, hbest, rfl⟩ := h <;>
    obtain ⟨hnone', rfl, rfl, hlit'⟩ | ⟨hd', hpos', hagree', hbest', rfl⟩ := h'
  · cases hlit.symm.trans hlit'
    rfl
  · exact absurd (hnone _ _ hd' hagree') (by omega)
  · exact absurd (hnone' _ _ hd hagree) (by omega)
  · obtain ⟨hle, hnear⟩ := hbest _ _ hd' hagree'
    obtain ⟨hle', hnear'⟩ := hbest' _ _ hd hagree
    obtain rfl : run = run' := BitVec.eq_of_toNat_eq (by omega)
    obtain rfl : dist = dist' := BitVec.eq_of_toNat_eq (Nat.le_antisymm (hnear rfl) (hnear' rfl))
    rfl

theorem IsRecordAt.eq_recordAt (hc : c.Wf) (hp : p < T.length) (h : IsRecordAt c T p r) : r = recordAt c T p :=
  h.unique (isRecordAt_recordAt hc hp)

/-- A run ends within the text; when it ends with the text, the literal is the sentinel. -/
theorem IsRecordAt.run_le (hp : p < T.length) (h : IsRecordAt c T p r) :
    p + r.runLength.toNat ≤ T.length ∧ (p + r.runLength.toNat = T.length → r.literal = sentinel) := by
  obtain ⟨-, -, hrun, -⟩ | ⟨-, -, ⟨-, hlen, -⟩, -, hlit⟩ := h
  · rw [hrun]
    exact ⟨hp.le, fun heq => absurd heq hp.ne⟩
  · exact ⟨hlen, fun heq => by rw [hlit, heq]; simp⟩

/-! ## The records of a text -/

@[simp] theorem positionAfter_zero (rs : List Rec) : positionAfter rs 0 = 0 := rfl

theorem positionAfter_cons_succ (r : Rec) (rs : List Rec) (i : Nat) :
    positionAfter (r :: rs) (i + 1) = r.runLength.toNat + 1 + positionAfter rs i := by
  simp [positionAfter]

theorem positionAfter_succ {i : Nat} (h : rs[i]? = some r) :
    positionAfter rs (i + 1) = positionAfter rs i + r.runLength.toNat + 1 := by
  simp [positionAfter, List.take_add_one, h, Nat.add_assoc]

/-- The records that TOKENIZE makes from position `p` on: each of a position in the text, and each behind the one
before (R134, R138). -/
def RecordsFrom (c : Params) (T : List Sym) : Nat → List Rec → Prop
  | _, [] => True
  | p, r :: rs => p < T.length ∧ r = recordAt c T p ∧ RecordsFrom c T (p + r.runLength.toNat + 1) rs

theorem recordsFrom_iff : RecordsFrom c T p rs ↔
    ∀ i r, rs[i]? = some r → p + positionAfter rs i < T.length ∧ r = recordAt c T (p + positionAfter rs i) := by
  induction rs generalizing p with
  | nil => simp [RecordsFrom]
  | cons r rs ih =>
    simp only [RecordsFrom, ih]
    constructor
    · rintro ⟨hp, hr, hrs⟩ i r' hi
      cases i with
      | zero =>
        obtain rfl : r = r' := by simpa using hi
        exact ⟨hp, hr⟩
      | succ i =>
        rw [positionAfter_cons_succ, ← Nat.add_assoc, ← Nat.add_assoc]
        exact hrs i r' (by simpa using hi)
    · intro h
      obtain ⟨hp, hr⟩ := h 0 r rfl
      refine ⟨hp, hr, fun i r' hi => ?_⟩
      have := h (i + 1) r' (by simpa using hi)
      rwa [positionAfter_cons_succ, ← Nat.add_assoc, ← Nat.add_assoc] at this

/-- What the loop of TOKENIZE leaves: records from its position on, up to the final position; with enough rounds, no symbol
is left there. -/
theorem tokenizeFrom_ok {room : Nat} (h : tokenizeFrom c T fuel p room = .ok (rs, q)) :
    RecordsFrom c T p rs ∧ q = p + positionAfter rs rs.length ∧ (T.length ≤ p + fuel → T.length ≤ q) := by
  induction fuel generalizing p room rs q with
  | zero => cases h; exact ⟨trivial, rfl, id⟩
  | succ fuel ih =>
    unfold tokenizeFrom at h
    split at h
    · rename_i hp
      cases room with
      | zero => cases h
      | succ room =>
        dsimp only at h
        split at h
        · cases h
        · rename_i rs' q' hrs
          cases h
          obtain ⟨hrecs, hq, hend⟩ := ih hrs
          refine ⟨⟨hp, rfl, hrecs⟩, ?_, fun hfuel => hend (by omega)⟩
          rw [List.length_cons, positionAfter_cons_succ, hq]
          omega
    · cases h; exact ⟨trivial, rfl, fun _ => by omega⟩

/-- The loop of TOKENIZE finds TOK full when its records fill the room and symbols are left. -/
theorem tokenizeFrom_of_full (hrs : RecordsFrom c T p rs) (hleft : p + positionAfter rs rs.length < T.length)
    (hfuel : T.length ≤ p + fuel) : tokenizeFrom c T fuel p rs.length = .error (.raise .capTok) := by
  induction fuel generalizing p rs with
  | zero => omega
  | succ fuel ih =>
    have hp : p < T.length := by omega
    cases rs with
    | nil => simp only [tokenizeFrom, if_pos hp, List.length_nil, raise]
    | cons r rs =>
      obtain ⟨-, rfl, hrecs⟩ := hrs
      rw [List.length_cons, positionAfter_cons_succ] at hleft
      simp only [tokenizeFrom, if_pos hp, List.length_cons, ih hrecs (by omega) (by omega)]

/-- A text of which no position has a match is taken symbol by symbol. -/
theorem RecordsFrom.eq_map (h : RecordsFrom c T p rs) (hend : T.length ≤ p + positionAfter rs rs.length)
    (hnone : ∀ p < T.length, recordAt c T p = ⟨0, 0, T[p]?.getD sentinel⟩) :
    rs = (T.drop p).map fun x => ⟨0, 0, x⟩ := by
  induction rs generalizing p with
  | nil => simpa [positionAfter] using hend
  | cons r rs ih =>
    obtain ⟨hp, hr, hrecs⟩ := h
    rw [hnone p hp] at hr
    subst hr
    rw [List.length_cons, positionAfter_cons_succ] at hend
    change RecordsFrom c T (p + 1) rs at hrecs
    change T.length ≤ p + (0 + 1 + positionAfter rs rs.length) at hend
    rw [ih hrecs (by omega), List.drop_eq_getElem_cons hp, List.map_cons, List.getElem?_eq_getElem hp, Option.getD_some]

end Sys2Proof.Safety
end

section
/-! PROOFS. FIND and TOKENIZE: the record of the current position, the cover of the text, the faults and the known vectors
(40_match_finder.md R132 to R143). -/

namespace Sys2Proof.Safety

open Machine

variable {s : State}

/-! ## FIND -/

theorem find_of_lt (hp : s.pos.toNat < s.txt.valid.length) (htok : s.tok.valid.length < s.cfg.tokCap) :
    find s = .ok (setPos (s.pos.toNat + (recordAt s.cfg s.txt.valid s.pos.toNat).runLength.toNat + 1)
      (setTok (s.tok.valid ++ [recordAt s.cfg s.txt.valid s.pos.toNat]) s)) := by
  simp only [find, posOperand_ok hp, appendTok_of_lt htok]

theorem toNat_setPos {n : Nat} (h : n < 2 ^ 32) : (setPos n s).pos.toNat = n := by
  simp only [setPos_pos, BitVec.toNat_ofNat, Nat.mod_eq_of_lt h]

/-- Settles O24: FIND appends the record that the scan over the candidates gives, and that is the record of the position. -/
theorem findAppendsTheRecord : Obligations.FindAppendsTheRecord := by
  intro s hs hc hp htok
  exact completes_of_ok hs (find_of_lt hp htok) hs
    ⟨_, rfl, isRecordAt_recordAt hc hp, fun h => toNat_setPos h⟩

/-! ## TOKENIZE -/

/-- With a record's room for each symbol, TOKENIZE leaves the records of the whole text. -/
theorem tokenize_records (h : s.txt.valid.length ≤ s.cfg.tokCap) :
    ∃ rs, tokenize s = .ok (setPos (positionAfter rs rs.length) (setTok rs s)) ∧
      RecordsFrom s.cfg s.txt.valid 0 rs ∧ rs.length ≤ s.txt.valid.length ∧
      s.txt.valid.length ≤ positionAfter rs rs.length := by
  obtain ⟨rs, q, hrs, hlen⟩ := tokenizeFrom_of_le (c := s.cfg) (T := s.txt.valid) (fuel := s.txt.valid.length) (p := 0) h
  obtain ⟨hrecs, hq, hend⟩ := tokenizeFrom_ok hrs
  rw [Nat.zero_add] at hq hend
  subst hq
  exact ⟨rs, by simp only [tokenize, hrs], hrecs, hlen, hend le_rfl⟩

/-- The records of a whole text end at its length, or one behind it when the last run reached the end (R139). -/
theorem positionAfter_cover {c : Params} {T : List Sym} {rs : List Rec}
    (hrecs : ∀ i r, rs[i]? = some r → positionAfter rs i < T.length ∧ IsRecordAt c T (positionAfter rs i) r)
    (hend : T.length ≤ positionAfter rs rs.length) :
    (positionAfter rs rs.length = T.length ∧
        ∀ r, rs.getLast? = some r → positionAfter rs (rs.length - 1) + r.runLength.toNat < T.length) ∨
      (positionAfter rs rs.length = T.length + 1 ∧
        ∃ r, rs.getLast? = some r ∧ r.literal = sentinel ∧
          positionAfter rs (rs.length - 1) + r.runLength.toNat = T.length) := by
  rcases hlast : rs.getLast? with _ | r
  · obtain rfl : rs = [] := List.getLast?_eq_none_iff.mp hlast
    exact .inl ⟨(Nat.le_zero.mp hend).symm, fun _ h => nomatch h⟩
  · have hr : rs[rs.length - 1]? = some r := by rw [← List.getLast?_eq_getElem?, hlast]
    have hpos : rs.length - 1 + 1 = rs.length := by
      have := List.length_pos_of_mem (List.mem_of_getLast? hlast)
      omega
    have htotal := positionAfter_succ hr
    rw [hpos] at htotal
    obtain ⟨hlt, hrec⟩ := hrecs _ r hr
    obtain ⟨hle, hsentinel⟩ := hrec.run_le hlt
    obtain heq | hlt := Nat.eq_or_lt_of_le hle
    · exact .inr ⟨by omega, r, rfl, hsentinel heq, heq⟩
    · refine .inl ⟨by omega, fun r' hr' => ?_⟩
      cases hr'
      exact hlt

/-- Settles O25: the loop's records are those of the positions one behind the other, and they reach the text's end. -/
theorem tokenizeCoversTheText : Obligations.TokenizeCoversTheText := by
  intro s hs hc hcap
  obtain ⟨rs, hok, hrecs, hlen, hend⟩ := tokenize_records hcap
  have hat : ∀ i r, rs[i]? = some r →
      positionAfter rs i < s.txt.valid.length ∧ IsRecordAt s.cfg s.txt.valid (positionAfter rs i) r := by
    intro i r hi
    have := recordsFrom_iff.mp hrecs i r hi
    rw [Nat.zero_add] at this
    obtain ⟨hp, rfl⟩ := this
    exact ⟨hp, isRecordAt_recordAt hc hp⟩
  have hcover := positionAfter_cover hat hend
  exact completes_of_ok hs hok hs ⟨hat, hlen, fun h => toNat_setPos (by omega), hcover⟩

/-! ## Faults -/

theorem find_of_no_symbol (h : s.txt.valid.length ≤ s.pos.toNat) : find s = .error (.raise .txtPos) := by
  simp only [find, posOperand_raise h]

theorem find_of_full (hp : s.pos.toNat < s.txt.valid.length) (h : s.cfg.tokCap ≤ s.tok.valid.length) :
    find s = .error (.raise .capTok) := by
  simp only [find, posOperand_ok hp, appendTok_of_le h]

theorem tokenize_of_full {rs : List Rec} (hrecs : RecordsFrom s.cfg s.txt.valid 0 rs) (hfull : rs.length = s.cfg.tokCap)
    (hleft : positionAfter rs rs.length < s.txt.valid.length) : tokenize s = .error (.raise .capTok) := by
  have hloop := tokenizeFrom_of_full (fuel := s.txt.valid.length) hrecs (by omega) (by omega)
  rw [hfull] at hloop
  simp only [tokenize, hloop]

/-- Settles O26: FIND checks the position, then the room; TOKENIZE finds TOK full while symbols are left. -/
theorem finderFaults : Obligations.FinderFaults := by
  refine ⟨fun s hs hp => faulted_of_raise hs (find_of_no_symbol hp),
    fun s hs hp hfull => faulted_of_raise hs (find_of_full hp hfull),
    fun s rs hs hc hfull hat hleft => faulted_of_raise hs (tokenize_of_full ?_ hfull hleft)⟩
  rw [recordsFrom_iff]
  intro i r hi
  rw [Nat.zero_add]
  obtain ⟨hp, hrec⟩ := hat i r hi
  exact ⟨hp, hrec.eq_recordAt hc hp⟩

/-! ## Known vectors -/

/-- A position whose symbol stands at no candidate has no match. -/
theorem recordAt_of_new_symbol {c : Params} {T : List Sym} {p : Nat} (hp : p < T.length)
    (h : ∀ i j, i < j → j < T.length → j - i ≤ c.windowSize → T[i]? ≠ T[j]?) :
    recordAt c T p = ⟨0, 0, T[p]?.getD sentinel⟩ := by
  refine recordAt_of_noMatch fun d ⟨hd1, hdp, hdw⟩ => Nat.eq_zero_of_not_pos fun hpos => ?_
  obtain ⟨-, -, hrun⟩ := agree_matchLen (m := c.maxMatch) (j := p - d) hp.le
  exact h (p - d) p (by omega) hp (by omega) (hrun 0 hpos)

theorem tokenize_of_new_symbols (hcap : s.txt.valid.length ≤ s.cfg.tokCap)
    (h : ∀ i j, i < j → j < s.txt.valid.length → j - i ≤ s.cfg.windowSize → s.txt.valid[i]? ≠ s.txt.valid[j]?) :
    ∃ q, tokenize s = .ok (setPos q (setTok (s.txt.valid.map fun x => ⟨0, 0, x⟩) s)) := by
  obtain ⟨rs, hok, hrecs, -, hend⟩ := tokenize_records hcap
  have hrs := hrecs.eq_map (by omega) fun p hp => recordAt_of_new_symbol hp h
  rw [List.drop_zero] at hrs
  exact ⟨_, hrs ▸ hok⟩

/-- The text of R142, `ABABABAB`. -/
def abText : List Sym := [0x41, 0x42, 0x41, 0x42, 0x41, 0x42, 0x41, 0x42].map Sym.simple

theorem agree_abText_one {m L : Nat} (h : Agree m abText 1 2 L) : L = 0 := by
  obtain ⟨-, -, hrun⟩ := h
  exact Nat.eq_zero_of_not_pos fun hpos => absurd (hrun 0 hpos) (by decide)

theorem agree_abText_zero {m L : Nat} : Agree m abText 0 2 L ↔ L ≤ min 6 m := by
  have hperiod : ∀ k < 6, abText[0 + k]? = abText[2 + k]? := by decide
  have hlen : abText.length = 8 := rfl
  unfold Agree
  constructor
  · rintro ⟨hm, hend, -⟩
    omega
  · intro hL
    exact ⟨by omega, by omega, fun k hk => hperiod k (by omega)⟩

/-- The literal of the record: at the greatest match the text ends, or the match length does. -/
theorem getElem?_abText_min (m : Nat) : abText[2 + min 6 m]? = abText[2 + m]? := by
  obtain hm | hm := Nat.le_total m 6
  · rw [Nat.min_eq_right hm]
  · have hlen : abText.length = 8 := rfl
    rw [Nat.min_eq_left hm, List.getElem?_eq_none (by omega), List.getElem?_eq_none (by omega)]

theorem recordAt_abText {c : Params} (hc : c.Wf) (hw : 2 ≤ c.windowSize) :
    recordAt c abText 2 = ⟨2, BitVec.ofNat 16 (min 6 c.maxMatch), abText[2 + c.maxMatch]?.getD sentinel⟩ := by
  refine (IsRecordAt.eq_recordAt hc (by decide) (.inr ?_)).symm
  obtain ⟨-, ⟨hm1, -⟩, -⟩ := hc
  have hrun : (BitVec.ofNat 16 (min 6 c.maxMatch)).toNat = min 6 c.maxMatch := by
    rw [BitVec.toNat_ofNat]
    exact Nat.mod_eq_of_lt (by omega)
  dsimp only
  rw [hrun, getElem?_abText_min]
  refine ⟨⟨by decide, by decide, hw⟩, by omega, agree_abText_zero.mpr le_rfl, fun d L hd hL => ?_, rfl⟩
  obtain ⟨hd1, hd2, -⟩ := hd
  obtain rfl | rfl : d = 1 ∨ d = 2 := by omega
  · cases agree_abText_one hL
    exact ⟨Nat.zero_le _, fun h0 => by omega⟩
  · exact ⟨agree_abText_zero.mp hL, fun _ => le_rfl⟩

/-- Settles O27: symbols that are new within the window match nothing, and `ABABABAB` repeats with period 2. -/
theorem finderTestProperties : Obligations.FinderTestProperties := by
  refine ⟨fun s hs hcap hnew => ?_, fun s hs hc hw htok htxt hpos => ?_⟩
  · obtain ⟨q, hok⟩ := tokenize_of_new_symbols hcap hnew
    exact completes_of_ok hs hok hs ⟨rfl, List.length_map _⟩
  · change s.txt.valid = abText at htxt
    have hp : s.pos.toNat = 2 := by rw [hpos]; rfl
    have hok := find_of_lt (s := s) (by rw [hp, htxt]; decide) htok
    rw [hp, htxt, recordAt_abText hc hw] at hok
    rw [htxt]
    exact ⟨fun L => agree_abText_one, fun L => agree_abText_zero, completes_of_ok hs hok hs rfl⟩

end Sys2Proof.Safety
end

section
/-! SUPPORT. Frames: a write of one unit of the state leaves every other unit alone, so a run of such writes leaves alone
what none of them names, and so does the fault of a command (60_exceptions.md R297). -/

namespace Sys2Proof.Safety

open Machine

variable {s t t' : State} {r u v : Res} {rs ws : List Res}

/-! ## Units of the state -/

/-- The unit whose writing may change `u`: for the elements of a buffer below its old length, the buffer. -/
def whole : Res → Res
  | .tokTail => .tok
  | .bitTail => .bit
  | .conTail => .con
  | u => u

/-- The units that change when what `r` stands for under "Writes" changes: of a buffer, the elements below the old length
too; of the part of an appended buffer that is not below it, the buffer only. -/
def touched : Res → List Res
  | .tok => [.tok, .tokTail]
  | .bit => [.bit, .bitTail]
  | .con => [.con, .conTail]
  | r => [whole r]

theorem mem_touched_whole (u : Res) : u ∈ touched (whole u) := by cases u <;> decide

theorem whole_mem_touched (r : Res) : whole r ∈ touched r := by cases r <;> decide

theorem sameRes_refl (s : State) (u : Res) : sameRes s s u := by
  cases u
  case node => exact ⟨rfl, rfl⟩
  case tokTail | bitTail | conTail => exact fun _ _ => rfl
  all_goals rfl

/-- `t` is `s` with the unit `r` written; a command's write of a buffer also advances the counter of free values. -/
inductive UnitWrite (s : State) : Res → State → Prop where
  | txt (b : Buffer Sym) (d : Nat) : UnitWrite s .txt { s with txt := b, draw := d }
  | tok (b : Buffer Rec) (d : Nat) : UnitWrite s .tok { s with tok := b, draw := d }
  | bit (b : Buffer Bit) (d : Nat) : UnitWrite s .bit { s with bit := b, draw := d }
  | pre (b : Buffer Byte) (d : Nat) : UnitWrite s .pre { s with pre := b, draw := d }
  | con (b : Buffer Byte) (d : Nat) : UnitWrite s .con { s with con := b, draw := d }
  | node (ns : List Node) (root : Word) : UnitWrite s .node { s with node := ns, root := root }
  | code (c : Vector Code 256) : UnitWrite s .code { s with code := c }
  | freq (f : Vector Word 256) : UnitWrite s .freq { s with freq := f }
  | pos (w : Word) : UnitWrite s .pos { s with pos := w }
  | bitpos (w : Word) : UnitWrite s .bitpos { s with bitpos := w }
  | conpos (w : Word) : UnitWrite s .conpos { s with conpos := w }
  | bitcnt (w : Word) : UnitWrite s .bitcnt { s with bitcnt := w }
  | trunc (b : Bool) : UnitWrite s .trunc { s with trunc := b }
  | oor (b : Bool) : UnitWrite s .oor { s with oor := b }

theorem unitWrite_scramble (k : Nat) (s : State) (r : Res) : UnitWrite s (whole r) (scramble k s r) := by
  cases r <;> constructor

/-- A write of one unit leaves every unit of another kind as it was before, compared with any earlier state. -/
theorem UnitWrite.sameRes_of_ne (h : UnitWrite t r t') (hu : whole u ≠ r) (hs : sameRes s t u) : sameRes s t' u := by
  cases h <;> cases u <;> simp_all [whole, sameRes]

theorem UnitWrite.same (h : UnitWrite t r t') :
    t'.cfg = t.cfg ∧ t'.pending = t.pending ∧ t'.reply = t.reply ∧ t'.cause = t.cause := by
  cases h <;> exact ⟨rfl, rfl, rfl, rfl⟩

/-! ## Runs of writes -/

theorem Unchanged.refl (ws : List Res) (s : State) : Unchanged ws s s :=
  ⟨rfl, rfl, rfl, fun _ => rfl, fun u _ => sameRes_refl s u⟩

theorem Unchanged.write (h : Unchanged ws s t) (hw : UnitWrite t r t') (hr : touched r ⊆ ws) : Unchanged ws s t' := by
  obtain ⟨hcfg, hpending, hreply, hcause, hsame⟩ := h
  obtain ⟨hcfg', hpending', hreply', hcause'⟩ := hw.same
  refine ⟨hcfg'.trans hcfg, hpending'.trans hpending, hreply'.trans hreply,
    fun hs => hcause'.trans (hcause hs), fun u hu => hw.sameRes_of_ne ?_ (hsame u hu)⟩
  rintro rfl
  exact hu (hr (mem_touched_whole u))

/-- A buffer may be written and its elements below the old length, the unit `u`, still be the same. -/
theorem UnitWrite.unchanged_of_tail (hw : UnitWrite s (whole u) t) (hu : u ≠ whole u) (hsame : sameRes s t u)
    (hmem : whole u ∈ ws) : Unchanged ws s t := by
  obtain ⟨hcfg, hpending, hreply, hcause⟩ := hw.same
  refine ⟨hcfg, hpending, hreply, fun _ => hcause, fun v hv => ?_⟩
  by_cases hvu : whole v = whole u
  · have hv' : v ≠ whole u := fun heq => hv (heq ▸ hmem)
    obtain rfl : v = u := by cases v <;> cases u <;> simp_all [whole]
    exact hsame
  · exact hw.sameRes_of_ne hvu (sameRes_refl s v)

/-- A command that appends to a buffer changes no element below the old length. -/
theorem elem_fill_append {α : Type} (free : Nat → Nat → α) (seed : Nat) (b : Buffer α) (xs : List α) {i : Nat}
    (h : i < b.valid.length) : (Buffer.fill seed (b.valid ++ xs)).elem free i = b.elem free i := by
  simp [Buffer.elem, Buffer.fill, List.getElem?_append_left h, h]

theorem unchanged_setTok_append (rs : List Rec) (h : .tok ∈ ws) :
    Unchanged ws s (setTok (s.tok.valid ++ rs) s) := by
  have hw : UnitWrite s (whole .tokTail) (setTok (s.tok.valid ++ rs) s) := .tok _ _
  exact hw.unchanged_of_tail (by decide) (fun _ hi => elem_fill_append _ _ _ _ hi) h

theorem unchanged_setBit_append (q : List Bit) (h : .bit ∈ ws) :
    Unchanged ws s (setBit (s.bit.valid ++ q) s) := by
  have hw : UnitWrite s (whole .bitTail) (setBit (s.bit.valid ++ q) s) := .bit _ _
  exact hw.unchanged_of_tail (by decide) (fun _ hi => elem_fill_append _ _ _ _ hi) h

/-! ## Faults -/

/-- What a fault makes unspecified of an appending command's buffer leaves the elements below the old length. -/
theorem sameRes_scramble_tail (k : Nat) (s : State) (h : r ≠ whole r) : sameRes s (scramble k s r) r := by
  cases r
  case tokTail | bitTail | conTail =>
    exact fun i hi => (Buffer.elem_unspecified _ hi).trans (Buffer.elem_of_lt _ _ hi).symm
  all_goals exact absurd rfl h

theorem unchanged_scramble (k : Nat) (h : touched r ⊆ ws) : Unchanged ws s (scramble k s r) := by
  by_cases hr : r = whole r
  · exact (Unchanged.refl ws s).write (unitWrite_scramble k s r) (hr ▸ h)
  · exact (unitWrite_scramble k s r).unchanged_of_tail hr (sameRes_scramble_tail k s hr) (h (whole_mem_touched r))

theorem Unchanged.foldl_scramble (k : Nat) (h : Unchanged ws s t) (hrs : ∀ r ∈ rs, touched (whole r) ⊆ ws) :
    Unchanged ws s (rs.foldl (scramble k) t) :=
  List.foldlRecOn rs (scramble k) h fun t ht r hr => ht.write (unitWrite_scramble k t r) (hrs r hr)

/-- A fault leaves alone what the command does not list. An appending command lists its buffer first, before anything
else has touched it. -/
theorem unchanged_takeFault (c : Cause) (hs : s.cause = none) (hr : touched r ⊆ ws)
    (hrs : ∀ r ∈ rs, touched (whole r) ⊆ ws) : Unchanged ws s (takeFault (r :: rs) c s) := by
  obtain ⟨-, -, -, -, hsame⟩ := (unchanged_scramble s.draw hr).foldl_scramble s.draw hrs
  refine ⟨takeFault_cfg _ _ _, takeFault_pending _ _ _, takeFault_reply _ _ _, fun h => ?_, fun u hu => ?_⟩
  · rw [hs] at h
    cases h
  · have := hsame u hu
    cases u <;> exact this

/-- A command leaves alone what it does not list, if its body does when it succeeds. -/
theorem unchanged_runCommand {body : State → Except Stop State} (hbody : ∀ {t}, body s = .ok t → Unchanged ws s t)
    (hr : touched r ⊆ ws) (hrs : ∀ r ∈ rs, touched (whole r) ⊆ ws) (h : runCommand (r :: rs) body s = .next t) :
    Unchanged ws s t := by
  obtain ⟨-, rfl⟩ | ⟨-, hok⟩ | ⟨hs, c, -, rfl⟩ := runCommand_next h
  · exact .refl ws t
  · exact hbody hok
  · exact unchanged_takeFault c hs hr hrs

end Sys2Proof.Safety
end

section
/-! PROOFS. The frames of FIND, TOKENIZE and the commands of the token codec, the bitstream and the replayer
(40_match_finder.md R133, R138; 41_token_codec.md R153, R158; 42_bitstream.md R170 to R173; 43_replayer.md R190). -/

namespace Sys2Proof.Safety

open Machine

variable {s t : State}

/-! ## The bodies of the commands -/

theorem unchanged_find (h : find s = .ok t) : Unchanged (writes .find) s t := by
  obtain ⟨p, -, -, rfl⟩ := find_ok h
  exact (unchanged_setTok_append _ (by decide)).write (.pos _) (by decide)

theorem unchanged_tokenize (h : tokenize s = .ok t) : Unchanged (writes .tokenize) s t := by
  obtain ⟨rs, p, -, rfl⟩ := tokenize_ok h
  exact ((Unchanged.refl _ s).write (.tok _ _) (by decide)).write (.pos _) (by decide)

theorem unchanged_tenc {idx : Nat} (h : tenc idx s = .ok t) : Unchanged [.bit] s t := by
  obtain ⟨r, -, -, rfl⟩ := tenc_ok h
  exact unchanged_setBit_append _ (by decide)

theorem unchanged_tdec (h : tdec s = .ok t) : Unchanged (writes .tdec) s t := by
  obtain ⟨p, -, -, rfl⟩ := tdec_ok h
  exact ((unchanged_setTok_append _ (by decide)).write (.bitpos _) (by decide)).write (.trunc _) (by decide)

theorem unchanged_b2y (h : b2y s = .ok t) : Unchanged (writes .b2y) s t := by
  obtain ⟨-, rfl⟩ := b2y_ok h
  exact (Unchanged.refl _ s).write (.pre _ _) (by decide)

theorem unchanged_y2b (h : y2b s = .ok t) : Unchanged (writes .y2b) s t := by
  obtain ⟨-, rfl⟩ := y2b_ok h
  exact (Unchanged.refl _ s).write (.bit _ _) (by decide)

theorem unchanged_pack (h : pack s = .ok t) : Unchanged (writes .pack) s t := by
  obtain ⟨-, hb⟩ := pack_ok h
  obtain ⟨-, rfl⟩ := b2y_ok hb
  exact ((Unchanged.refl _ s).write (.bit _ _) (by decide)).write (.pre _ _) (by decide)

theorem unchanged_unpack (h : unpack s = .ok t) : Unchanged (writes .unpack) s t := by
  obtain ⟨b, u, hb, -, rfl⟩ := unpack_ok h
  obtain ⟨-, rfl⟩ := y2b_ok hb
  have hbit : Unchanged (writes .unpack) s (setBit (bitsLsb s.pre.valid) s) :=
    (Unchanged.refl _ s).write (.bit _ _) (by decide)
  exact ((hbit.write (.tok _ _) (by decide)).write (.bitpos _) (by decide)).write (.trunc _) (by decide)

theorem unchanged_replay (h : replay s = .ok t) : Unchanged (writes .replay) s t := by
  obtain ⟨a, -, rfl⟩ := replay_ok h
  exact ((Unchanged.refl _ s).write (.txt _ _) (by decide)).write (.oor _) (by decide)

/-! ## The instructions -/

/-- Settles O58: each command is refused, runs its body, or takes a fault, and every write is of a unit it lists. -/
theorem firstStageFrames : Obligations.FirstStageFrames := by
  rintro i (hi | ⟨arg, rfl⟩) s t h
  · simp only [List.mem_cons, List.not_mem_nil, or_false] at hi
    obtain rfl | rfl | rfl | rfl | rfl | rfl | rfl | rfl := hi
    · exact unchanged_runCommand unchanged_find (by decide) (by decide) h
    · exact unchanged_runCommand unchanged_tokenize (by decide) (by decide) h
    · exact unchanged_runCommand unchanged_tdec (by decide) (by decide) h
    · exact unchanged_runCommand unchanged_b2y (by decide) (by decide) h
    · exact unchanged_runCommand unchanged_y2b (by decide) (by decide) h
    · exact unchanged_runCommand unchanged_pack (by decide) (by decide) h
    · exact unchanged_runCommand unchanged_unpack (by decide) (by decide) h
    · exact unchanged_runCommand unchanged_replay (by decide) (by decide) h
  · exact unchanged_runCommand (ws := [.bit]) unchanged_tenc (by decide) (by decide) h

end Sys2Proof.Safety
end

section
/-! PROOFS. The token codec: `dec` inverts `enc` (41_token_codec.md R159), what TDEC appends (R154, R156, R158), and the
faults of TENC and TDEC (R153, R158). -/

namespace Sys2Proof.Safety

open Machine

variable {s : State}

/-! ## Decoding one record -/

/-- Settles O29: what stands before the offset is dropped, and what follows the wire form is not read. -/
theorem tokenCodecInverse : Obligations.TokenCodecInverse := by
  intro r a b
  rw [dec, List.append_assoc, List.drop_left, decBits_encRec]

/-- A whole record is the one whose wire form the bits begin with (R154). -/
theorem exists_decBits_of_whole {q : List Bit} (h : Whole q) :
    ∃ r, encRec r <+: q ∧ decBits q = ⟨r, recWidth r, false⟩ := by
  obtain ⟨e, he, hlen⟩ := h
  have hprefix : encRec (decBits q).record <+: q := encRec_decBits he hlen ▸ List.take_prefix _ _
  obtain ⟨b, hb⟩ := hprefix
  have hdec := decBits_encRec (decBits q).record b
  rw [hb] at hdec
  exact ⟨_, ⟨b, hb⟩, hdec⟩

theorem decBits_of_not_whole {q : List Bit} (h : ¬ Whole q) : decBits q = decTruncated q := by
  rcases he : q[32]? with _ | e
  · simp only [decBits, he]
  · have hlen : ¬ 41 + 16 * e.toNat ≤ q.length := fun hlen => h ⟨e, he, hlen⟩
    simp only [decBits, he, if_neg hlen]

/-- A field bit by bit: the bits of `q` from bit `k` on, 0 beyond the end of `q` (R156). -/
theorem getLsbD_bitField (q : List Bit) {k n i : Nat} (h : i < n) :
    (BitVec.ofNat n (bitField q k n)).getLsbD i = q[k + i]?.getD false := by
  rw [BitVec.getLsbD_ofNat, bitField, testBit_valLsb, List.getElem?_take, if_pos h, List.getElem?_drop, decide_eq_true h,
    Bool.true_and]

theorem isTruncatedRecord_decTruncated (q : List Bit) : IsTruncatedRecord q (decTruncated q).record := by
  refine ⟨fun i hi => ?_, fun i hi => getLsbD_bitField q hi, rfl⟩
  rw [decTruncated, getLsbD_bitField q hi, Nat.zero_add]

/-! ## TDEC -/

/-- With a bit at the cursor and room in TOK, TDEC does what `dec` gives for the bits from the cursor on. -/
theorem tdec_of_lt (hp : s.bitpos.toNat < s.bit.valid.length) (htok : s.tok.valid.length < s.cfg.tokCap) {d : Decoded}
    (hd : decBits (s.bit.valid.drop s.bitpos.toNat) = d) :
    tdec s = .ok (setTrunc d.truncated (setBitpos (s.bitpos.toNat + d.consumed)
      (setTok (s.tok.valid ++ [d.record]) s))) := by
  simp only [tdec, bitposOperand_ok hp, appendTok_of_lt htok, dec, hd]

/-- Settles O31: TDEC does what `dec` gives from the cursor on, the record that stands there or the truncated one. -/
theorem tdecDecodesAtTheCursor : Obligations.TdecDecodesAtTheCursor := by
  refine ⟨fun s hs hp htok hwhole => ?_, fun s hs hp htok hnot => ?_⟩
  · obtain ⟨r, hprefix, hdec⟩ := exists_decBits_of_whole hwhole
    exact completes_of_ok hs (tdec_of_lt hp htok hdec) hs ⟨r, hprefix, rfl, rfl, rfl⟩
  · have hend : s.bitpos.toNat + (s.bit.valid.drop s.bitpos.toNat).length = s.bit.valid.length := by
      rw [List.length_drop, Nat.add_sub_cancel' hp.le]
    exact completes_of_ok hs (tdec_of_lt hp htok (decBits_of_not_whole hnot)) hs
      ⟨_, isTruncatedRecord_decTruncated _, rfl, rfl, congrArg (BitVec.ofNat 32) hend⟩

/-! ## Faults -/

theorem tenc_of_no_record {idx : Nat} (h : s.tok.valid.length ≤ idx) : tenc idx s = .error (.raise .tokIndex) := by
  simp only [tenc, tokOperand_raise h]

theorem tenc_of_full {idx : Nat} {r : Rec} (hr : s.tok.valid[idx]? = some r)
    (h : s.cfg.bitCap < s.bit.valid.length + (encRec r).length) : tenc idx s = .error (.raise .capBit) := by
  simp only [tenc, tokOperand_ok hr, appendBit_of_lt h]

theorem tdec_of_no_bit (h : s.bit.valid.length ≤ s.bitpos.toNat) : tdec s = .error (.raise .bitPos) := by
  simp only [tdec, bitposOperand_raise h]

theorem tdec_of_full (hp : s.bitpos.toNat < s.bit.valid.length) (h : s.cfg.tokCap ≤ s.tok.valid.length) :
    tdec s = .error (.raise .capTok) := by
  simp only [tdec, bitposOperand_ok hp, appendTok_of_le h]

/-- Settles O32: each command checks its operand first, then the room. -/
theorem codecFaults : Obligations.CodecFaults :=
  ⟨fun _ _ hs hidx => faulted_of_raise hs (tenc_of_no_record hidx),
    fun _ _ r hs hr hfull => faulted_of_raise hs (tenc_of_full hr ((length_encRec r).symm ▸ hfull)),
    fun _ hs hp => faulted_of_raise hs (tdec_of_no_bit hp),
    fun _ hs hp hfull => faulted_of_raise hs (tdec_of_full hp hfull)⟩

end Sys2Proof.Safety
end

section
/-! PROOFS. The bitstream (42_bitstream.md R170 to R175). B2Y and PACK leave in PRE bytes whose bits are those of BIT and
zeros behind them; the loop of UNPACK takes off the whole records that its bits begin with, and what it does then depends
on the rest alone. -/

namespace Sys2Proof.Safety

open Machine

variable {s : State} {q rest : List Bit} {r : Rec} {rs : List Rec} {truncated : Bool} {consumed fuel room : Nat}

/-! ## B2Y and Y2B -/

theorem b2y_of_le (h : ceil8 s.bit.valid.length ≤ s.cfg.preCap) : b2y s = .ok (setPre (bytesLsb s.bit.valid) s) := if_pos h

theorem b2y_of_lt (h : s.cfg.preCap < ceil8 s.bit.valid.length) : b2y s = .error (.raise .capPre) :=
  if_neg (Nat.not_le.mpr h)

theorem y2b_of_le (h : 8 * s.pre.valid.length ≤ s.cfg.bitCap) : y2b s = .ok (setBit (bitsLsb s.pre.valid) s) := if_pos h

theorem y2b_of_lt (h : s.cfg.bitCap < 8 * s.pre.valid.length) : y2b s = .error (.raise .capBit) :=
  if_neg (Nat.not_le.mpr h)

/-- Bit `m` of byte `k` of the packed bits; 0 behind their end (20_memory.md R63). -/
theorem getLsbD_bytesLsb {k m : Nat} {x : Byte} (hx : (bytesLsb q)[k]? = some x) (hm : m < 8) :
    x.getLsbD m = q[8 * k + m]?.getD false := by
  rw [getElem?_bytesLsb] at hx
  split at hx
  · cases hx
    rw [getLsbD_byteLsb _ m hm, List.getElem?_drop]
  · cases hx

/-- Bit `m` of byte `k` stands at bit `8 * k + m` (20_memory.md R63). -/
theorem getElem?_bitsLsb (y : List Byte) (k : Nat) {m : Nat} (hm : m < 8) :
    (bitsLsb y)[8 * k + m]? = y[k]?.map fun x => x.getLsbD m := by
  induction y generalizing k with
  | nil => rfl
  | cons x y ih =>
    have hcons : bitsLsb (x :: y) = lsbBits x.toNat 8 ++ bitsLsb y := List.flatMap_cons
    cases k with
    | zero =>
      rw [hcons, List.getElem?_append_left (by rw [length_lsbBits]; omega), Nat.mul_zero, Nat.zero_add,
        getElem?_lsbBits_toNat x hm]
      rfl
    | succ k =>
      rw [hcons, List.getElem?_append_right (by rw [length_lsbBits]; omega), length_lsbBits,
        show 8 * (k + 1) + m - 8 = 8 * k + m by omega, ih, List.getElem?_cons_succ]

/-- Settles O33: where each bit stands is said bit by bit for either packing. -/
theorem bitsToBytesAndBack : Obligations.BitsToBytesAndBack :=
  ⟨fun _ hs hcap => completes_of_ok hs (b2y_of_le hcap) hs
      ⟨length_bytesLsb _, fun _ _ hx _ hm => getLsbD_bytesLsb hx hm⟩,
    fun _ hs hcap => faulted_of_raise hs (b2y_of_lt hcap),
    fun _ hs hcap => completes_of_ok hs (y2b_of_le hcap) hs
      ⟨length_bitsLsb _, fun k _ hm => getElem?_bitsLsb _ k hm⟩,
    fun _ hs hcap => faulted_of_raise hs (y2b_of_lt hcap)⟩

/-! ## PACK -/

/-- PACK stops at the first record whose wire form no longer fits (R172). -/
theorem packBits_of_lt {cap : Nat} (hq : q.length ≤ cap) (h : cap < q.length + totalWidth rs) :
    packBits cap rs q = .error (.raise .capBit) := by
  induction rs generalizing q with
  | nil => exact absurd h (Nat.not_lt.mpr hq)
  | cons r rs ih =>
    by_cases hr : q.length + (encRec r).length ≤ cap
    · have hrest : packBits cap rs (q ++ encRec r) = .error (.raise .capBit) := by
        refine ih (by rwa [List.length_append]) ?_
        simpa [totalWidth, length_encRec, Nat.add_assoc] using h
      simp only [packBits, appended_of_le hr, hrest]
    · simp only [packBits, appended_of_lt (Nat.not_le.mp hr)]

theorem pack_of_lt (h : s.cfg.bitCap < totalWidth s.tok.valid) : pack s = .error (.raise .capBit) := by
  have hq : packBits s.cfg.bitCap s.tok.valid [] = .error (.raise .capBit) :=
    packBits_of_lt (Nat.zero_le _) ((Nat.zero_add _).symm ▸ h)
  simp only [pack, hq]

theorem pack_of_bytes_lt (hbit : totalWidth s.tok.valid ≤ s.cfg.bitCap)
    (hpre : s.cfg.preCap < ceil8 (totalWidth s.tok.valid)) : pack s = .error (.raise .capPre) := by
  have hq : packBits s.cfg.bitCap s.tok.valid [] = .ok (s.tok.valid.flatMap encRec) :=
    packBits_of_le ((Nat.zero_add _).symm ▸ hbit)
  rw [← length_flatMap_encRec] at hpre
  simp only [pack, hq]
  exact b2y_of_lt hpre

/-- Settles O34: PACK joins the wire forms while they fit BIT, then does what B2Y does. -/
theorem packConcatenatesTheWireForms : Obligations.PackConcatenatesTheWireForms :=
  ⟨fun _ hs hbit hpre => completes_of_ok hs (pack_of_le hbit hpre) hs ⟨rfl, rfl⟩,
    fun _ hs hbit => faulted_of_raise hs (pack_of_lt hbit),
    fun _ hs hbit hpre => faulted_of_raise hs (pack_of_bytes_lt hbit hpre)⟩

/-! ## Cutting bits into records -/

/-- The two fields are given bit by bit and the literal is the sentinel, so there is one degraded record (R156). -/
theorem IsTruncatedRecord.eq_decTruncated (h : IsTruncatedRecord q r) : r = (decTruncated q).record := by
  obtain ⟨d, l, x⟩ := r
  obtain ⟨hd, hl, rfl⟩ := h
  obtain ⟨hd', hl', -⟩ := isTruncatedRecord_decTruncated q
  have hdist : d = (decTruncated q).record.distance :=
    BitVec.eq_of_getLsbD_eq fun i hi => (hd i hi).trans (hd' i hi).symm
  have hrun : l = (decTruncated q).record.runLength :=
    BitVec.eq_of_getLsbD_eq fun i hi => (hl i hi).trans (hl' i hi).symm
  rw [hdist, hrun]
  rfl

/-- A record in front of bits that are cut is cut off first. -/
theorem CutsInto.cons (r : Rec) (h : CutsInto q rs truncated consumed) :
    CutsInto (encRec r ++ q) (r :: rs) truncated (recWidth r + consumed) := by
  obtain ⟨whole, rest, rfl, ⟨hlen, rfl, rfl, rfl⟩ | ⟨hlen, hnot, rfl, rfl, r', hr', rfl⟩⟩ := h
  · exact ⟨r :: rs, rest, by simp, .inl ⟨hlen, rfl, rfl, rfl⟩⟩
  · exact ⟨r :: whole, rest, by simp, .inr ⟨hlen, hnot, rfl, by simp [length_encRec], r', hr', rfl⟩⟩

/-- A record is cut off while one stands whole at the front; each has a bit at least. -/
theorem exists_cutsInto (q : List Bit) : ∃ rs truncated consumed, CutsInto q rs truncated consumed := by
  induction hn : q.length using Nat.strongRecOn generalizing q with
  | _ n ih =>
    subst hn
    by_cases hwhole : Whole q
    · obtain ⟨r, ⟨b, rfl⟩, -⟩ := exists_decBits_of_whole hwhole
      have hb : b.length < (encRec r ++ b).length := by rw [List.length_append, length_encRec, recWidth]; omega
      obtain ⟨rs, truncated, consumed, hcut⟩ := ih _ hb b rfl
      exact ⟨_, _, _, hcut.cons r⟩
    · by_cases hlen : q.length < 8
      · exact ⟨[], false, 0, [], q, rfl, .inl ⟨hlen, rfl, rfl, rfl⟩⟩
      · exact ⟨_, true, q.length, [], q, rfl,
          .inr ⟨Nat.not_lt.mp hlen, hwhole, rfl, rfl, _, isTruncatedRecord_decTruncated q, rfl⟩⟩

/-! ## The loop of UNPACK -/

/-- What the loop leaves when the records `rs` stand whole in front of the bits that `u` was made from. -/
def recordsThen (rs : List Rec) (u : Unpacked) : Unpacked := ⟨rs ++ u.records, totalWidth rs + u.consumed, u.truncated⟩

/-- Fewer than 8 bits are ignored, whatever they are (R174). -/
theorem unpackFrom_of_lt (h : q.length < 8) : unpackFrom fuel q room = .ok ⟨[], 0, false⟩ := by
  cases fuel with
  | zero => rfl
  | succ fuel => simp only [unpackFrom, if_neg (Nat.not_le.mpr h)]

/-- 8 or more bits are a record, for which there must be room (R173). -/
theorem unpackFrom_of_full (h : 8 ≤ q.length) (hfuel : 0 < fuel) : unpackFrom fuel q 0 = .error (.raise .capTok) := by
  obtain ⟨fuel, rfl⟩ := Nat.exists_eq_succ_of_ne_zero hfuel.ne'
  simp only [unpackFrom, if_pos h, raise]

/-- A truncated tag is the last record (R173). -/
theorem unpackFrom_of_not_whole (h : 8 ≤ q.length) (hnot : ¬ Whole q) (hfuel : 0 < fuel) (hroom : 0 < room) :
    unpackFrom fuel q room = .ok ⟨[(decTruncated q).record], q.length, true⟩ := by
  obtain ⟨fuel, rfl⟩ := Nat.exists_eq_succ_of_ne_zero hfuel.ne'
  obtain ⟨room, rfl⟩ := Nat.exists_eq_succ_of_ne_zero hroom.ne'
  simp only [unpackFrom, if_pos h, decBits_of_not_whole hnot, decTruncated, if_true]

theorem unpackFrom_encRec_append (r : Rec) (q : List Bit) :
    unpackFrom (fuel + 1) (encRec r ++ q) (room + 1) = (unpackFrom fuel q room).map (recordsThen [r]) := by
  have hlen : 8 ≤ (encRec r ++ q).length := by rw [List.length_append, length_encRec, recWidth]; omega
  have hdrop : (encRec r ++ q).drop (recWidth r) = q := List.drop_left' (length_encRec r)
  simp only [unpackFrom, if_pos hlen, decBits_encRec, hdrop, Bool.false_eq_true, if_false]
  cases unpackFrom fuel q room <;> rfl

/-- The loop takes off whole records one by one; then it does what it does on the bits behind them. -/
theorem unpackFrom_flatMap_append (rs : List Rec) (q : List Bit) :
    unpackFrom (fuel + rs.length) (rs.flatMap encRec ++ q) (room + rs.length) =
      (unpackFrom fuel q room).map (recordsThen rs) := by
  induction rs with
  | nil => cases h : unpackFrom fuel q room <;> simp [h, Except.map, recordsThen, totalWidth]
  | cons r rs ih =>
    rw [List.flatMap_cons, List.append_assoc, List.length_cons, ← Nat.add_assoc, ← Nat.add_assoc,
      unpackFrom_encRec_append, ih]
    cases unpackFrom fuel q room <;> simp [Except.map, recordsThen, totalWidth, Nat.add_assoc]

/-- As many rounds as there are bits leave one for every bit behind the records. -/
theorem exists_fuel (rs : List Rec) (rest : List Bit) :
    ∃ k, (rs.flatMap encRec ++ rest).length = k + rs.length ∧ rest.length ≤ k := by
  have hle : rs.length ≤ totalWidth rs := by
    have hpos : ∀ w ∈ rs.map recWidth, 1 ≤ w :=
      List.forall_mem_map.mpr fun r _ => (show 1 ≤ 41 by decide).trans (Nat.le_add_right _ _)
    simpa [totalWidth] using List.length_le_sum_of_one_le _ hpos
  have hlen : (rs.flatMap encRec ++ rest).length = totalWidth rs + rest.length := by
    rw [List.length_append, length_flatMap_encRec]
  exact ⟨(rs.flatMap encRec ++ rest).length - rs.length, by omega, by omega⟩

theorem unpackFrom_of_cutsInto (h : CutsInto q rs truncated consumed) (hroom : rs.length ≤ room) :
    unpackFrom q.length q room = .ok ⟨rs, consumed, truncated⟩ := by
  obtain ⟨whole, rest, rfl, hrest⟩ := h
  obtain ⟨k, hk, hle⟩ := exists_fuel whole rest
  rcases hrest with ⟨hlen, rfl, rfl, rfl⟩ | ⟨hlen, hnot, rfl, rfl, r, hr, rfl⟩
  · obtain ⟨room, rfl⟩ := Nat.exists_eq_add_of_le' hroom
    rw [hk, unpackFrom_flatMap_append, unpackFrom_of_lt hlen]
    simp [Except.map, recordsThen]
  · rw [List.length_append, List.length_singleton] at hroom
    obtain ⟨room, rfl⟩ := Nat.exists_eq_add_of_le' (Nat.le_of_succ_le hroom)
    rw [hr.eq_decTruncated, hk, unpackFrom_flatMap_append,
      unpackFrom_of_not_whole hlen hnot (by omega) (by omega), ← hk]
    simp only [Except.map, recordsThen, List.length_append, length_flatMap_encRec]

/-! ## UNPACK -/

theorem unpack_of_cutsInto (hbit : 8 * s.pre.valid.length ≤ s.cfg.bitCap)
    (hcut : CutsInto (bitsLsb s.pre.valid) rs truncated consumed) (htok : rs.length ≤ s.cfg.tokCap) :
    unpack s = .ok (setTrunc truncated (setBitpos consumed (setTok rs (setBit (bitsLsb s.pre.valid) s)))) := by
  simp only [unpack, y2b_of_le hbit, setBit_bit, setBit_cfg, Buffer.fill, unpackFrom_of_cutsInto hcut htok]

/-- Settles O35: any bits can be cut, and the loop leaves what they are cut into. -/
theorem unpackCutsTheBitsIntoRecords : Obligations.UnpackCutsTheBitsIntoRecords :=
  ⟨exists_cutsInto, fun _ _ _ _ hs hbit hcut htok =>
    completes_of_ok hs (unpack_of_cutsInto hbit hcut htok) hs ⟨rfl, rfl, rfl, rfl⟩⟩

theorem unpack_of_lt (h : s.cfg.bitCap < 8 * s.pre.valid.length) : unpack s = .error (.raise .capBit) := by
  simp only [unpack, y2b_of_lt h]

theorem unpack_of_full (hbit : 8 * s.pre.valid.length ≤ s.cfg.bitCap)
    (hq : bitsLsb s.pre.valid = rs.flatMap encRec ++ rest) (hfull : rs.length = s.cfg.tokCap) (hrest : 8 ≤ rest.length) :
    unpack s = .error (.raise .capTok) := by
  obtain ⟨k, hk, hle⟩ := exists_fuel rs rest
  have hloop : unpackFrom (bitsLsb s.pre.valid).length (bitsLsb s.pre.valid) s.cfg.tokCap = .error (.raise .capTok) := by
    have hroom : s.cfg.tokCap = 0 + rs.length := by rw [Nat.zero_add, hfull]
    rw [hq, hk, hroom, unpackFrom_flatMap_append, unpackFrom_of_full hrest (by omega)]
    rfl
  simp only [unpack, y2b_of_le hbit, setBit_bit, setBit_cfg, Buffer.fill, hloop]

/-- Settles O36: Y2B's fault comes first; then the loop faults when TOK is full and 8 or more bits are left. -/
theorem unpackFaults : Obligations.UnpackFaults :=
  ⟨fun _ hs hbit => faulted_of_raise hs (unpack_of_lt hbit),
    fun _ _ _ hs hbit hq hfull hrest => faulted_of_raise hs (unpack_of_full hbit hq hfull hrest)⟩

/-! ## UNPACK after PACK -/

/-- The bits that PACK's bytes hold are cut into the records it packed: the padding is fewer than 8 bits (R175). -/
theorem cutsInto_packed (rs : List Rec) : CutsInto (bitsLsb (bytesLsb (rs.flatMap encRec))) rs false (totalWidth rs) := by
  refine ⟨rs, _, bitsLsb_bytesLsb _, .inl ⟨?_, rfl, rfl, rfl⟩⟩
  rw [List.length_replicate, padding, ceil8]
  omega

/-- Settles O37: what PACK leaves in PRE is cut into the records that were packed. -/
theorem unpackInvertsPack : Obligations.UnpackInvertsPack := by
  intro s hs htok hbit hpre hback
  refine completes_of_ok hs (pack_of_le hbit hpre) hs (completes_of_ok hs (unpack_of_cutsInto ?_ ?_ htok) hs ⟨rfl, rfl, rfl⟩)
  · change 8 * (bytesLsb (s.tok.valid.flatMap encRec)).length ≤ s.cfg.bitCap
    rwa [length_bytesLsb, length_flatMap_encRec]
  · exact cutsInto_packed s.tok.valid

end Sys2Proof.Safety
end

section
/-! PROOFS. REPLAY (43_replayer.md): a record's copy is a run that reads its own symbols behind some skipped positions; a
replay is the text of its records if TXT holds it, and a full TXT otherwise; the records of a text give the text back. -/

namespace Sys2Proof.Safety

open Machine

variable {s : State} {cap i n p : Nat} {x : Sym} {O O' T run : List Sym} {oor skip : Bool} {r : Rec} {rs : List Rec}
  {c : Params}

/-! ## Room in TXT -/

/-- The replay has come to the text `O`, or to a full TXT when TXT does not hold that text. -/
def reached (cap : Nat) (O : List Sym) (oor : Bool) : Except Stop Replayed :=
  if O.length ≤ cap then .ok ⟨O, oor⟩ else raise .capTxt

theorem reached_of_le (h : O.length ≤ cap) : reached cap O oor = .ok ⟨O, oor⟩ := if_pos h

theorem reached_of_lt (h : cap < O.length) : reached cap O oor = .error (.raise .capTxt) := if_neg (Nat.not_le.mpr h)

theorem emit_eq_reached : emit cap x ⟨O, oor⟩ = reached cap (O ++ [x]) oor := by
  by_cases h : (O ++ [x]).length ≤ cap
  · simp only [emit, appended_of_le (xs := O) (ys := [x]) (by simpa using h), reached_of_le h]
  · simp only [emit, appended_of_lt (xs := O) (ys := [x]) (by simpa using h), reached_of_lt (Nat.not_le.mp h)]

/-! ## One record's copy -/

/-- Each symbol of the run is the one that the copy finds at its position, counted from index `i` on: a symbol of `O`, or
one that the run has already appended (R192). -/
def RunFrom (O : List Sym) (i : Nat) (run : List Sym) : Prop :=
  ∀ k < run.length, (O ++ run)[O.length + k]? = (O ++ run)[i + k]?

theorem runFrom_cons (hx : O[i]? = some x) : RunFrom O i (x :: run) ↔ RunFrom (O ++ [x]) (i + 1) run := by
  obtain ⟨hi, -⟩ := List.getElem?_eq_some_iff.mp hx
  have happend : O ++ x :: run = O ++ [x] ++ run := by simp
  have hfirst : (O ++ x :: run)[O.length + 0]? = (O ++ x :: run)[i + 0]? := by simp [List.getElem?_append_left hi, hx]
  rw [RunFrom, List.length_cons, Nat.forall_lt_succ_left, and_iff_right hfirst]
  simp only [RunFrom, happend, List.length_append, List.length_singleton, Nat.add_assoc, Nat.add_comm 1]

theorem exists_runFrom (n : Nat) (hi : i < O.length) : ∃ run, run.length = n ∧ RunFrom O i run := by
  induction n generalizing O i with
  | zero => exact ⟨[], rfl, fun k hk => absurd hk (Nat.not_lt_zero k)⟩
  | succ n ih =>
    obtain ⟨run, hlen, hrun⟩ := ih (O := O ++ [O[i]]) (i := i + 1) (by simpa using hi)
    exact ⟨O[i] :: run, by rw [List.length_cons, hlen], (runFrom_cons (List.getElem?_eq_getElem hi)).mpr hrun⟩

/-- Positions out of range append nothing, whatever follows them (R193). -/
theorem copyRun_skip {idx : Int} (m : Nat) (h : ∀ k < n, idx + k < 0 ∨ (O.length : Int) ≤ idx + k) :
    copyRun cap (n + m) idx ⟨O, oor⟩ = copyRun cap m (idx + n) ⟨O, oor || decide (0 < n)⟩ := by
  induction n generalizing idx oor with
  | zero => simp
  | succ n ih =>
    have hnone : (if 0 ≤ idx then O[idx.toNat]? else none) = none := by
      have := h 0 (Nat.succ_pos n)
      split
      · exact List.getElem?_eq_none (by omega)
      · rfl
    have htail : ∀ k < n, idx + 1 + k < 0 ∨ (O.length : Int) ≤ idx + 1 + k := fun k hk => by
      have := h (k + 1) (by omega)
      omega
    rw [Nat.add_right_comm, copyRun, hnone]
    dsimp only
    rw [ih htail, show idx + 1 + n = idx + (n + 1 : Nat) by omega]
    simp

/-- Positions in range are copied one by one, as long as there is room. -/
theorem copyRun_of_runFrom (hi : i < O.length) (hrun : RunFrom O i run) (hcap : O.length ≤ cap) :
    copyRun cap run.length i ⟨O, oor⟩ = reached cap (O ++ run) oor := by
  induction run generalizing O i with
  | nil => rw [List.append_nil, reached_of_le hcap]; rfl
  | cons x run ih =>
    have hx : O[i]? = some x := by simpa [List.getElem?_append_left hi] using (hrun 0 (by simp)).symm
    have happend : O ++ x :: run = O ++ [x] ++ run := by simp
    rw [List.length_cons, copyRun, if_pos (Int.natCast_nonneg i), Int.toNat_natCast, hx, happend]
    dsimp only
    rw [emit_eq_reached]
    by_cases hroom : (O ++ [x]).length ≤ cap
    · rw [reached_of_le hroom]
      exact ih (by simp; omega) ((runFrom_cons hx).mp hrun) hroom
    · rw [reached_of_lt (Nat.not_le.mp hroom), reached_of_lt (by rw [List.length_append]; omega)]

/-- What a record copies is described by a run, and a run there always is. -/
theorem exists_isCopy (O : List Sym) (r : Rec) : ∃ run, IsCopy O r run := by
  unfold IsCopy
  split
  · exact ⟨[], rfl⟩
  · rename_i h
    obtain ⟨hd, hO⟩ := not_or.mp h
    have hd : r.distance.toNat ≠ 0 := fun h => hd (BitVec.eq_of_toNat_eq h)
    have hpos := List.length_pos_iff.mpr hO
    obtain ⟨run, hlen, hrun⟩ := exists_runFrom (O := O) (i := O.length - r.distance.toNat)
      (r.runLength.toNat - (r.distance.toNat - O.length)) (by omega)
    exact ⟨run, hlen, hrun⟩

/-- The copy of a record: first the positions before the start of the output are skipped, then the run is copied; with
nothing to copy from, every position is skipped (R191 to R193). -/
theorem copyRun_of_isCopy (hcopy : IsCopy O r run) (hskip : skip = true ↔ SkipsPosition O r) (hcap : O.length ≤ cap) :
    copyRun cap r.runLength.toNat ((O.length : Int) - r.distance.toNat) ⟨O, oor⟩ =
      reached cap (O ++ run) (oor || skip) := by
  have hzero : r.distance = 0 ↔ r.distance.toNat = 0 := BitVec.toNat_inj.symm
  unfold IsCopy at hcopy
  unfold SkipsPosition at hskip
  rw [hzero] at hskip
  split at hcopy
  · rename_i hnothing
    have hlen : r.distance.toNat = 0 ∨ O.length = 0 := by rwa [hzero, ← List.length_eq_zero_iff] at hnothing
    have hflag : skip = decide (0 < r.runLength.toNat) := by
      rw [Bool.eq_iff_iff, hskip, decide_eq_true_iff]
      omega
    rw [hcopy, List.append_nil, reached_of_le hcap, hflag]
    exact copyRun_skip 0 fun k _ => by omega
  · rename_i hsomething
    obtain ⟨hd, hO⟩ := not_or.mp hsomething
    obtain ⟨hlen, hrun⟩ := hcopy
    have hpos := List.length_pos_iff.mpr hO
    rw [hzero] at hd
    have hsplit : r.runLength.toNat = min r.runLength.toNat (r.distance.toNat - O.length) + run.length := by omega
    have hflag : skip = decide (0 < min r.runLength.toNat (r.distance.toNat - O.length)) := by
      rw [Bool.eq_iff_iff, hskip, decide_eq_true_iff]
      omega
    rw [hsplit, copyRun_skip _ fun k hk => by omega, ← hflag]
    by_cases hempty : run = []
    · rw [hempty, List.append_nil, reached_of_le hcap]
      rfl
    · have := List.length_pos_iff.mpr hempty
      rw [← copyRun_of_runFrom (by omega) hrun hcap]
      congr 1
      omega

/-! ## The records -/

/-- The literal as it is appended: not when it is the sentinel (R194). -/
def appendedLiteral (r : Rec) : List Sym := if r.literal = sentinel then [] else [r.literal]

theorem replayRec_of_isCopy (hcopy : IsCopy O r run) (hskip : skip = true ↔ SkipsPosition O r) (hcap : O.length ≤ cap) :
    replayRec cap r ⟨O, oor⟩ = reached cap (O ++ run ++ appendedLiteral r) (oor || skip) := by
  rw [replayRec, copyRun_of_isCopy hcopy hskip hcap, appendedLiteral]
  by_cases hroom : (O ++ run).length ≤ cap
  · rw [reached_of_le hroom]
    dsimp only
    split
    · rw [List.append_nil, reached_of_le hroom]
    · exact emit_eq_reached
  · rw [reached_of_lt (Nat.not_le.mp hroom), reached_of_lt (by rw [List.length_append]; omega)]

theorem exists_bool_iff (P : Prop) : ∃ b : Bool, b = true ↔ P := by
  classical exact ⟨decide P, decide_eq_true_iff⟩

theorem exists_replays (rs : List Rec) (O : List Sym) : ∃ O' oor, Replays rs O O' oor := by
  induction rs generalizing O with
  | nil => exact ⟨O, false, rfl, rfl⟩
  | cons r rs ih =>
    obtain ⟨run, hcopy⟩ := exists_isCopy O r
    obtain ⟨O', rest, hrest⟩ := ih (O ++ run ++ appendedLiteral r)
    obtain ⟨oor, hoor⟩ := exists_bool_iff (SkipsPosition O r ∨ rest = true)
    exact ⟨O', oor, run, rest, hcopy, hrest, hoor⟩

theorem Replays.length_le (h : Replays rs O O' oor) : O.length ≤ O'.length := by
  induction rs generalizing O oor with
  | nil => exact h.1 ▸ le_rfl
  | cons r rs ih =>
    obtain ⟨run, rest, -, hrest, -⟩ := h
    have := ih hrest
    simp only [List.length_append] at this
    omega

/-- The machine's loop over the records comes to the text that they describe; so that text is the only one. -/
theorem replayRecs_of_replays {flag : Bool} (h : Replays rs O O' oor) (hcap : O.length ≤ cap) :
    replayRecs cap rs ⟨O, flag⟩ = reached cap O' (flag || oor) := by
  induction rs generalizing O oor flag with
  | nil =>
    obtain ⟨rfl, rfl⟩ := h
    rw [Bool.or_false, reached_of_le hcap]
    rfl
  | cons r rs ih =>
    obtain ⟨run, rest, hcopy, hrest, hoor⟩ := h
    obtain ⟨skip, hskip⟩ := exists_bool_iff (SkipsPosition O r)
    obtain rfl : oor = (skip || rest) := by rw [Bool.eq_iff_iff, hoor, ← hskip, Bool.or_eq_true]
    rw [replayRecs, replayRec_of_isCopy hcopy hskip hcap]
    by_cases hroom : (O ++ run ++ appendedLiteral r).length ≤ cap
    · rw [reached_of_le hroom, ← Bool.or_assoc]
      exact ih hrest hroom
    · rw [reached_of_lt (Nat.not_le.mp hroom), reached_of_lt ((Nat.not_le.mp hroom).trans_le hrest.length_le)]

/-! ## REPLAY -/

theorem lineEnd_iff : lineEnd x = true ↔ IsLineEnd x := by simp [lineEnd, IsLineEnd]

/-- The strip removes line ends, and leaves none at the end (R195). -/
theorem isStripOf_strip (O : List Sym) : IsStripOf O (strip O) := by
  refine ⟨O.rtakeWhile lineEnd, List.rdropWhile_append_rtakeWhile.symm, fun x hx => ?_, fun x hx hend => ?_⟩
  · exact lineEnd_iff.mp (List.mem_rtakeWhile_imp hx)
  · obtain ⟨hne, rfl⟩ := List.mem_getLast?_eq_getLast hx
    exact List.rdropWhile_last_not lineEnd O hne (lineEnd_iff.mpr hend)

theorem replay_of_le (h : Replays s.tok.valid [] O oor) (hcap : O.length ≤ s.cfg.txtCap) :
    replay s = .ok (setOor oor (setTxt (strip O) s)) := by
  simp only [replay, replayRecs_of_replays h (Nat.zero_le _), reached_of_le hcap, Bool.false_or]

theorem replay_of_lt (h : Replays s.tok.valid [] O oor) (hcap : s.cfg.txtCap < O.length) :
    replay s = .error (.raise .capTxt) := by
  simp only [replay, replayRecs_of_replays h (Nat.zero_le _), reached_of_lt hcap]

/-- Settles O38: the records describe one text, and the loop comes to it or to a full TXT. -/
theorem replayRebuildsTheText : Obligations.ReplayRebuildsTheText := by
  intro s hs
  obtain ⟨O, oor, h⟩ := exists_replays s.tok.valid []
  exact ⟨O, oor, h,
    fun hcap => completes_of_ok hs (replay_of_le h hcap) hs ⟨isStripOf_strip O, rfl⟩,
    fun hcap => faulted_of_raise hs (replay_of_lt h hcap)⟩

/-! ## REPLAY after TOKENIZE -/

/-- The literal is the symbol behind the run, the sentinel when there is none (R136). -/
theorem IsRecordAt.literal_eq (h : IsRecordAt c T p r) : r.literal = T[p + r.runLength.toNat]?.getD sentinel := by
  obtain ⟨-, -, hrun, hlit⟩ | ⟨-, -, -, -, hlit⟩ := h
  · rw [hrun, show p + (0 : U16).toNat = p from rfl, hlit, Option.getD_some]
  · exact hlit

/-- The candidate of a record lies in the text before the position (R131), so no copy position is out of range. -/
theorem IsRecordAt.not_skipsPosition (hp : p < T.length) (h : IsRecordAt c T p r) : ¬ SkipsPosition (T.take p) r := by
  rintro ⟨hrun, hout⟩
  obtain ⟨-, -, hzero, -⟩ | ⟨⟨hd, hle, -⟩, -⟩ := h
  · rw [hzero] at hrun
    exact absurd hrun (by decide)
  · rw [List.length_take_of_le hp.le] at hout
    obtain hout | hout := hout
    · rw [hout] at hd
      exact absurd hd (by decide)
    · omega

/-- The run of a position's record copies that part of the text onto what stands before it (R130). -/
theorem IsRecordAt.isCopy (hp : p < T.length) (h : IsRecordAt c T p r) :
    IsCopy (T.take p) r ((T.drop p).take r.runLength.toNat) := by
  unfold IsCopy
  obtain ⟨-, hdist, hrun, -⟩ | ⟨⟨hd, hle, -⟩, -, ⟨-, hend, hagree⟩, -, -⟩ := h
  · rw [if_pos (.inl hdist), hrun]
    rfl
  · have hlen : ((T.drop p).take r.runLength.toNat).length = r.runLength.toNat := by
      rw [List.length_take, List.length_drop]
      omega
    have hsome : ¬ (r.distance = 0 ∨ T.take p = []) := by
      rintro (hzero | hnil)
      · rw [hzero] at hd
        exact absurd hd (by decide)
      · rw [← List.length_eq_zero_iff, List.length_take_of_le hp.le] at hnil
        omega
    rw [if_neg hsome, List.length_take_of_le hp.le, hlen, ← List.take_add]
    refine ⟨by omega, fun k hk => ?_⟩
    rw [List.getElem?_take_of_lt (by omega), List.getElem?_take_of_lt (by omega)]
    exact (hagree k hk).symm

/-- A record's run and literal are the part of the text that it accounts for, which holds no sentinel. -/
theorem IsRecordAt.take_next (hT : sentinel ∉ T) (h : IsRecordAt c T p r) :
    T.take p ++ (T.drop p).take r.runLength.toNat ++ appendedLiteral r = T.take (p + r.runLength.toNat + 1) := by
  have hlit : appendedLiteral r = T[p + r.runLength.toNat]?.toList := by
    rw [appendedLiteral, h.literal_eq]
    cases hx : T[p + r.runLength.toNat]? with
    | none => rfl
    | some x =>
      have hne : x ≠ sentinel := fun heq => hT (heq ▸ List.mem_of_getElem? hx)
      exact if_neg hne
  rw [hlit, ← List.take_add, List.take_add_one]

/-- The records from a position on that cover the rest of the text replay it onto the part before them. -/
theorem replays_of_recordsFrom (hc : c.Wf) (hT : sentinel ∉ T) (h : RecordsFrom c T p rs)
    (hend : T.length ≤ p + positionAfter rs rs.length) : Replays rs (T.take p) T false := by
  induction rs generalizing p with
  | nil => exact ⟨(List.take_of_length_le hend).symm, rfl⟩
  | cons r rs ih =>
    obtain ⟨hp, hr, hrecs⟩ := h
    have hat : IsRecordAt c T p r := hr ▸ isRecordAt_recordAt hc hp
    rw [List.length_cons, positionAfter_cons_succ] at hend
    have hrest : Replays rs (T.take (p + r.runLength.toNat + 1)) T false := ih hrecs (by omega)
    rw [← hat.take_next hT] at hrest
    exact ⟨_, false, hat.isCopy hp, hrest, by simp [hat.not_skipsPosition hp]⟩

/-- Settles O39: TOKENIZE leaves the records of the text, and they replay it. -/
theorem replayInvertsTokenize : Obligations.ReplayInvertsTokenize := by
  intro s hs hc hT htok htxt
  obtain ⟨rs, hok, hrecs, -, hend⟩ := tokenize_records htok
  have hreplays := replays_of_recordsFrom hc hT hrecs ((Nat.zero_add _).symm ▸ hend)
  exact completes_of_ok hs hok hs (completes_of_ok hs (replay_of_le hreplays htxt) hs ⟨isStripOf_strip _, rfl⟩)

end Sys2Proof.Safety
end

section
/-! SUPPORT. The merge loop of HBUILD (44_prefix_tree.md R208 to R210): what it keeps from round to round, and what that
says of the arena when one member is left. -/

namespace Sys2Proof.Safety

open Machine

variable {nodes ns more : List Node} {q : List Member} {a b m x : Member} {i j k total : Nat} {w : Word}
  {l r : BitVec 16}

/-! ## The order of the priority structure -/

theorem before_iff :
    before a b = true ↔ a.weight.toNat < b.weight.toNat ∨ (a.weight = b.weight ∧ a.index < b.index) := by
  simp [before]

theorem before_trans (hab : before a b = true) (hbx : before b x = true) : before a x = true := by
  rw [before_iff] at *
  obtain hab | ⟨hab, hi⟩ := hab
  · obtain hbx | ⟨hbx, -⟩ := hbx
    · exact .inl (hab.trans hbx)
    · exact .inl (hbx ▸ hab)
  · obtain hbx | ⟨hbx, hi'⟩ := hbx
    · exact .inl (hab ▸ hbx)
    · exact .inr ⟨hab.trans hbx, hi.trans hi'⟩

/-- Of two members with different indices one comes first (R209). -/
theorem before_of_not_before (h : ¬ before a b = true) (hne : a.index ≠ b.index) : before b a = true := by
  simp only [before_iff, ← BitVec.toNat_inj] at *
  omega

/-- The priority structure is in the order of R209. -/
def InOrder (q : List Member) : Prop := q.Pairwise fun a b => before a b = true

theorem InOrder.enqueue (h : InOrder q) (hm : ∀ x ∈ q, m.index ≠ x.index) : InOrder (enqueue m q) := by
  induction q with
  | nil => exact List.pairwise_singleton _ m
  | cons x q ih =>
    obtain ⟨hx, hq⟩ := List.pairwise_cons.mp h
    unfold Machine.enqueue
    split
    · rename_i hmx
      refine List.pairwise_cons.mpr ⟨fun y hy => ?_, h⟩
      obtain rfl | hy := List.mem_cons.mp hy
      · exact hmx
      · exact before_trans hmx (hx y hy)
    · rename_i hmx
      refine List.pairwise_cons.mpr ⟨fun y hy => ?_, ih hq fun y hy => hm y (List.mem_cons_of_mem _ hy)⟩
      obtain rfl | hy := List.mem_cons.mp ((enqueue_perm m q).mem_iff.mp hy)
      · exact before_of_not_before hmx (hm x List.mem_cons_self)
      · exact hx y hy

/-! ## Weights and children in a growing arena -/

/-- The weight of a node (10_state.md R22). -/
def nodeWeight : Node → Word
  | .leaf w _ => w
  | .internal w _ _ => w

theorem weightAt_eq {n : Node} (h : nodes[i]? = some n) : weightAt nodes i = (nodeWeight n).toNat := by
  cases n <;> simp only [weightAt, h, nodeWeight]

theorem weightAt_append (h : i < nodes.length) : weightAt (nodes ++ more) i = weightAt nodes i := by
  rw [weightAt, weightAt, List.getElem?_append_left h]

theorem sooner_append (hi : i < nodes.length) (hj : j < nodes.length) :
    Sooner (nodes ++ more) i j ↔ Sooner nodes i j := by
  rw [Sooner, Sooner, weightAt_append hi, weightAt_append hj]

theorem ChildOf.lt_length (h : ChildOf nodes i j) : j < nodes.length := by
  obtain ⟨_, _, _, hj, -⟩ := h
  exact (List.getElem?_eq_some_iff.mp hj).1

theorem childOf_append (h : j < nodes.length) : ChildOf (nodes ++ more) i j ↔ ChildOf nodes i j := by
  rw [ChildOf, ChildOf, List.getElem?_append_left h]

/-- A new node takes its two children from the nodes that are free, and no other. -/
theorem free_concat : (∀ j, ¬ ChildOf (nodes ++ [.internal w l r]) i j) ↔
    (∀ j, ¬ ChildOf nodes i j) ∧ i ≠ l.toNat ∧ i ≠ r.toNat := by
  have hlast : ChildOf (nodes ++ [.internal w l r]) i nodes.length ↔ l.toNat = i ∨ r.toNat = i := by simp [ChildOf]
  constructor
  · intro h
    have hlr : ¬ (l.toNat = i ∨ r.toNat = i) := fun hlr => h _ (hlast.mpr hlr)
    exact ⟨fun j hj => h j ((childOf_append hj.lt_length).mpr hj), by omega, by omega⟩
  · rintro ⟨h, hl, hr⟩ j hj
    obtain hlt | rfl : j < nodes.length ∨ j = nodes.length := by
      have := hj.lt_length
      rw [List.length_append, List.length_singleton] at this
      omega
    · exact h j ((childOf_append hlt).mp hj)
    · obtain hl' | hr' := hlast.mp hj
      · exact hl hl'.symm
      · exact hr hr'.symm

theorem MergeOrder.child_lt (h : MergeOrder nodes) (hc : ChildOf nodes i j) : i < j := by
  obtain ⟨w, l, r, hj, hi⟩ := hc
  obtain ⟨hl, hr, -⟩ := h j w l r hj
  obtain rfl | rfl := hi
  · exact hl
  · exact hr

/-- The rule of R210 for one merged node, read in the arena as it was when the node was created. -/
structure MergesFirstTwo (nodes : List Node) (w : Word) (l r : BitVec 16) : Prop where
  left_lt : l.toNat < nodes.length
  right_lt : r.toNat < nodes.length
  left_first : Sooner nodes l.toNat r.toNat
  weight : w.toNat = weightAt nodes l.toNat + weightAt nodes r.toNat
  left_free : ∀ j, ¬ ChildOf nodes l.toNat j
  right_free : ∀ j, ¬ ChildOf nodes r.toNat j
  right_second : ∀ i < nodes.length, (∀ j, ¬ ChildOf nodes i j) → i ≠ l.toNat → i ≠ r.toNat → Sooner nodes r.toNat i

/-- A new node that follows the rule leaves an arena that does: the rule looks only at what comes before a node. -/
theorem MergeOrder.concat (h : MergeOrder nodes) (hm : MergesFirstTwo nodes w l r) :
    MergeOrder (nodes ++ [.internal w l r]) := by
  have hfree {i k : Nat} (hk : k ≤ nodes.length) :
      (∀ j < k, ¬ ChildOf (nodes ++ [.internal w l r]) i j) ↔ ∀ j < k, ¬ ChildOf nodes i j :=
    forall₂_congr fun j hj => not_congr (childOf_append (hj.trans_le hk))
  intro k w' l' r' hk
  obtain hlt | rfl | hgt := lt_trichotomy k nodes.length
  · rw [List.getElem?_append_left hlt] at hk
    obtain ⟨hl, hr, hlr, hw, hnot, hnext⟩ := h k w' l' r' hk
    rw [sooner_append (hl.trans hlt) (hr.trans hlt), weightAt_append (hl.trans hlt), weightAt_append (hr.trans hlt)]
    refine ⟨hl, hr, hlr, hw, fun j hj => ?_, fun i hi hnoti => ?_⟩
    · rw [childOf_append (hj.trans hlt), childOf_append (hj.trans hlt)]
      exact hnot j hj
    · rw [sooner_append (hr.trans hlt) (hi.trans hlt)]
      exact hnext i hi ((hfree hlt.le).mp hnoti)
  · obtain ⟨rfl, rfl, rfl⟩ : w = w' ∧ l = l' ∧ r = r' := by simpa using hk
    rw [sooner_append hm.left_lt hm.right_lt, weightAt_append hm.left_lt, weightAt_append hm.right_lt]
    refine ⟨hm.left_lt, hm.right_lt, hm.left_first, hm.weight, fun j hj => ?_, fun i hi hnoti => ?_⟩
    · rw [childOf_append hj, childOf_append hj]
      exact ⟨hm.left_free j, hm.right_free j⟩
    · rw [sooner_append hm.right_lt hi]
      exact hm.right_second i hi fun j hj => (hfree le_rfl).mp hnoti j hj.lt_length hj
  · rw [List.getElem?_eq_none (by simpa using hgt)] at hk
    cases hk

/-! ## The state of the loop -/

/-- What every round of the merge loop keeps: the members are, in order, the nodes that are not yet children, each with
its weight, and the weights add up to the same total. -/
structure Merging (nodes : List Node) (q : List Member) (total : Nat) : Prop where
  order : MergeOrder nodes
  sorted : InOrder q
  weight : ∀ m ∈ q, weightAt nodes m.index = m.weight.toNat
  members : ∀ i, i ∈ q.map Member.index ↔ i < nodes.length ∧ ∀ j, ¬ ChildOf nodes i j
  sum : (q.map fun m => m.weight.toNat).sum = total

theorem Merging.index_lt (h : Merging nodes q total) (hm : m ∈ q) : m.index < nodes.length :=
  ((h.members m.index).mp (List.mem_map_of_mem hm)).1

theorem Merging.not_child (h : Merging nodes q total) (hm : m ∈ q) : ∀ j, ¬ ChildOf nodes m.index j :=
  ((h.members m.index).mp (List.mem_map_of_mem hm)).2

theorem Merging.exists_member (h : Merging nodes q total) (hi : i < nodes.length) (hfree : ∀ j, ¬ ChildOf nodes i j) :
    ∃ m ∈ q, m.index = i :=
  List.mem_map.mp ((h.members i).mpr ⟨hi, hfree⟩)

theorem Merging.sooner (h : Merging nodes q total) (ha : a ∈ q) (hb : b ∈ q) (hab : before a b = true) :
    Sooner nodes a.index b.index := by
  rw [before_iff, ← BitVec.toNat_inj] at hab
  rwa [Sooner, h.weight a ha, h.weight b hb]

theorem Merging.index_ne (h : Merging nodes q total) (ha : a ∈ q) (hb : b ∈ q) (hab : before a b = true) :
    a.index ≠ b.index := fun heq => by
  have hs := h.sooner ha hb hab
  rw [heq, Sooner] at hs
  omega

/-- The first two members are merged as the rule asks. -/
theorem Merging.mergesFirstTwo (h : Merging nodes (a :: b :: q) total) (htotal : total < 2 ^ 32)
    (ha : l.toNat = a.index) (hb : r.toNat = b.index) : MergesFirstTwo nodes (a.weight + b.weight) l r := by
  have hma : a ∈ a :: b :: q := List.mem_cons_self
  have hmb : b ∈ a :: b :: q := List.mem_cons_of_mem a List.mem_cons_self
  obtain ⟨hafirst, hrest⟩ := List.pairwise_cons.mp h.sorted
  obtain ⟨hbfirst, -⟩ := List.pairwise_cons.mp hrest
  have hsum := h.sum
  simp only [List.map_cons, List.sum_cons] at hsum
  constructor
  case left_lt => exact ha ▸ h.index_lt hma
  case right_lt => exact hb ▸ h.index_lt hmb
  case left_first => exact ha ▸ hb ▸ h.sooner hma hmb (hafirst b List.mem_cons_self)
  case weight => rw [ha, hb, h.weight a hma, h.weight b hmb, BitVec.toNat_add_of_lt (by omega)]
  case left_free => exact ha ▸ h.not_child hma
  case right_free => exact hb ▸ h.not_child hmb
  case right_second =>
    intro i hi hfree hia hib
    obtain ⟨m, hm, rfl⟩ := h.exists_member hi hfree
    obtain rfl | rfl | hm' : m = a ∨ m = b ∨ m ∈ q := by simpa using hm
    · exact absurd ha.symm hia
    · exact absurd hb.symm hib
    · exact hb ▸ h.sooner hmb hm (hbfirst m hm')

/-- One round of the loop. -/
theorem Merging.merge (h : Merging nodes (a :: b :: q) total) (htotal : total < 2 ^ 32) (ha : l.toNat = a.index)
    (hb : r.toNat = b.index) :
    Merging (nodes ++ [.internal (a.weight + b.weight) l r]) (enqueue ⟨a.weight + b.weight, nodes.length⟩ q) total := by
  have hm := h.mergesFirstTwo htotal ha hb
  have hmem {x : Member} (hx : x ∈ q) : x ∈ a :: b :: q := List.mem_cons_of_mem a (List.mem_cons_of_mem b hx)
  have hma : a ∈ a :: b :: q := List.mem_cons_self
  have hmb : b ∈ a :: b :: q := List.mem_cons_of_mem a List.mem_cons_self
  have hperm := enqueue_perm ⟨a.weight + b.weight, nodes.length⟩ q
  obtain ⟨hafirst, hrest⟩ := List.pairwise_cons.mp h.sorted
  obtain ⟨hbfirst, hq⟩ := List.pairwise_cons.mp hrest
  constructor
  case order => exact h.order.concat hm
  case sorted => exact InOrder.enqueue hq fun x hx => (h.index_lt (hmem hx)).ne'
  case weight =>
    intro x hx
    obtain rfl | hx := List.mem_cons.mp (hperm.mem_iff.mp hx)
    · exact weightAt_eq List.getElem?_concat_length
    · rw [weightAt_append (h.index_lt (hmem hx)), h.weight x (hmem hx)]
  case members =>
    intro i
    have hold := h.members i
    simp only [List.map_cons, List.mem_cons] at hold
    rw [(hperm.map Member.index).mem_iff, List.map_cons, List.mem_cons, List.length_append, List.length_singleton,
      free_concat, ha, hb]
    constructor
    · rintro (rfl | hi)
      · refine ⟨Nat.lt_succ_self _, fun j hj => ?_, (h.index_lt hma).ne', (h.index_lt hmb).ne'⟩
        exact absurd (h.order.child_lt hj) (Nat.not_lt.mpr hj.lt_length.le)
      · obtain ⟨x, hx, rfl⟩ := List.mem_map.mp hi
        exact ⟨(h.index_lt (hmem hx)).trans (Nat.lt_succ_self _), h.not_child (hmem hx),
          (h.index_ne hma (hmem hx) (hafirst x (List.mem_cons_of_mem b hx))).symm,
          (h.index_ne hmb (hmem hx) (hbfirst x hx)).symm⟩
    · rintro ⟨hi, hfree, hia, hib⟩
      obtain hi | rfl := Nat.lt_succ_iff_lt_or_eq.mp hi
      · exact .inr (((hold.mpr ⟨hi, hfree⟩).resolve_left hia).resolve_left hib)
      · exact .inl rfl
  case sum =>
    have hsum := h.sum
    simp only [List.map_cons, List.sum_cons] at hsum
    rw [(hperm.map fun m => m.weight.toNat).sum_eq, List.map_cons, List.sum_cons, BitVec.toNat_add_of_lt (by omega)]
    omega

/-- The loop ends with one member, the root. -/
theorem mergeFrom_merging {fuel : Nat} (h : Merging nodes q total) (htotal : total < 2 ^ 32) (hq : q ≠ [])
    (hfuel : q.length ≤ fuel + 1) (hn : nodes.length + q.length ≤ 2 ^ 16) :
    ∃ m, (mergeFrom fuel nodes q).2 = m.index ∧ Merging (mergeFrom fuel nodes q).1 [m] total := by
  induction fuel generalizing nodes q with
  | zero =>
    obtain ⟨a, rfl⟩ : ∃ a, q = [a] := List.length_eq_one_iff.mp (by have := List.length_pos_iff.mpr hq; omega)
    exact ⟨a, rfl, h⟩
  | succ fuel ih =>
    match q with
    | [a] => exact ⟨a, rfl, h⟩
    | a :: b :: q =>
      simp only [List.length_cons] at hfuel hn
      have hlen : (enqueue ⟨a.weight + b.weight, nodes.length⟩ q).length = q.length + 1 :=
        (enqueue_perm _ q).length_eq
      have ha := h.index_lt (m := a) (by simp)
      have hb := h.index_lt (m := b) (by simp)
      exact ih (h.merge htotal (l := BitVec.ofNat 16 a.index) (r := BitVec.ofNat 16 b.index)
          (Nat.mod_eq_of_lt (by omega)) (Nat.mod_eq_of_lt (by omega)))
        (List.ne_nil_of_length_pos (by omega)) (by omega)
        (by simp only [List.length_append, List.length_singleton]; omega)

/-- The loop only adds merged nodes behind those that are there. -/
theorem mergeFrom_append (fuel : Nat) (nodes : List Node) (q : List Member) :
    ∃ more, (mergeFrom fuel nodes q).1 = nodes ++ more ∧ ∀ n ∈ more, ∃ w l r, n = .internal w l r := by
  induction fuel generalizing nodes q with
  | zero => exact ⟨[], by cases q <;> simp [mergeFrom], by simp⟩
  | succ fuel ih =>
    match q with
    | [] | [_] => exact ⟨[], by simp [mergeFrom], by simp⟩
    | a :: b :: q =>
      obtain ⟨more, hmore, hinternal⟩ := ih
        (nodes ++ [.internal (a.weight + b.weight) (BitVec.ofNat 16 a.index) (BitVec.ofNat 16 b.index)])
        (enqueue ⟨a.weight + b.weight, nodes.length⟩ q)
      refine ⟨.internal (a.weight + b.weight) (BitVec.ofNat 16 a.index) (BitVec.ofNat 16 b.index) :: more,
        by rw [mergeFrom, hmore, List.append_assoc]; rfl, fun n hn => ?_⟩
      obtain rfl | hn := List.mem_cons.mp hn
      · exact ⟨_, _, _, rfl⟩
      · exact hinternal n hn

/-! ## When one member is left -/

/-- The last node is no one's child, so it is the member that is left. -/
theorem Merging.root_last (h : Merging nodes [m] total) : m.index + 1 = nodes.length := by
  have hlt := h.index_lt List.mem_cons_self
  obtain ⟨_, hx, hlast⟩ := h.exists_member (i := nodes.length - 1) (by omega) fun j hj => by
    have := h.order.child_lt hj
    have := hj.lt_length
    omega
  obtain rfl := List.mem_singleton.mp hx
  omega

theorem Merging.root_weight (h : Merging nodes [m] total) : weightAt nodes m.index = total := by
  rw [h.weight m List.mem_cons_self, ← h.sum]
  simp

theorem Merging.root_or_child (h : Merging nodes [m] total) (hi : i < nodes.length) :
    i = m.index ∨ ∃ j, ChildOf nodes i j := by
  by_contra hcon
  obtain ⟨hne, hfree⟩ := not_or.mp hcon
  obtain ⟨_, hx, rfl⟩ := h.exists_member hi (not_exists.mp hfree)
  exact hne (congrArg Member.index (List.mem_singleton.mp hx))

/-! ## The start of the loop -/

theorem queueOf_cons (i : Nat) (n : Node) (ns : List Node) :
    queueOf i (n :: ns) = enqueue ⟨nodeWeight n, i⟩ (queueOf (i + 1) ns) := by cases n <;> rfl

/-- Each node is a member once, with its weight and index. -/
theorem queueOf_perm (i : Nat) (ns : List Node) :
    (queueOf i ns).Perm ((ns.zipIdx i).map fun p => ⟨nodeWeight p.1, p.2⟩) := by
  induction ns generalizing i with
  | nil => exact .refl _
  | cons n ns ih =>
    rw [queueOf_cons, List.zipIdx_cons, List.map_cons]
    exact (enqueue_perm _ _).trans ((ih (i + 1)).cons _)

theorem mem_queueOf :
    m ∈ queueOf i ns ↔ ∃ n, i ≤ m.index ∧ ns[m.index - i]? = some n ∧ nodeWeight n = m.weight := by
  rw [(queueOf_perm i ns).mem_iff, List.mem_map]
  constructor
  · rintro ⟨⟨n, k⟩, hmem, rfl⟩
    obtain ⟨hle, hn⟩ := List.mem_zipIdx_iff_le_and_getElem?_sub.mp hmem
    exact ⟨n, hle, hn, rfl⟩
  · rintro ⟨n, hle, hn, hw⟩
    exact ⟨(n, m.index), List.mem_zipIdx_iff_le_and_getElem?_sub.mpr ⟨hle, hn⟩, by rw [hw]⟩

theorem inOrder_queueOf (i : Nat) (ns : List Node) : InOrder (queueOf i ns) := by
  induction ns generalizing i with
  | nil => exact List.Pairwise.nil
  | cons n ns ih =>
    rw [queueOf_cons]
    exact (ih (i + 1)).enqueue fun x hx => by
      obtain ⟨_, hle, -⟩ := mem_queueOf.mp hx
      exact (Nat.lt_of_succ_le hle).ne

/-- With leaves only (R208), every node is a member and none a child. -/
theorem merging_queueOf (h : ∀ n ∈ ns, ∃ w v, n = .leaf w v) :
    Merging ns (queueOf 0 ns) (ns.map fun n => (nodeWeight n).toNat).sum := by
  have hleaf {k : Nat} {w : Word} {l r : BitVec 16} : ns[k]? ≠ some (.internal w l r) := fun hk => by
    obtain ⟨w', v, heq⟩ := h _ (List.mem_of_getElem? hk)
    cases heq
  have hfree (i j : Nat) : ¬ ChildOf ns i j := fun ⟨_, _, _, hj, _⟩ => hleaf hj
  have hperm := queueOf_perm 0 ns
  constructor
  case order => exact fun k w l r hk => absurd hk hleaf
  case sorted => exact inOrder_queueOf 0 ns
  case weight =>
    intro m hm
    obtain ⟨n, -, hn, hw⟩ := mem_queueOf.mp hm
    rw [weightAt_eq (Nat.sub_zero m.index ▸ hn), hw]
  case members =>
    intro i
    have hindex : (ns.zipIdx.map fun p => (⟨nodeWeight p.1, p.2⟩ : Member)).map Member.index =
        List.range' 0 ns.length := by
      rw [List.map_map, ← List.zipIdx_map_snd]
      rfl
    rw [(hperm.map Member.index).mem_iff, hindex]
    simp [hfree]
  case sum =>
    have hweight : (ns.zipIdx.map fun p => (⟨nodeWeight p.1, p.2⟩ : Member)).map (fun m => m.weight.toNat) =
        ns.map fun n => (nodeWeight n).toNat := by
      conv_rhs => rw [← List.zipIdx_map_fst 0 ns]
      rw [List.map_map, List.map_map]
      rfl
    rw [(hperm.map fun m => m.weight.toNat).sum_eq, hweight]

end Sys2Proof.Safety
end

section
/-! PROOFS. HBUILD (44_prefix_tree.md R206 to R212): the counts, the leaves, and the tree that the merge loop makes. -/

namespace Sys2Proof.Safety

open Machine

variable {s : State} {y : List Byte} {v : Byte}

/-! ## Counts and leaves -/

theorem tableAt_freqOf (y : List Byte) (v : Byte) : tableAt (freqOf y) v = BitVec.ofNat 32 (y.count v) := by
  rw [freqOf, tableAt_tableOf, BitVec.ofNat_toNat, BitVec.setWidth_eq]

/-- The counts of a buffer of fewer than 2^32 bytes fit a word. -/
theorem toNat_tableAt_freqOf (h : y.length < 2 ^ 32) (v : Byte) : (tableAt (freqOf y) v).toNat = y.count v := by
  rw [tableAt_freqOf, BitVec.toNat_ofNat, Nat.mod_eq_of_lt (List.count_le_length.trans_lt h)]

theorem tableAt_freqOf_ne_zero (h : y.length < 2 ^ 32) : tableAt (freqOf y) v ≠ 0 ↔ v ∈ y := by
  rw [Ne, ← BitVec.toNat_inj, toNat_tableAt_freqOf h, ← List.count_pos_iff, Nat.pos_iff_ne_zero]
  rfl

theorem mem_valuesOf : v ∈ valuesOf y ↔ v ∈ y := by
  rw [valuesOf, List.mem_filter, decide_eq_true_iff, and_iff_right (mem_allBytes v)]

theorem nodup_valuesOf (y : List Byte) : (valuesOf y).Nodup := nodup_allBytes.filter _

/-- Every byte is counted once. -/
theorem sum_count_valuesOf (y : List Byte) : ((valuesOf y).map fun v => y.count v).sum = y.length := by
  have hperm : (valuesOf y).Perm y.dedup :=
    (List.perm_ext_iff_of_nodup (nodup_valuesOf y) y.nodup_dedup).mpr fun v => by
      rw [mem_valuesOf, List.mem_dedup]
  rw [(hperm.map _).sum_eq, List.sum_map_count_dedup_eq_length]

theorem leavesOf_freqOf (h : y.length < 2 ^ 32) :
    leavesOf (freqOf y) = (valuesOf y).map fun v => .leaf (BitVec.ofNat 32 (y.count v)) v := by
  simp only [leavesOf, usedValues_freqOf h, tableAt_freqOf]

/-! ## The arena -/

theorem buildArena_nil : buildArena (freqOf []) = ([], 0) := by
  simp [buildArena, leavesOf_freqOf, valuesOf, queueOf, mergeFrom]

/-- The loop over the leaves of a buffer ends with the root, whose weight is the number of bytes. -/
theorem buildArena_merging (hne : y ≠ []) (h : y.length < 2 ^ 32) :
    ∃ m, (buildArena (freqOf y)).2 = m.index ∧ Merging (buildArena (freqOf y)).1 [m] y.length := by
  have hle := length_valuesOf_le y
  have hleaves := leavesOf_freqOf h
  have hlen : (leavesOf (freqOf y)).length = (valuesOf y).length := by rw [hleaves, List.length_map]
  have hstart := merging_queueOf (ns := leavesOf (freqOf y)) fun n hn => by
    rw [hleaves] at hn
    obtain ⟨v, -, rfl⟩ := List.mem_map.mp hn
    exact ⟨_, _, rfl⟩
  have hsum : ((leavesOf (freqOf y)).map fun n => (nodeWeight n).toNat).sum = y.length := by
    rw [← sum_count_valuesOf, leavesOf, usedValues_freqOf h, List.map_map]
    exact congrArg List.sum (List.map_congr_left fun v _ => toNat_tableAt_freqOf h v)
  rw [hsum] at hstart
  refine mergeFrom_merging hstart h ?_ (by rw [length_queueOf]; omega) (by rw [length_queueOf]; omega)
  exact List.ne_nil_of_length_pos (by rw [length_queueOf, hlen]; exact List.length_pos_iff.mpr (valuesOf_ne_nil hne))

theorem length_buildArena (hne : y ≠ []) (h : y.length < 2 ^ 32) :
    (buildArena (freqOf y)).1.length + 1 = 2 * (valuesOf y).length := by
  obtain ⟨-, -, -, -, hlen⟩ := buildArena_tree (f := freqOf y) (usedValues_freqOf h ▸ valuesOf_ne_nil hne)
  rw [hlen, usedValues_freqOf h]

/-! ## The state that HBUILD leaves -/

/-- The state after HBUILD (R211). -/
def built (s : State) : State :=
  setArena (buildArena (freqOf s.pre.valid)).1 (buildArena (freqOf s.pre.valid)).2 (setFreq (freqOf s.pre.valid) s)

theorem completes_hbuild {P : State → Prop} (hs : s.cause = none) (hP : P (built s)) : Completes (exec .hbuild s) P :=
  completes_of_ok (ws := writesHbuild) (body := hbuild) hs rfl hs hP

theorem built_of_nil (h : s.pre.valid = []) : (built s).node = [] ∧ (built s).root = 0 := by
  rw [built, h, buildArena_nil]
  exact ⟨rfl, rfl⟩

/-- With bytes in PRE the merge loop's last member is the root. -/
theorem built_merging (hne : s.pre.valid ≠ []) (h : s.pre.valid.length < 2 ^ 32) :
    ∃ m, (built s).root.toNat = m.index ∧ Merging (built s).node [m] s.pre.valid.length := by
  obtain ⟨m, hroot, hm⟩ := buildArena_merging hne h
  have hlt := hm.index_lt List.mem_cons_self
  have hlen := length_buildArena hne h
  have hle := length_valuesOf_le s.pre.valid
  exact ⟨m, (Nat.mod_eq_of_lt (by omega)).trans hroot, hm⟩

/-- Settles O40: the loop starts from the leaves, adds merged nodes behind them, and ends with the last as the root. -/
theorem hbuildCountsAndMerges : Obligations.HbuildCountsAndMerges := by
  intro s hs hlen
  refine completes_hbuild hs ⟨toNat_tableAt_freqOf hlen, built_of_nil, fun hne => ?_⟩
  obtain ⟨m, hroot, hm⟩ := built_merging hne hlen
  obtain ⟨more, hmore, hinternal⟩ := mergeFrom_append (leavesOf (freqOf s.pre.valid)).length
    (leavesOf (freqOf s.pre.valid)) (queueOf 0 (leavesOf (freqOf s.pre.valid)))
  have hnode : (built s).node =
      (valuesOf s.pre.valid).map (fun v => .leaf (BitVec.ofNat 32 (s.pre.valid.count v)) v) ++ more :=
    hmore.trans (by rw [leavesOf_freqOf hlen])
  have hcount : (built s).node.length + 1 = 2 * (valuesOf s.pre.valid).length := length_buildArena hne hlen
  have hle := length_valuesOf_le s.pre.valid
  have hlast := hm.root_last
  refine ⟨by omega, by omega, by omega, hroot ▸ hm.root_weight, ?_, ?_⟩
  · rw [hnode, List.take_left' (List.length_map _)]
  · rwa [hnode, List.drop_left' (List.length_map _)]

/-- Settles O41: every round follows the merge rule, and only the member that is left is no child. -/
theorem hbuildMergesTheTwoLowest : Obligations.HbuildMergesTheTwoLowest := by
  intro s hs hlen
  refine completes_hbuild hs ?_
  by_cases hne : s.pre.valid = []
  · rw [(built_of_nil hne).1]
    exact ⟨fun _ _ _ _ hk => absurd hk (by simp), fun _ hi => absurd hi (Nat.not_lt_zero _)⟩
  · obtain ⟨m, hroot, hm⟩ := built_merging hne hlen
    exact ⟨hm.order, fun i hi => hroot ▸ hm.root_or_child hi⟩

end Sys2Proof.Safety
end

section
/-! PROOFS. CTAB (44_prefix_tree.md R213 to R217): each byte value in a leaf gets its path, and on a tree with a repeated
value the walk raises its one fault; after HBUILD the values with a code are those in PRE (R216). -/

namespace Sys2Proof.Safety

open Machine

variable {s : State} {T : Tree} {v : Byte}

/-! ## Paths -/

theorem mem_leafValues_of_follow {p : List Bit} (h : follow T p = some (.leaf v)) : v ∈ leafValues T := by
  induction p generalizing T with
  | nil => cases h; exact List.mem_singleton_self v
  | cons b p ih =>
    cases T with
    | leaf w => cases h
    | node l r =>
      cases b with
      | false => exact List.mem_append_left _ (ih h)
      | true => exact List.mem_append_right _ (ih h)

/-- Where leaf values differ, one path leads to each. -/
theorem follow_leaf_unique {p q : List Bit} (hT : (leafValues T).Nodup) (hp : follow T p = some (.leaf v))
    (hq : follow T q = some (.leaf v)) : p = q := by
  induction T generalizing p q with
  | leaf w =>
    cases p with
    | nil =>
      cases q with
      | nil => rfl
      | cons b q => cases hq
    | cons b p => cases hp
  | node l r ihl ihr =>
    obtain ⟨hl, hr, hlr⟩ := List.nodup_append.mp hT
    have hdisj {p' q' : List Bit} (hp' : follow l p' = some (.leaf v)) (hq' : follow r q' = some (.leaf v)) : False :=
      hlr v (mem_leafValues_of_follow hp') v (mem_leafValues_of_follow hq') rfl
    match p, q, hp, hq with
    | false :: p, false :: q, hp, hq => rw [ihl hl hp hq]
    | true :: p, true :: q, hp, hq => rw [ihr hr hp hq]
    | false :: p, true :: q, hp, hq => exact (hdisj hp hq).elim
    | true :: p, false :: q, hp, hq => exact (hdisj hq hp).elim

theorem IsCode.mem_leafValues {q : List Bit} (h : IsCode T v q) : v ∈ leafValues T := by
  cases T with
  | leaf w => exact List.mem_singleton.mpr h.1
  | node l r => exact mem_leafValues_of_follow h

theorem IsCode.unique {p q : List Bit} (hT : (leafValues T).Nodup) (hp : IsCode T v p) (hq : IsCode T v q) : p = q := by
  cases T with
  | leaf w => exact hp.2.trans hq.2.symm
  | node l r => exact follow_leaf_unique hT hp hq

/-! ## The code table of a tree -/

/-- The table of a tree whose leaf values differ holds its codes and nothing else. -/
theorem codesOf_iff_isCode (hT : (leafValues T).Nodup) :
    ∃ c, codesOf T = .ok c ∧ ∀ v q, tableAt c v = some q ↔ IsCode T v q := by
  obtain ⟨c, hc, hout, hin⟩ := codesOf_of_nodup hT
  refine ⟨c, hc, fun v q => ⟨fun hq => ?_, fun hq => ?_⟩⟩
  · by_cases hv : v ∈ leafValues T
    · obtain ⟨p, hp, hcode⟩ := hin v hv
      cases hq.symm.trans hp
      exact hcode
    · cases hq.symm.trans (hout v hv)
  · obtain ⟨p, hp, hcode⟩ := hin v hq.mem_leafValues
    rw [hp, hcode.unique hT hq]

theorem codeWalk_error {path : List Bit} {c : Vector Code 256} {e : Stop} (h : codeWalk T path c = .error e) :
    e = .raise .dupLeaf := by
  induction T generalizing path c with
  | leaf w =>
    unfold codeWalk at h
    split at h
    · cases h
    · cases h; rfl
  | node l r ihl ihr =>
    unfold codeWalk at h
    split at h
    · cases h; exact ihl ‹_›
    · exact ihr h

/-- A repeated leaf value is the walk's one fault (R217). -/
theorem codesOf_of_not_nodup (hT : ¬ (leafValues T).Nodup) : codesOf T = .error (.raise .dupLeaf) := by
  cases hc : codesOf T with
  | ok c => exact absurd (nodup_of_codesOf hc) hT
  | error e =>
    cases T with
    | leaf w => cases hc
    | node l r => rw [codeWalk_error hc]

/-! ## CTAB -/

theorem ctab_of_dup (hn : s.node ≠ []) (hT : rootTree s = .ok T) (hdup : ¬ (leafValues T).Nodup) :
    ctab s = .error (.raise .dupLeaf) := by
  simp only [ctab, if_neg hn, hT, codesOf_of_not_nodup hdup]

/-- Settles O42: no tree, a tree whose leaf values differ, a tree in which one repeats. -/
theorem ctabGivesThePaths : Obligations.CtabGivesThePaths := by
  refine ⟨fun s hs hnode => ?_, fun s T hs hT hnodup => ?_, fun s T hs hT hdup => ?_⟩
  · exact completes_of_ok hs (ctab_of_nil hnode) hs fun v => tableAt_tableOf _ v
  · obtain ⟨c, hc, hcodes⟩ := codesOf_iff_isCode hnodup
    exact completes_of_ok hs (ctab_of_tree (ne_nil_of_treeAt hT) (rootTree_of_treeAt hT) hc) hs hcodes
  · exact faulted_of_raise hs (ctab_of_dup (ne_nil_of_treeAt hT) (rootTree_of_treeAt hT) hdup)

/-! ## CTAB after HBUILD -/

/-- The codes of the tree that HBUILD leaves: one for each byte value in PRE, none the beginning of another. -/
theorem ctab_built (h : s.pre.valid.length < 2 ^ 32) :
    ∃ c, ctab (built s) = .ok (setCode c (built s)) ∧ (∀ v, (tableAt c v).isSome ↔ v ∈ s.pre.valid) ∧
      PrefixFree c := by
  by_cases hne : s.pre.valid = []
  · have hnone (v : Byte) : tableAt noCodes v = none := tableAt_tableOf _ v
    exact ⟨noCodes, ctab_of_nil (built_of_nil hne).1, fun v => by simp [hnone, hne], (goodCodes_of_none hnone).2⟩
  · obtain ⟨T, c, hn, hT, hperm, hc, -⟩ := rootTree_treeBuilt hne h
    obtain ⟨_, hc', hout, hin⟩ := codesOf_of_nodup (nodup_of_codesOf hc)
    cases hc.symm.trans hc'
    refine ⟨c, ctab_of_tree hn hT hc, fun v => ?_, (goodCodes_codesOf hc).2⟩
    rw [← mem_valuesOf, ← hperm.mem_iff]
    by_cases hv : v ∈ leafValues T
    · obtain ⟨q, hq, -⟩ := hin v hv
      simp [hq, hv]
    · simp [hout v hv, hv]

/-- Settles O43: the leaves of HBUILD's tree hold the byte values in PRE, each once, and CTAB gives each its path. -/
theorem builtCodeIsPrefixFree : Obligations.BuiltCodeIsPrefixFree := by
  intro s hs hlen
  obtain ⟨c, hctab, hsome, hprefix⟩ := ctab_built hlen
  have hused (v : Byte) : tableAt (freqOf s.pre.valid) v ≠ 0 ↔ v ∈ s.pre.valid := tableAt_freqOf_ne_zero hlen
  exact completes_hbuild hs (completes_of_ok hs hctab hs
    ⟨fun v => (hsome v).trans (hused v).symm, hused, hprefix⟩)

end Sys2Proof.Safety
end

section
/-! PROOFS. The frames of the tree and entropy commands (44_prefix_tree.md R211, R217; 45_tree_serializer.md R231, R237;
46_entropy.md R250, R256). -/

namespace Sys2Proof.Safety

open Machine

variable {s t t' : State} {ws : List Res}

/-! ## The bodies of the commands, each after a run of writes -/

theorem Unchanged.appendCon {y : List Byte} (h : Unchanged ws s t) (hcon : touched .con ⊆ ws)
    (ht : appendCon y t = .ok t') : Unchanged ws s t' := by
  obtain ⟨rfl, -⟩ := appendCon_ok ht
  exact h.write (.con _ _) hcon

theorem Unchanged.hbuild (h : Unchanged ws s t) (hfreq : .freq ∈ ws) (hnode : .node ∈ ws)
    (ht : hbuild t = .ok t') : Unchanged ws s t' := by
  cases hbuild_ok ht
  exact (h.write (.freq _) (by simpa [touched, whole])).write (.node _ _) (by simpa [touched, whole])

theorem Unchanged.ctab (h : Unchanged ws s t) (hcode : .code ∈ ws) (ht : ctab t = .ok t') : Unchanged ws s t' := by
  obtain ⟨c, rfl⟩ := ctab_ok ht
  exact h.write (.code c) (by simpa [touched, whole])

theorem Unchanged.tdes (h : Unchanged ws s t) (hnode : .node ∈ ws) (hconpos : .conpos ∈ ws)
    (ht : tdes t = .ok t') : Unchanged ws s t' := by
  obtain ⟨T, rest, -, rfl⟩ := tdes_ok ht
  exact (h.write (.node _ _) (by simpa [touched, whole])).write (.conpos _) (by simpa [touched, whole])

/-- TSER on its own appends to CON, so the bytes below the old length stay (R231). -/
theorem unchanged_tser (h : tser s = .ok t) : Unchanged (writes .tser) s t := by
  obtain rfl | ⟨T, -, hT⟩ := tser_ok h
  · exact .refl _ t
  · obtain ⟨rfl, -⟩ := appendCon_ok hT
    have hw : UnitWrite s (whole .conTail) (setCon (s.con.valid ++ serTree T) s) := .con _ _
    exact hw.unchanged_of_tail (by decide) (fun _ hi => elem_fill_append _ _ _ _ hi) (by decide)

theorem unchanged_epack (h : epack s = .ok t) : Unchanged (writes .epack) s t := by
  obtain ⟨b, c, hb, hc, hrest⟩ := epack_ok h
  have hcleared : Unchanged (writes .epack) s (setBitcnt 0 (setCon [] s)) :=
    ((Unchanged.refl _ s).write (.con _ _) (by decide)).write (.bitcnt _) (by decide)
  have hcodes : Unchanged (writes .epack) s c := (hcleared.hbuild (by decide) (by decide) hb).ctab (by decide) hc
  obtain rfl | ⟨d, hd, hp⟩ := hrest
  · exact hcodes
  · have htree : Unchanged (writes .epack) s d := by
      obtain rfl | ⟨T, -, hT⟩ := tser_ok hd
      · exact hcodes
      · exact hcodes.appendCon (by decide) hT
    obtain ⟨u, hu, rfl⟩ := appendPayload_ok hp
    exact (htree.appendCon (by decide) hu).write (.bitcnt _) (by decide)

theorem unchanged_eunpack (h : eunpack s = .ok t) : Unchanged (writes .eunpack) s t := by
  have hcleared : Unchanged (writes .eunpack) s (setConpos 0 (setBitcnt 0 (setPre [] s))) :=
    (((Unchanged.refl _ s).write (.pre _ _) (by decide)).write (.bitcnt _) (by decide)).write (.conpos _) (by decide)
  obtain ⟨-, rfl⟩ | ⟨u, hu, hr⟩ := eunpack_ok h
  · exact hcleared.write (.node _ _) (by decide)
  · obtain ⟨b, y, hp⟩ := readHeader_ok hr
    obtain ⟨T, out, -, -, rfl⟩ := readPayload_ok hp
    have hheader : Unchanged (writes .eunpack) s (setBitcnt b (setConpos (u.con.valid.length - y.length) u)) :=
      ((hcleared.tdes (by decide) (by decide) hu).write (.conpos _) (by decide)).write (.bitcnt _) (by decide)
    exact (hheader.write (.pre _ _) (by decide)).write (.conpos _) (by decide)

/-! ## The instructions -/

/-- Settles O59: each command is refused, runs its body, or takes a fault, and every write is of a unit it lists. -/
theorem entropyStageFrames : Obligations.EntropyStageFrames := by
  intro i hi s t h
  simp only [List.mem_cons, List.not_mem_nil, or_false] at hi
  obtain rfl | rfl | rfl | rfl | rfl | rfl := hi
  · exact unchanged_runCommand (r := .freq) (rs := [.node]) ((Unchanged.refl _ s).hbuild (by decide) (by decide))
      (by decide) (by decide) h
  · exact unchanged_runCommand ((Unchanged.refl _ s).ctab (by decide)) (by decide) (by decide) h
  · exact unchanged_runCommand unchanged_tser (by decide) (by decide) h
  · exact unchanged_runCommand ((Unchanged.refl _ s).tdes (by decide) (by decide)) (by decide) (by decide) h
  · exact unchanged_runCommand unchanged_epack (by decide) (by decide) h
  · exact unchanged_runCommand unchanged_eunpack (by decide) (by decide) h

end Sys2Proof.Safety
end

section
/-! PROOFS. The tree serializer and deserializer (45_tree_serializer.md R230 to R240): TDES reads the serialized tree at the
cursor, it faults where no tree stands, and it reads back what TSER wrote. -/

namespace Sys2Proof.Safety

open Machine

variable {s t : State} {T : Tree}

/-! ## TDES on a serialized tree -/

/-- A tree of `k` leaves has `k - 1` internal nodes (R233). -/
theorem treeSize_add_one (T : Tree) : treeSize T + 1 = 2 * (leafValues T).length := by
  induction T with
  | leaf v => rfl
  | node l r ihl ihr =>
    simp only [treeSize, leafValues, List.length_append]
    omega

/-- TDES takes the tree at the cursor into the arena and moves behind it (R234, R235). -/
theorem tdes_of_tree {rest : List Byte} (h : s.con.valid.drop s.conpos.toNat = serTree T ++ rest)
    (hT : treeSize T ≤ nodeCap) :
    tdes s = .ok (setConpos (s.conpos.toNat + (serTree T).length) (setArena (arenaFrom 0 T) 0 s)) := by
  have hlen := congrArg List.length h
  have hser := length_serTree T
  have hsize := treeSize_add_one T
  have hpos := one_le_treeSize T
  rw [List.length_drop, List.length_append] at hlen
  have hcursor : s.con.valid.length - rest.length = s.conpos.toNat + (serTree T).length := by omega
  simp only [tdes, h, parseTree_serTree T rest hT, hcursor]

/-- Settles O45: the tree is parsed back from its serialized form, and its arena reads back as the tree. -/
theorem tdesReadsTheTree : Obligations.TdesReadsTheTree := by
  intro s T rest hs hcon hT
  have hlen : (arenaFrom 0 T).length = 2 * (leafValues T).length - 1 :=
    (length_arenaFrom 0 T).trans (Nat.eq_sub_of_add_eq (treeSize_add_one T))
  exact completes_of_ok hs (tdes_of_tree hcon hT) hs ⟨treeAt_arenaFrom_zero T hT, rfl, rfl, hlen, rfl⟩

/-! ## Bytes that are no tree -/

/-- A descent into the bytes `y` fails with `e` when `used` nodes are taken already. At most `used` nodes are above it,
so in a run of `parseTree` it has the fuel asked for here. -/
def Malformed (used : Nat) (y : List Byte) (e : TreeError) : Prop :=
  ∀ fuel, nodeCap < fuel + used → parseTreeFrom fuel used y = .error e

/-- A descent that is due has fuel for its own node. -/
theorem malformed_of_succ {used : Nat} {y : List Byte} {e : TreeError} (hu : used ≤ nodeCap)
    (h : ∀ fuel, nodeCap < fuel + (used + 1) → parseTreeFrom (fuel + 1) used y = .error e) : Malformed used y e := by
  intro fuel hf
  obtain ⟨fuel, rfl⟩ : ∃ k, fuel = k + 1 := ⟨fuel - 1, by omega⟩
  exact h fuel (by omega)

section

variable {used : Nat} {m : Byte} {y rest : List Byte} {e : TreeError} {l : Tree}

theorem malformed_nil (hu : used ≤ nodeCap) : Malformed used [] .truncated :=
  malformed_of_succ hu fun _ _ => rfl

theorem malformed_badMarker (hu : used ≤ nodeCap) (h0 : m ≠ 0x00) (h1 : m ≠ 0x01) :
    Malformed used (m :: rest) .badMarker :=
  malformed_of_succ hu fun _ _ => if_pos ⟨h0, h1⟩

/-- A marker after `NODE_CAP` nodes. -/
theorem malformed_noRoom (hm : m = 0x00 ∨ m = 0x01) : Malformed nodeCap (m :: rest) .noRoom :=
  malformed_of_succ le_rfl fun _ _ =>
    (if_neg fun h => hm.elim h.1 h.2).trans (if_pos le_rfl)

theorem malformed_leaf (hu : used < nodeCap) : Malformed used [0x01] .truncated :=
  malformed_of_succ hu.le fun _ _ => by simp [parseTreeFrom, Nat.not_le.mpr hu]

/-- The left subtree fails, so the node does. -/
theorem Malformed.left (hu : used < nodeCap) (h : Malformed (used + 1) y e) : Malformed used (0x00 :: y) e :=
  malformed_of_succ hu.le fun fuel hf => by simp [parseTreeFrom, Nat.not_le.mpr hu, h fuel hf]

/-- The left subtree is read, and the right one fails. -/
theorem Malformed.right (hu : used + 1 + treeSize l ≤ nodeCap) (h : Malformed (used + 1 + treeSize l) y e) :
    Malformed used (0x00 :: (serTree l ++ y)) e :=
  malformed_of_succ (by omega) fun fuel hf => by
    have hl := parseTreeFrom_serTree l y fuel (used + 1) (by omega) hu
    have hroom : ¬ nodeCap ≤ used := by omega
    simp [parseTreeFrom, hroom, hl, h fuel (by omega)]

/-- A tree with more nodes than the arena has left. -/
theorem malformed_of_tooLarge (hu : used ≤ nodeCap) (hT : nodeCap < used + treeSize T) :
    Malformed used (serTree T ++ rest) .noRoom := by
  induction T generalizing used rest with
  | leaf v =>
    simp only [treeSize] at hT
    obtain rfl : used = nodeCap := by omega
    exact malformed_noRoom (.inr rfl)
  | node l r ihl ihr =>
    simp only [treeSize] at hT
    rw [serTree, List.cons_append, List.append_assoc]
    obtain rfl | hlt := hu.eq_or_lt
    · exact malformed_noRoom (.inl rfl)
    · by_cases hl : used + 1 + treeSize l ≤ nodeCap
      · exact .right hl (ihr hl (by omega))
      · exact .left hlt (ihl hlt (by omega))

/-- A proper beginning of a tree for which the arena has room. -/
theorem malformed_of_beginning {z : List Byte} (h : serTree T = y ++ z) (hz : z ≠ [])
    (hT : used + treeSize T ≤ nodeCap) : Malformed used y .truncated := by
  induction T generalizing used y z with
  | leaf v =>
    simp only [treeSize] at hT
    match y, h with
    | [], _ => exact malformed_nil (by omega)
    | [m], h =>
      cases h
      exact malformed_leaf (by omega)
    | _ :: _ :: y, h => exact absurd (List.append_eq_nil_iff.mp (List.cons.inj (List.cons.inj h).2).2.symm).2 hz
  | node l r ihl ihr =>
    simp only [treeSize] at hT
    match y, h with
    | [], _ => exact malformed_nil (by omega)
    | m :: y, h =>
      obtain ⟨rfl, hlr⟩ := List.cons.inj h
      obtain ⟨y', rfl, hr⟩ | ⟨z', hl, rfl⟩ := List.append_eq_append_iff.mp hlr
      · exact .right (by omega) (ihr hr hz (by omega))
      · obtain rfl | hz' := eq_or_ne z' []
        · rw [List.append_nil] at hl
          exact hl ▸ List.append_nil (serTree l) ▸ .right (by omega) (malformed_nil (by omega))
        · exact .left (by omega) (ihl hl hz' (by omega))

/-- Bytes that are malformed behind the beginning of a tree, or behind some of the subtrees then due but not all, make the
whole malformed. The subtrees are what carries the induction: a node's marker is put in front of one or two of them. -/
theorem malformed_behind_subtrees {n k : Nat} {w : List Byte} (h : InTree y n k) (ts : List Tree) (hts : ts.length < n)
    (hroom : k + (ts.map treeSize).sum ≤ nodeCap) (hw : Malformed (k + (ts.map treeSize).sum) w e) :
    Malformed 0 (y ++ (ts.flatMap serTree ++ w)) e := by
  induction h generalizing ts w with
  | start =>
    obtain rfl : ts = [] := List.eq_nil_of_length_eq_zero (by omega)
    simpa using hw
  | @internal y n k _ ih =>
    match ts, hts with
    | [], _ =>
      have hleft : Malformed (k + ([].map treeSize).sum) (0x00 :: w) e := Malformed.left (Nat.lt_of_succ_le hroom) hw
      simpa using ih [] (by simp) (Nat.le_of_succ_le hroom) hleft
    | [l], _ =>
      simp only [List.map_cons, List.map_nil, List.sum_cons, List.sum_nil, Nat.add_zero] at hroom hw
      have hright : Malformed (k + ([].map treeSize).sum) (0x00 :: (serTree l ++ w)) e := Malformed.right hroom hw
      simpa using ih [] (by simp) (by simp; omega) hright
    | l :: r :: ts, hts =>
      have hsum : k + ((Tree.node l r :: ts).map treeSize).sum = k + 1 + ((l :: r :: ts).map treeSize).sum := by
        simp only [List.map_cons, List.sum_cons, treeSize]; omega
      simpa [serTree] using ih (.node l r :: ts) (Nat.lt_of_succ_lt_succ hts) (hsum ▸ hroom) (hsum ▸ hw)
  | @leaf y n k v _ ih =>
    have hsum : k + ((Tree.leaf v :: ts).map treeSize).sum = k + 1 + (ts.map treeSize).sum := by
      simp only [List.map_cons, List.sum_cons, treeSize]; omega
    simpa [serTree] using ih (.leaf v :: ts) (Nat.succ_lt_succ hts) (hsum ▸ hroom) (hsum ▸ hw)

end

/-- Where a marker is due and what stands there is malformed, the whole is (R236). -/
theorem malformed_at_marker {y w : List Byte} {n k : Nat} {e : TreeError} (h : InTree y (n + 1) k) (hk : k ≤ nodeCap)
    (hw : Malformed k w e) : Malformed 0 (y ++ w) e :=
  malformed_behind_subtrees h [] n.succ_pos hk hw

/-! ## Faults of TDES -/

/-- The fault of malformed bytes at the cursor. -/
theorem faulted_tdes {y : List Byte} {e : TreeError} (hs : s.cause = none)
    (hy : s.con.valid.drop s.conpos.toNat = y) (h : Malformed 0 y e) :
    Faulted (causeCode (treeCause e)) (causeInfo (treeCause e)) (exec .tdes s) := by
  have hparse : parseTree y = .error e := h _ (Nat.lt_succ_self nodeCap)
  have htdes : tdes s = .error (.raise (treeCause e)) := by simp only [tdes, hy, hparse, raise]
  exact faulted_of_raise (ws := writesTdes) hs htdes

/-- Settles O46: what is malformed where a marker is due, or from the start, faults with its cause. -/
theorem tdesFaults : Obligations.TdesFaults := by
  refine ⟨fun s T y z hs hy hser hz hT => faulted_tdes hs hy (malformed_of_beginning hser hz ?_),
    fun s y n k hs hy hin hk => ?_, fun s y n k m rest hs hy hin hk h0 h1 => ?_,
    fun s y n m rest hs hy hin hm => ?_, fun s y n k hs hy hin hk => ?_,
    fun s T rest hs hy hT => faulted_tdes hs hy (malformed_of_tooLarge (Nat.zero_le _) ?_)⟩
  · rwa [Nat.zero_add]
  · exact faulted_tdes hs (hy.trans (List.append_nil y).symm) (malformed_at_marker hin hk (malformed_nil hk))
  · exact faulted_tdes hs hy (malformed_at_marker hin hk (malformed_badMarker hk h0 h1))
  · exact faulted_tdes hs hy (malformed_at_marker hin le_rfl (malformed_noRoom hm))
  · exact faulted_tdes hs hy (malformed_at_marker hin hk.le (malformed_leaf hk))
  · rwa [Nat.zero_add]

/-! ## TDES after TSER -/

theorem treeAt_of_rootTree (h : rootTree s = .ok T) : treeAt s.node s.node.length s.root.toNat = some T := by
  unfold rootTree at h
  split at h <;> cases h
  assumption

/-- A TSER that does not fault appends the arena's tree. -/
theorem con_of_tser (hs : s.cause = none) (hn : s.node ≠ []) (hT : rootTree s = .ok T) (h : exec .tser s = .next t)
    (ht : t.cause = none) : t.con.valid = s.con.valid ++ serTree T := by
  obtain ⟨hc, -⟩ | ⟨-, hok⟩ | ⟨-, c, -, rfl⟩ := runCommand_next (ws := writesTser) (body := tser) h
  · rw [hs] at hc; cases hc
  · simp only [tser, if_neg hn, hT] at hok
    obtain ⟨rfl, -⟩ := appendCon_ok hok
    rfl
  · cases ht

/-- The state after the host has emptied CON and TSER has written the tree there (R231). -/
def serialized (T : Tree) (s : State) : State := setCon (serTree T) (regWrite 9 0 s)

theorem tser_emptied (hn : s.node ≠ []) (hT : rootTree s = .ok T) (hl : (serTree T).length ≤ s.cfg.conCap) :
    tser (regWrite 9 0 s) = .ok (serialized T s) := by
  have hempty : (regWrite 9 0 s).con.valid = [] :=
    List.eq_nil_of_length_eq_zero (length_lengthWrite Config.freeCon s.con (Nat.zero_le s.cfg.conCap))
  have htser := tser_of_tree (s := regWrite 9 0 s) hn hT (by rw [hempty]; simpa using hl)
  rwa [hempty, List.nil_append] at htser

/-- The state after the host has set CONPOS to 0 and TDES has read the tree that CON holds (R237). -/
def reread (T : Tree) (s : State) : State := setConpos (serTree T).length (setArena (arenaFrom 0 T) 0 s)

theorem tdes_rewound (hcon : s.con.valid = serTree T) (hT : treeSize T ≤ nodeCap) :
    tdes (regWrite 12 0 s) = .ok (reread T s) := by
  have hcursor : (regWrite 12 0 s).conpos.toNat + (serTree T).length = (serTree T).length := Nat.zero_add _
  have htdes := tdes_of_tree (s := regWrite 12 0 s) (hcon.trans (List.append_nil _).symm) hT
  rwa [hcursor] at htdes

theorem rootTree_reread (s : State) (hT : treeSize T ≤ nodeCap) :
    (reread T s).node ≠ [] ∧ rootTree (reread T s) = .ok T := by
  have hread : treeAt (reread T s).node (reread T s).node.length (reread T s).root.toNat = some T :=
    treeAt_arenaFrom_zero T hT
  exact ⟨ne_nil_of_treeAt hread, rootTree_of_treeAt hread⟩

theorem conpos_reread (hcon : s.con.valid = serTree T) (hT : treeSize T ≤ nodeCap) :
    (reread T s).conpos.toNat = (reread T s).con.valid.length := by
  have hser := length_serTree T
  have hsize := treeSize_add_one T
  have hcap : nodeCap = 511 := rfl
  have hcursor : (reread T s).conpos.toNat = (serTree T).length := Nat.mod_eq_of_lt (by omega)
  exact hcursor.trans (congrArg List.length hcon).symm

/-- R240 for every arena with a code table whose tree fits the arena when read back. -/
theorem tree_reread {c : Vector Code 256} (hs : s.cause = none) (hn : s.node ≠ []) (hT : rootTree s = .ok T)
    (hc : codesOf T = .ok c) (hfits : treeSize T ≤ nodeCap) (hl : (serTree T).length ≤ s.cfg.conCap) :
    Completes (exec .tser (regWrite 9 0 s)) fun t => Completes (exec .tdes (regWrite 12 0 t)) fun u =>
      (∃ T, treeAt s.node s.node.length s.root.toNat = some T ∧
        treeAt u.node u.node.length u.root.toNat = some T) ∧
      u.conpos.toNat = u.con.valid.length ∧
      (Completes (exec .ctab s) fun c => Completes (exec .ctab u) fun d => d.code = c.code) ∧
      ∀ w, exec .tser u = .next w → w.cause = none → w.con.valid = t.con.valid ++ t.con.valid := by
  have hcon : (serialized T s).con.valid = serTree T := rfl
  obtain ⟨hn', hT'⟩ := rootTree_reread (serialized T s) hfits
  refine completes_of_ok hs (tser_emptied hn hT hl) hs (completes_of_ok hs (tdes_rewound hcon hfits) hs
    ⟨⟨T, treeAt_of_rootTree hT, treeAt_of_rootTree hT'⟩, conpos_reread hcon hfits, ?_, ?_⟩)
  · exact completes_of_ok hs (ctab_of_tree hn hT hc) hs (completes_of_ok hs (ctab_of_tree hn' hT' hc) hs rfl)
  · exact fun w hw hwc => con_of_tser (s := reread T (serialized T s)) hs hn' hT' hw hwc

/-- Settles O47: HBUILD's tree has distinct leaf values, so a code table, and at most 256 leaves, so it fits the arena. -/
theorem tdesInvertsTser : Obligations.TdesInvertsTser := by
  intro s hs hpre hlen hcap
  obtain ⟨T, c, hn, hT, hperm, hc, -⟩ := rootTree_treeBuilt hpre hlen
  have hleaves := hperm.length_eq
  have hle := length_valuesOf_le s.pre.valid
  have hser := length_serTree T
  have hsize := treeSize_add_one T
  have hfits : treeSize T ≤ nodeCap := by unfold nodeCap; omega
  have hroom : (serTree T).length ≤ s.cfg.conCap := by omega
  exact completes_hbuild hs (tree_reread hs hn hT hc hfits hroom)

end Sys2Proof.Safety
end

section
/-! PROOFS. The payload (20_memory.md R64, 46_entropy.md R259 to R261): where each coded bit stands in it, and what the walk
does on the bits that spell some bytes, whatever follows them. -/

namespace Sys2Proof.Safety

open Machine

variable {T : Tree} {v : Byte} {y out : List Byte} {c p q rest : List Bit} {b room : Nat}

/-! ## The bits of the payload -/

/-- Bit `k` of the payload is bit `7 - k % 8` of its byte `k / 8` (20_memory.md R64). -/
theorem getElem?_bitsMsb (y : List Byte) (k : Nat) :
    (bitsMsb y)[k]? = y[k / 8]?.map fun x => x.getLsbD (7 - k % 8) := by
  induction y generalizing k with
  | nil => rfl
  | cons x y ih =>
    have hcons : bitsMsb (x :: y) = (lsbBits x.toNat 8).reverse ++ bitsMsb y := List.flatMap_cons
    have hlen : (lsbBits x.toNat 8).reverse.length = 8 := by simp
    by_cases hk : k < 8
    · rw [hcons, List.getElem?_append_left (by omega), List.getElem?_reverse (by simpa using hk), length_lsbBits,
        Nat.div_eq_of_lt hk, Nat.mod_eq_of_lt hk, getElem?_lsbBits_toNat x (by omega)]
      rfl
    · rw [hcons, List.getElem?_append_right (by omega), hlen, ih, ← Nat.sub_add_cancel (Nat.not_lt.mp hk),
        Nat.add_sub_cancel, Nat.add_div_right _ (by decide), Nat.add_mod_right, List.getElem?_cons_succ]

/-- The first `b` bits of the payload are the list that EUNPACK walks. -/
theorem PayloadBits.take_eq (h : PayloadBits y b q) : (bitsMsb y).take b = q := by
  obtain ⟨hlen, hbits⟩ := h
  refine List.ext_getElem? fun k => ?_
  rw [List.getElem?_take]
  split
  · rename_i hk
    rw [getElem?_bitsMsb, hbits k hk]
  · rename_i hk
    exact (List.getElem?_eq_none (hlen ▸ Nat.not_lt.mp hk)).symm

/-- The payload bytes that EPACK writes begin with the coded bits (R253). -/
theorem payloadBits_bytesMsb (q : List Bit) : PayloadBits (bytesMsb q) q.length q :=
  ⟨rfl, fun k hk => by rw [← getElem?_bitsMsb, bitsMsb_bytesMsb, List.getElem?_append_left hk]⟩

/-! ## One bit -/

section

variable {l0 r0 l r l' r' : Tree} {x : Bit} {atRoot : Bool}

theorem walkNode_to_node (h : (if x then r else l) = .node l' r') :
    walkNode l0 r0 (x :: q) l r atRoot room = walkNode l0 r0 q l' r' false room := by
  simp only [walkNode, h]

theorem walkNode_to_leaf (h : (if x then r else l) = .leaf v) :
    walkNode l0 r0 (x :: q) l r atRoot (room + 1) = (walkNode l0 r0 q l0 r0 true room).map (v :: ·) := by
  simp only [walkNode, h]
  cases walkNode l0 r0 q l0 r0 true room <;> rfl

/-- A byte for which PRE has no room. -/
theorem walkNode_to_leaf_full (h : (if x then r else l) = .leaf v) :
    walkNode l0 r0 (x :: q) l r atRoot 0 = .error .noRoom := by
  simp only [walkNode, h]

/-! ## One code -/

/-- A path that leads somewhere leads along its first edge; behind a leaf there is no edge. -/
theorem follow_cons_eq_some {U : Tree} (h : follow (.node l r) (x :: p) = some U) :
    (∃ v, (if x then r else l) = .leaf v ∧ p = [] ∧ U = .leaf v) ∨
      ∃ l' r', (if x then r else l) = .node l' r' ∧ follow (.node l' r') p = some U := by
  rw [follow] at h
  cases hU : (if x then r else l) with
  | leaf v =>
    rw [hU] at h
    cases p with
    | nil => cases h; exact .inl ⟨v, rfl, rfl, rfl⟩
    | cons x p => cases h
  | node l' r' => exact .inr ⟨l', r', rfl, hU ▸ h⟩

/-- On the path to a leaf the walk emits the leaf's value and goes back to the root. -/
theorem walkNode_leaf_append (h : follow (.node l r) p = some (.leaf v)) :
    walkNode l0 r0 (p ++ q) l r atRoot (room + 1) = (walkNode l0 r0 q l0 r0 true room).map (v :: ·) := by
  induction p generalizing l r atRoot with
  | nil => cases h
  | cons x p ih =>
    obtain ⟨w, hw, rfl, hv⟩ | ⟨l', r', hnode, hrest⟩ := follow_cons_eq_some h
    · cases hv
      exact walkNode_to_leaf hw
    · exact (walkNode_to_node hnode).trans (ih hrest)

theorem walkNode_leaf_full (h : follow (.node l r) p = some (.leaf v)) :
    walkNode l0 r0 (p ++ q) l r atRoot 0 = .error .noRoom := by
  induction p generalizing l r atRoot with
  | nil => cases h
  | cons x p ih =>
    obtain ⟨w, hw, rfl, -⟩ | ⟨l', r', hnode, hrest⟩ := follow_cons_eq_some h
    · exact walkNode_to_leaf_full hw
    · exact (walkNode_to_node hnode).trans (ih hrest)

/-- The bits end below the node where they began, at an internal node (R261). -/
theorem walkNode_partial (hp : p ≠ []) (h : follow (.node l r) p = some (.node l' r')) :
    walkNode l0 r0 p l r atRoot room = .error .partialCode := by
  induction p generalizing l r atRoot with
  | nil => exact absurd rfl hp
  | cons x p ih =>
    obtain ⟨w, -, -, hw⟩ | ⟨l₁, r₁, hnode, hrest⟩ := follow_cons_eq_some h
    · cases hw
    · rw [walkNode_to_node hnode]
      cases p with
      | nil => rfl
      | cons x p => exact ih (List.cons_ne_nil x p) hrest

end

theorem walkPayload_code_append (h : IsCode T v c) :
    walkPayload T (c ++ q) (room + 1) = (walkPayload T q room).map (v :: ·) := by
  cases T with
  | leaf w =>
    obtain ⟨rfl, rfl⟩ := h
    simp only [walkPayload, List.singleton_append, walkLeaf]
    cases walkLeaf v q room <;> rfl
  | node l r => exact walkNode_leaf_append h

theorem walkPayload_code_full (h : IsCode T v c) : walkPayload T (c ++ q) 0 = .error .noRoom := by
  cases T with
  | leaf w => obtain ⟨rfl, rfl⟩ := h; rfl
  | node l r => exact walkNode_leaf_full h

/-! ## Bits that spell bytes -/

/-- The walk gives the bytes that the bits spell; then it does what it does on the bits behind them. -/
theorem walkPayload_spells_append (h : Spells T out c) (rest : List Bit) :
    walkPayload T (c ++ rest) (room + out.length) = (walkPayload T rest room).map (out ++ ·) := by
  induction out generalizing c with
  | nil =>
    obtain rfl : c = [] := h
    cases hwalk : walkPayload T rest room <;> simp [hwalk, Except.map]
  | cons v out ih =>
    obtain ⟨code, tail, rfl, hcode, htail⟩ := h
    rw [List.append_assoc, List.length_cons, ← Nat.add_assoc, walkPayload_code_append hcode, ih htail]
    cases walkPayload T rest room <;> rfl

theorem walkPayload_nil (T : Tree) (room : Nat) : walkPayload T [] room = .ok [] := by
  cases T <;> rfl

theorem walkPayload_of_spells (h : Spells T out q) (hroom : out.length ≤ room) : walkPayload T q room = .ok out := by
  obtain ⟨room, rfl⟩ := Nat.exists_eq_add_of_le' hroom
  have hwalk := walkPayload_spells_append (room := room) h []
  rw [List.append_nil, walkPayload_nil] at hwalk
  rw [hwalk, Except.map, List.append_nil]

/-- Bits that spell more bytes than PRE holds, whatever follows them. -/
theorem walkPayload_of_full (h : Spells T out c) (hroom : room < out.length) :
    walkPayload T (c ++ rest) room = .error .noRoom := by
  induction out generalizing c room with
  | nil => exact absurd hroom (Nat.not_lt_zero room)
  | cons v out ih =>
    obtain ⟨code, tail, rfl, hcode, htail⟩ := h
    rw [List.append_assoc]
    cases room with
    | zero => exact walkPayload_code_full hcode
    | succ room =>
      rw [walkPayload_code_append hcode, ih htail (Nat.lt_of_succ_lt_succ hroom)]
      rfl

/-- An end inside a code (R261). -/
theorem walkPayload_of_partial {l r : Tree} (h : Spells T out c) (hroom : out.length ≤ room) (hrest : rest ≠ [])
    (hfollow : follow T rest = some (.node l r)) : walkPayload T (c ++ rest) room = .error .partialCode := by
  obtain ⟨room, rfl⟩ := Nat.exists_eq_add_of_le' hroom
  have hend : walkPayload T rest room = .error .partialCode := by
    cases T with
    | leaf v => cases rest <;> cases hfollow
    | node l₀ r₀ => exact walkNode_partial hrest hfollow
  rw [walkPayload_spells_append h, hend]
  rfl

/-- Under a root that is a leaf each 0 spells its value (R260). -/
theorem spells_leaf (v : Byte) (n : Nat) : Spells (.leaf v) (List.replicate n v) (List.replicate n false) := by
  induction n with
  | zero => rfl
  | succ n ih => exact ⟨[false], List.replicate n false, rfl, ⟨rfl, rfl⟩, ih⟩

/-- A 1 behind as many 0s as PRE has room for (R260). -/
theorem walkPayload_of_oneBit {k : Nat} (hk : q[k]? = some true) (hzero : ∀ i < k, q[i]? = some false)
    (hroom : k ≤ room) : walkPayload (.leaf v) q room = .error .oneBit := by
  obtain ⟨room, rfl⟩ := Nat.exists_eq_add_of_le' hroom
  have hzeros : q.take k = List.replicate k false := by
    refine List.ext_getElem? fun i => ?_
    rw [List.getElem?_take, List.getElem?_replicate]
    split
    · exact hzero i ‹_›
    · rfl
  have hq : q = List.replicate k false ++ true :: q.drop (k + 1) := by
    conv_lhs => rw [← List.take_append_drop k q, hzeros, List.drop_eq_getElem?_toList_append, hk]
    rfl
  have hwalk := walkPayload_spells_append (room := room) (spells_leaf v k) (true :: q.drop (k + 1))
  rw [List.length_replicate] at hwalk
  rw [hq, hwalk]
  rfl

end Sys2Proof.Safety
end

section
/-! PROOFS. EUNPACK (46_entropy.md R256 to R264): it reads the tree, the bit count and the payload of a container one after
the other, and each of its checks has its fault. -/

namespace Sys2Proof.Safety

open Machine

variable {s t : State} {T : Tree} {b : Word} {y z out : List Byte} {q : List Bit} {code info : Nat}

/-! ## The tree -/

/-- The state in which EUNPACK begins to parse (R256). -/
def rewound (s : State) : State := setConpos 0 (setBitcnt 0 (setPre [] s))

@[simp] theorem rewound_cause (s : State) : (rewound s).cause = s.cause := rfl
@[simp] theorem rewound_cfg (s : State) : (rewound s).cfg = s.cfg := rfl

/-- The empty container (R257). -/
theorem eunpack_of_nil (h : s.con.valid = []) : eunpack s = .ok (setArena [] 0 (rewound s)) := if_pos h

theorem eunpack_eq_bind (hne : s.con.valid ≠ []) : eunpack s = (tdes (rewound s)).bind readHeader := by
  refine (if_neg hne).trans ?_
  rw [← rewound]
  cases tdes (rewound s) <;> rfl

theorem eunpack_of_tree (h : s.con.valid = serTree T ++ z) (hT : treeSize T ≤ nodeCap) :
    eunpack s = readHeader (reread T (rewound s)) := by
  have hne : s.con.valid ≠ [] := by
    have := length_serTree T
    have := List.length_pos_iff.mpr (leafValues_ne_nil T)
    exact List.ne_nil_of_length_pos (by rw [h, List.length_append]; omega)
  have htdes := tdes_of_tree (s := rewound s) h hT
  rw [show (rewound s).conpos.toNat = 0 from rfl, Nat.zero_add] at htdes
  rw [eunpack_eq_bind hne, htdes]
  rfl

/-! ## The header -/

theorem readHeader_of_be32 (h : s.con.valid.drop s.conpos.toNat = be32 b ++ y) :
    readHeader s = readPayload b.toNat y (setBitcnt b.toNat (setConpos (s.con.valid.length - y.length) s)) := by
  have hb : ofBe32 _ _ _ _ = b := ofBe32_be32 b _ _ _ _ rfl
  simp only [readHeader, h, be32, List.cons_append, List.nil_append, hb]

theorem readHeader_of_lt (h : (s.con.valid.drop s.conpos.toNat).length < 4) :
    readHeader s = .error (.raise .headerTruncated) := by
  unfold readHeader
  split
  · rename_i heq
    rw [heq] at h
    simp only [List.length_cons] at h
    omega
  · rfl

/-- The cursor of a tree that fits the arena fits its register. -/
theorem drop_conpos_reread (h : s.con.valid = serTree T ++ z) (hT : treeSize T ≤ nodeCap) :
    (reread T (rewound s)).con.valid.drop (reread T (rewound s)).conpos.toNat = z := by
  have hser := length_serTree T
  have hsize := treeSize_add_one T
  have hcap : nodeCap = 511 := rfl
  have hcursor : (reread T (rewound s)).conpos.toNat = (serTree T).length := Nat.mod_eq_of_lt (by omega)
  rw [hcursor, show (reread T (rewound s)).con.valid = serTree T ++ z from h, List.drop_left]

/-- The state in which EUNPACK has read the tree and the bit count. -/
def headerRead (T : Tree) (b : Word) (s : State) : State :=
  setBitcnt b.toNat (setConpos ((serTree T).length + 4) (reread T (rewound s)))

theorem eunpack_of_header (h : s.con.valid = serTree T ++ be32 b ++ y) (hT : treeSize T ≤ nodeCap) :
    eunpack s = readPayload b.toNat y (headerRead T b s) := by
  have hcon : s.con.valid = serTree T ++ (be32 b ++ y) := h.trans (List.append_assoc ..)
  have hlen : s.con.valid.length - y.length = (serTree T).length + 4 := by
    rw [h, List.length_append, Nat.add_sub_cancel, List.length_append]
    rfl
  rw [eunpack_of_tree hcon hT, readHeader_of_be32 (drop_conpos_reread hcon hT),
    show (reread T (rewound s)).con.valid.length - y.length = (serTree T).length + 4 from hlen]
  rfl

/-! ## The payload -/

theorem readPayload_of_lt {n : Nat} (h : y.length < ceil8 n) : readPayload n y s = .error (.raise .payloadTruncated) :=
  if_pos h

theorem readPayload_of_walk {n : Nat} (hn : ceil8 n ≤ y.length) (hT : rootTree s = .ok T)
    (hwalk : walkPayload T ((bitsMsb y).take n) s.cfg.preCap = .ok out) :
    readPayload n y s = .ok (setConpos (s.con.valid.length - y.length + ceil8 n) (setPre out s)) := by
  simp only [readPayload, if_neg (Nat.not_lt.mpr hn), hT, hwalk]

theorem readPayload_of_walk_error {n : Nat} {e : WalkError} (hn : ceil8 n ≤ y.length) (hT : rootTree s = .ok T)
    (hwalk : walkPayload T ((bitsMsb y).take n) s.cfg.preCap = .error e) :
    readPayload n y s = .error (.raise (walkCause e)) := by
  simp only [readPayload, if_neg (Nat.not_lt.mpr hn), hT, hwalk, raise]

/-- The state after EUNPACK of a container with this tree and bit count that holds these bytes. -/
def unpacked (T : Tree) (b : Word) (out : List Byte) (s : State) : State :=
  setConpos ((serTree T).length + 4 + ceil8 b.toNat) (setPre out (headerRead T b s))

@[simp] theorem unpacked_cause (T : Tree) (b : Word) (out : List Byte) (s : State) : (unpacked T b out s).cause = s.cause := by
  simp only [unpacked, headerRead, reread, setConpos_cause, setBitcnt_cause, setPre_cause, setArena_cause, rewound_cause]

@[simp] theorem unpacked_cfg (T : Tree) (b : Word) (out : List Byte) (s : State) : (unpacked T b out s).cfg = s.cfg := by
  simp only [unpacked, headerRead, reread, setConpos_cfg, setBitcnt_cfg, setPre_cfg, setArena_cfg, rewound_cfg]

theorem eunpack_of_walk (h : s.con.valid = serTree T ++ be32 b ++ y) (hT : treeSize T ≤ nodeCap)
    (hb : ceil8 b.toNat ≤ y.length) (hq : PayloadBits y b.toNat q) (hwalk : walkPayload T q s.cfg.preCap = .ok out) :
    eunpack s = .ok (unpacked T b out s) := by
  have hlen : (headerRead T b s).con.valid.length - y.length = (serTree T).length + 4 := by
    rw [show (headerRead T b s).con.valid = serTree T ++ be32 b ++ y from h, List.length_append, Nat.add_sub_cancel,
      List.length_append]
    rfl
  have htree : rootTree (headerRead T b s) = .ok T := (rootTree_reread (rewound s) hT).2
  rw [eunpack_of_header h hT, readPayload_of_walk hb htree (hq.take_eq.symm ▸ hwalk), hlen]
  rfl

theorem eunpack_of_walk_error {e : WalkError} (h : s.con.valid = serTree T ++ be32 b ++ y) (hT : treeSize T ≤ nodeCap)
    (hb : ceil8 b.toNat ≤ y.length) (hq : PayloadBits y b.toNat q) (hwalk : walkPayload T q s.cfg.preCap = .error e) :
    eunpack s = .error (.raise (walkCause e)) := by
  have htree : rootTree (headerRead T b s) = .ok T := (rootTree_reread (rewound s) hT).2
  rw [eunpack_of_header h hT, readPayload_of_walk_error hb htree (hq.take_eq.symm ▸ hwalk)]

theorem eunpack_of_container (h : s.con.valid = serTree T ++ be32 b ++ y) (hT : treeSize T ≤ nodeCap)
    (hb : ceil8 b.toNat ≤ y.length) (hq : PayloadBits y b.toNat q) (hout : Spells T out q)
    (hroom : out.length ≤ s.cfg.preCap) : eunpack s = .ok (unpacked T b out s) :=
  eunpack_of_walk h hT hb hq (walkPayload_of_spells hout hroom)

theorem completes_eunpack {P : State → Prop} (hs : s.cause = none) (h : eunpack s = .ok t) (ht : t.cause = none)
    (hP : P t) : Completes (exec .eunpack s) P :=
  completes_of_ok (ws := writesEunpack) (body := eunpack) hs h ht hP

/-- Settles O49: the tree, the bit count and the payload are read one after the other, and the walk gives the bytes that
the payload spells. -/
theorem eunpackDecodesTheContainer : Obligations.EunpackDecodesTheContainer := by
  refine ⟨fun s hs hnil => ?_, fun s T b y q out hs hcon hT hb hq hout hroom => ?_⟩
  · exact completes_eunpack hs (eunpack_of_nil hnil) hs ⟨rfl, rfl, rfl, rfl, rfl⟩
  · have hbits : BitVec.ofNat 32 b.toNat = b := (BitVec.ofNat_toNat 32 b).trans (BitVec.setWidth_eq b)
    exact completes_eunpack hs (eunpack_of_container hcon hT hb hq hout hroom) ((unpacked_cause T b out s).trans hs)
      ⟨rfl, hbits, treeAt_arenaFrom_zero T hT, rfl, rfl⟩

/-! ## Faults -/

/-- A fault's code and sub-reason depend on its cause only. -/
theorem Faulted.of_cause_eq {t' : State} {o o' : Host.Outcome State Fault Refusal} (h : Faulted code info o)
    (ho : o = .next t) (ho' : o' = .next t') (hcause : t'.cause = t.cause) : Faulted code info o' := by
  obtain ⟨u, hu, hsome, hcode, hinfo⟩ := h
  cases ho.symm.trans hu
  unfold faultField at hcode
  unfold finfoWord at hinfo
  exact ⟨t', ho', hcause ▸ hsome, by rwa [faultField, hcause], by rwa [finfoWord, hcause]⟩

/-- A fault that a command ends in, none being recorded before, was raised by its body. -/
theorem Faulted.exists_raise {ws : List Res} {body : State → Except Stop State} (hs : s.cause = none)
    (hbody : ∀ {t}, body s = .ok t → t.cause = s.cause) (h : Faulted code info (runCommand ws body s)) :
    ∃ c, body s = .error (.raise c) := by
  obtain ⟨t, ht, hsome, -⟩ := h
  obtain ⟨hc, -⟩ | ⟨-, hok⟩ | ⟨-, c, hraise, -⟩ := runCommand_next ht
  · rw [hs] at hc
    cases hc
  · rw [hbody hok, hs] at hsome
    cases hsome
  · exact ⟨c, hraise⟩

theorem tdes_error_iff {c : Cause} : tdes s = .error (.raise c) ↔
    ∃ e, parseTree (s.con.valid.drop s.conpos.toNat) = .error e ∧ treeCause e = c := by
  unfold tdes
  cases parseTree (s.con.valid.drop s.conpos.toNat) <;> simp [raise]

/-- EUNPACK begins with TDES at the start of CON. -/
theorem faulted_eunpack_of_tdes (hs : s.cause = none) (hne : s.con.valid ≠ [])
    (h : Faulted code info (exec .tdes { s with conpos := 0 })) : Faulted code info (exec .eunpack s) := by
  obtain ⟨c, hc⟩ := Faulted.exists_raise (s := { s with conpos := 0 }) (ws := writesTdes) (body := tdes) hs
    (fun hok => by obtain ⟨-, -, -, rfl⟩ := tdes_ok hok; rfl) h
  obtain ⟨e, he, rfl⟩ := tdes_error_iff.mp hc
  have htdes : tdes (rewound s) = .error (.raise (treeCause e)) := tdes_error_iff.mpr ⟨e, he, rfl⟩
  have heunpack : eunpack s = .error (.raise (treeCause e)) := by rw [eunpack_eq_bind hne, htdes]; rfl
  exact h.of_cause_eq (runCommand_of_raise (ws := writesTdes) hs hc)
    (runCommand_of_raise (ws := writesEunpack) hs heunpack) rfl

/-- Settles O50: the tree as TDES reads it, the header, the payload's presence, and the three ends of the walk. -/
theorem eunpackFaults : Obligations.EunpackFaults := by
  refine ⟨fun s code info hs hne h => faulted_eunpack_of_tdes hs hne h, fun s T z hs hcon hT hz => ?_,
    fun s T b y hs hcon hT hy => ?_, fun s v b y q k hs hcon hb hq hone hzero hroom => ?_,
    fun s T b y c rest out hs hcon hT hb hq hout hfull => ?_,
    fun s T b y c rest out l r hs hcon hT hb hq hout hroom hrest hfollow => ?_⟩
  · have hheader := readHeader_of_lt (s := reread T (rewound s)) (by rwa [drop_conpos_reread hcon hT])
    exact faulted_of_raise (c := .headerTruncated) hs ((eunpack_of_tree hcon hT).trans hheader)
  · exact faulted_of_raise (c := .payloadTruncated) hs ((eunpack_of_header hcon hT).trans (readPayload_of_lt hy))
  · have hleaf : treeSize (.leaf v) ≤ nodeCap := show 1 ≤ 511 by decide
    exact faulted_of_raise hs (eunpack_of_walk_error hcon hleaf hb hq (walkPayload_of_oneBit hone hzero hroom))
  · exact faulted_of_raise hs (eunpack_of_walk_error hcon hT hb hq (walkPayload_of_full hout (by omega)))
  · exact faulted_of_raise hs
      (eunpack_of_walk_error hcon hT hb hq (walkPayload_of_partial hout hroom hrest hfollow))

end Sys2Proof.Safety
end

section
/-! PROOFS. EPACK (46_entropy.md R250 to R255): the tree that it builds has a code table, the codes of the bytes in PRE spell
those bytes, and tree, bit count and payload make the container, which EUNPACK reads back (R263). -/

namespace Sys2Proof.Safety

open Machine

variable {s : State} {T : Tree} {c : Vector Code 256} {v : Byte} {y : List Byte} {q : List Bit} {n : Nat}

/-! ## The tree and the codes -/

@[simp] theorem treeBuilt_cause (s : State) : (treeBuilt s).cause = s.cause := rfl

/-- The tree that EPACK builds for the bytes in PRE, and the code table that it reads off it (R250). -/
structure IsCoding (s : State) (T : Tree) (c : Vector Code 256) : Prop where
  node_ne : (treeBuilt s).node ≠ []
  tree : rootTree (treeBuilt s) = .ok T
  leaves : (leafValues T).Perm (valuesOf s.pre.valid)
  codes : codesOf T = .ok c

theorem exists_isCoding (hpre : s.pre.valid ≠ []) (hlen : s.pre.valid.length < 2 ^ 32) : ∃ T c, IsCoding s T c := by
  obtain ⟨T, c, hn, hT, hperm, hc, -⟩ := rootTree_treeBuilt hpre hlen
  exact ⟨T, c, hn, hT, hperm, hc⟩

theorem tableAt_eq_some_iff_isCode (hc : codesOf T = .ok c) : tableAt c v = some q ↔ IsCode T v q := by
  obtain ⟨c', hc', hcodes⟩ := codesOf_iff_isCode (nodup_of_codesOf hc)
  cases hc.symm.trans hc'
  exact hcodes v q

/-- The codes of bytes that stand in the tree's leaves spell the bytes (R252). -/
theorem spells_codedBits (hc : codesOf T = .ok c) (hy : ∀ v ∈ y, v ∈ leafValues T) : Spells T y (codedBits c y) := by
  obtain ⟨_, hc', -, hin⟩ := codesOf_of_nodup (nodup_of_codesOf hc)
  cases hc.symm.trans hc'
  induction y with
  | nil => rfl
  | cons v y ih =>
    obtain ⟨hv, hy⟩ := List.forall_mem_cons.mp hy
    obtain ⟨q, hq, hcode⟩ := hin v hv
    exact ⟨q, codedBits c y, by rw [codedBits, List.flatMap_cons, hq]; rfl, hcode, ih hy⟩

theorem IsCoding.spells (hcoding : IsCoding s T c) : Spells T s.pre.valid (codedBits c s.pre.valid) :=
  spells_codedBits hcoding.codes fun _ hv => hcoding.leaves.mem_iff.mpr (mem_valuesOf.mpr hv)

theorem IsCoding.length_leafValues_le (hcoding : IsCoding s T c) : (leafValues T).length ≤ 256 :=
  hcoding.leaves.length_eq ▸ length_valuesOf_le _

theorem IsCoding.treeSize_le (hcoding : IsCoding s T c) : treeSize T ≤ nodeCap := by
  have := treeSize_add_one T
  have := hcoding.length_leafValues_le
  unfold nodeCap
  omega

theorem IsCoding.length_codedBits_le (hcoding : IsCoding s T c) :
    (codedBits c s.pre.valid).length ≤ 255 * s.pre.valid.length :=
  Safety.length_codedBits_le (fun v q hq => ((goodCodes_codesOf hcoding.codes).1 v q hq).2) _

/-- R9's capacity has room for the largest tree, 767 bytes, the bit count, and codes of 255 bits. -/
theorem IsCoding.length_le (hcoding : IsCoding s T c) :
    (serTree T).length + 4 + ceil8 (codedBits c s.pre.valid).length ≤ 771 + ceil8 (255 * s.pre.valid.length) := by
  have := length_serTree T
  have := hcoding.length_leafValues_le
  have := ceil8_le_ceil8 hcoding.length_codedBits_le
  omega

/-- HBUILD on its own builds the same tree as EPACK, and CTAB reads the same codes off it. -/
theorem IsCoding.ctab_built (hcoding : IsCoding s T c) : ctab (built s) = .ok (setCode c (built s)) :=
  ctab_of_tree (s := built s) hcoding.node_ne hcoding.tree hcoding.codes

theorem exec_hbuild_of_none (hs : s.cause = none) : exec .hbuild s = .next (built s) :=
  runCommand_of_ok (ws := writesHbuild) (body := hbuild) hs rfl

theorem exec_ctab_built (hs : s.cause = none) (hcoding : IsCoding s T c) :
    exec .ctab (built s) = .next (setCode c (built s)) :=
  runCommand_of_ok (ws := writesCtab) (s := built s) hs hcoding.ctab_built

/-! ## The container -/

/-- The state in which EPACK appends the payload: the codes are there, and CON holds the tree. -/
def treeWritten (T : Tree) (c : Vector Code 256) (s : State) : State :=
  setCon (serTree T) (setCode c (treeBuilt s))

theorem epack_eq_bind (hpre : s.pre.valid ≠ []) (hcoding : IsCoding s T c) :
    epack s = (tser (setCode c (treeBuilt s))).bind appendPayload := by
  have hpre' : (setCode c (treeBuilt s)).pre.valid ≠ [] := hpre
  simp only [epack, hbuild_cleared, ctab_of_tree hcoding.node_ne hcoding.tree hcoding.codes, if_neg hpre']
  cases tser (setCode c (treeBuilt s)) <;> rfl

theorem epack_of_tree (hpre : s.pre.valid ≠ []) (hcoding : IsCoding s T c) (hl : (serTree T).length ≤ s.cfg.conCap) :
    epack s = appendPayload (treeWritten T c s) := by
  have hser : tser (setCode c (treeBuilt s)) = .ok (treeWritten T c s) :=
    tser_of_tree hcoding.node_ne hcoding.tree (show 0 + (serTree T).length ≤ s.cfg.conCap by omega)
  rw [epack_eq_bind hpre hcoding, hser]
  rfl

theorem epack_of_tree_lt (hpre : s.pre.valid ≠ []) (hcoding : IsCoding s T c)
    (hl : s.cfg.conCap < (serTree T).length) : epack s = .error (.raise .capCon) := by
  have hser : tser (setCode c (treeBuilt s)) = .error (.raise .capCon) :=
    tser_of_lt hcoding.node_ne hcoding.tree (show s.cfg.conCap < 0 + (serTree T).length by omega)
  rw [epack_eq_bind hpre hcoding, hser]
  rfl

theorem appendPayload_of_bits_le (hbits : 2 ^ 32 ≤ (codedBits s.code s.pre.valid).length) :
    appendPayload s = .error (.raise .capBitCount) := if_pos hbits

theorem appendPayload_of_lt (hbits : (codedBits s.code s.pre.valid).length < 2 ^ 32)
    (hl : s.cfg.conCap < s.con.valid.length + 4 + ceil8 (codedBits s.code s.pre.valid).length) :
    appendPayload s = .error (.raise .capCon) := by
  have hbe (w : Word) : (be32 w).length = 4 := rfl
  have hcon := appendCon_of_lt (s := s) (y := be32 (BitVec.ofNat 32 (codedBits s.code s.pre.valid).length) ++
    bytesMsb (codedBits s.code s.pre.valid)) (by simpa [hbe, ← Nat.add_assoc] using hl)
  simp only [appendPayload, if_neg (Nat.not_le.mpr hbits), hcon]

/-- The state after EPACK of some bytes. -/
def packed (T : Tree) (c : Vector Code 256) (s : State) : State :=
  setBitcnt (codedBits c s.pre.valid).length
    (setCon (serTree T ++ (be32 (BitVec.ofNat 32 (codedBits c s.pre.valid).length) ++ bytesMsb (codedBits c s.pre.valid)))
      (treeWritten T c s))

theorem epack_of_coding (hpre : s.pre.valid ≠ []) (hcoding : IsCoding s T c)
    (hbits : (codedBits c s.pre.valid).length < 2 ^ 32)
    (hl : (serTree T).length + 4 + ceil8 (codedBits c s.pre.valid).length ≤ s.cfg.conCap) :
    epack s = .ok (packed T c s) :=
  epack_of_le hpre hcoding.node_ne hcoding.tree hcoding.codes hbits hl

@[simp] theorem packed_cause (T : Tree) (c : Vector Code 256) (s : State) : (packed T c s).cause = s.cause := by
  simp only [packed, treeWritten, setBitcnt_cause, setCon_cause, setCode_cause, treeBuilt_cause]

theorem packed_con (T : Tree) (c : Vector Code 256) (s : State) :
    (packed T c s).con.valid = serTree T ++ be32 (packed T c s).bitcnt ++ bytesMsb (codedBits c s.pre.valid) :=
  (List.append_assoc ..).symm

theorem toNat_packed_bitcnt (hbits : (codedBits c s.pre.valid).length < 2 ^ 32) :
    (packed T c s).bitcnt.toNat = (codedBits c s.pre.valid).length := Nat.mod_eq_of_lt hbits

/-! ## One byte value -/

/-- A tree whose one leaf value is `v` is that leaf. -/
theorem eq_leaf_of_perm_singleton (hT : (leafValues T).Perm [v]) : T = .leaf v := by
  have hleaves : leafValues T = [v] := List.perm_singleton.mp hT
  cases T with
  | leaf w => rw [List.singleton_injective hleaves]
  | node l r =>
    have hl := List.length_pos_iff.mpr (leafValues_ne_nil l)
    have hr := List.length_pos_iff.mpr (leafValues_ne_nil r)
    have hlen : (leafValues l).length + (leafValues r).length = 1 := by
      rw [← List.length_append]
      exact congrArg List.length hleaves
    omega

theorem valuesOf_replicate (hn : 1 ≤ n) (v : Byte) : (valuesOf (List.replicate n v)).Perm [v] := by
  refine (List.perm_ext_iff_of_nodup (nodup_valuesOf _) (List.nodup_singleton v)).mpr fun w => ?_
  rw [mem_valuesOf, List.mem_replicate, List.mem_singleton, and_iff_right (Nat.one_le_iff_ne_zero.mp hn)]

/-- One leaf, which is the root (R206). -/
theorem buildArena_replicate (hn : 1 ≤ n) (hlt : n < 2 ^ 32) (v : Byte) :
    buildArena (freqOf (List.replicate n v)) = ([.leaf (BitVec.ofNat 32 n) v], 0) := by
  have hleaves : leavesOf (freqOf (List.replicate n v)) = [.leaf (BitVec.ofNat 32 n) v] := by
    rw [leavesOf_freqOf (by rwa [List.length_replicate]), List.perm_singleton.mp (valuesOf_replicate hn v),
      List.map_singleton, List.count_replicate_self]
  rw [buildArena, hleaves]
  rfl

theorem codedBits_replicate (hv : tableAt c v = some [false]) (n : Nat) :
    codedBits c (List.replicate n v) = List.replicate n false := by
  induction n with
  | zero => rfl
  | succ n ih =>
    rw [List.replicate_succ, codedBits, List.flatMap_cons, hv, ← codedBits, ih]
    rfl

theorem bytesMsb_replicate_false (n : Nat) : bytesMsb (List.replicate n false) = List.replicate (ceil8 n) 0x00 := by
  refine List.ext_getElem? fun k => ?_
  rw [getElem?_bytesMsb, List.getElem?_replicate, List.length_replicate, List.drop_replicate, List.take_replicate]
  have hzero : byteMsb ([] ++ List.replicate (min 8 (n - 8 * k)) false) = byteMsb [] := byteMsb_pad [] _ (by simp)
  rw [List.nil_append] at hzero
  rw [hzero]
  rfl

theorem IsCoding.eq_leaf (hcoding : IsCoding s T c) (hn : 1 ≤ n) (hpre : s.pre.valid = List.replicate n v) :
    T = .leaf v :=
  eq_leaf_of_perm_singleton (hcoding.leaves.trans (hpre ▸ valuesOf_replicate hn v))

/-! ## EPACK -/

/-- Settles O48: no bytes, R9's capacity, and bytes of one value, whose tree is a leaf and whose codes are the bit 0. -/
theorem epackWritesTheContainer : Obligations.EpackWritesTheContainer := by
  refine ⟨fun s hs hnil => ?_, fun s hs hpre hlen hcap => ?_, fun s n v hs hn hlt hpre hcap => ?_⟩
  · have hnode : (treeBuilt s).node = [] := (built_of_nil hnil).1
    have hfreq (v : Byte) : tableAt (freqOf s.pre.valid) v = 0 := by rw [tableAt_freqOf, hnil]; rfl
    exact completes_of_ok hs (epack_of_nil hnil) hs
      ⟨rfl, rfl, hnode, fun v => ⟨hfreq v, tableAt_tableOf _ v⟩⟩
  · obtain ⟨T, c, hcoding⟩ := exists_isCoding hpre (by omega)
    have hbits : (codedBits c s.pre.valid).length < 2 ^ 32 := hcoding.length_codedBits_le.trans_lt hlen
    refine completes_of_ok hs (epack_of_coding hpre hcoding hbits (hcoding.length_le.trans hcap))
      ((packed_cause T c s).trans hs) ⟨?_, T, _, _, treeAt_of_rootTree hcoding.tree, packed_con T c s, rfl,
        hcoding.spells, toNat_packed_bitcnt hbits, rfl, length_bytesMsb _, payloadBits_bytesMsb _⟩
    exact completes_hbuild hs (completes_of_ok hs hcoding.ctab_built hs ⟨rfl, rfl, rfl, rfl⟩)
  · have hlen : s.pre.valid.length = n := by rw [hpre, List.length_replicate]
    have hne : s.pre.valid ≠ [] := List.ne_nil_of_length_pos (by omega)
    obtain ⟨T, c, hcoding⟩ := exists_isCoding hne (by omega)
    obtain rfl := hcoding.eq_leaf hn hpre
    have hv : tableAt c v = some [false] := (tableAt_eq_some_iff_isCode hcoding.codes).mpr ⟨rfl, rfl⟩
    have hcoded : codedBits c s.pre.valid = List.replicate n false := hpre ▸ codedBits_replicate hv n
    have hcount : (codedBits c s.pre.valid).length = n := by rw [hcoded, List.length_replicate]
    have harena : buildArena (freqOf s.pre.valid) = ([.leaf (BitVec.ofNat 32 n) v], 0) :=
      hpre ▸ buildArena_replicate hn hlt v
    have hbitcnt : (packed (.leaf v) c s).bitcnt = BitVec.ofNat 32 n := congrArg (BitVec.ofNat 32) hcount
    have hcon := packed_con (.leaf v) c s
    rw [hbitcnt, hcoded, bytesMsb_replicate_false] at hcon
    refine completes_of_ok hs (epack_of_coding hne hcoding (by omega) (hcount.symm ▸ hcap))
      ((packed_cause _ c s).trans hs) ⟨hcon, hbitcnt, hv, congrArg Prod.fst harena, ?_⟩
    exact congrArg (BitVec.ofNat 32) (congrArg Prod.snd harena)

/-- Settles O51: TSER's fault comes first, then the bit count's, then that of header and payload. -/
theorem epackFaults : Obligations.EpackFaults := by
  intro s h c T coded hs hpre hlen hh hc hT hcoded
  obtain ⟨T', c', hcoding⟩ := exists_isCoding hpre hlen
  cases (exec_hbuild_of_none hs).symm.trans hh
  cases (exec_ctab_built hs hcoding).symm.trans hc
  cases (treeAt_of_rootTree hcoding.tree).symm.trans hT
  obtain rfl : coded = codedBits c' s.pre.valid := hcoded
  refine ⟨fun hl => ?_, fun hl hbits => ?_, fun hl hbits hroom => ?_⟩
  · exact faulted_of_raise hs (epack_of_tree_lt hpre hcoding hl)
  · exact faulted_of_raise (c := .capBitCount) hs
      ((epack_of_tree hpre hcoding hl).trans (appendPayload_of_bits_le hbits))
  · exact faulted_of_raise (c := .capCon) hs
      ((epack_of_tree hpre hcoding hl).trans (appendPayload_of_lt hbits hroom))

/-! ## EUNPACK after EPACK -/

/-- Settles O52: the container that EPACK writes holds the tree it built and bits that spell the bytes. -/
theorem eunpackInvertsEpack : Obligations.EunpackInvertsEpack := by
  intro s hs hlen hcap hroom
  by_cases hpre : s.pre.valid = []
  · have hcause : (setCode noCodes (treeBuilt s)).cause = none := by simpa using hs
    have hempty : (setCode noCodes (treeBuilt s)).con.valid = [] := rfl
    exact completes_of_ok hs (epack_of_nil hpre) hcause
      (completes_eunpack hcause (eunpack_of_nil hempty) hcause hpre.symm)
  · obtain ⟨T, c, hcoding⟩ := exists_isCoding hpre (by omega)
    have hbits : (codedBits c s.pre.valid).length < 2 ^ 32 := hcoding.length_codedBits_le.trans_lt hlen
    have hcause : (packed T c s).cause = none := (packed_cause T c s).trans hs
    have hcount := toNat_packed_bitcnt (T := T) hbits
    have heunpack := eunpack_of_container (packed_con T c s) hcoding.treeSize_le
      (by rw [hcount, length_bytesMsb]) (hcount.symm ▸ payloadBits_bytesMsb _) hcoding.spells hroom
    exact completes_of_ok hs (epack_of_coding hpre hcoding hbits (hcoding.length_le.trans hcap)) hcause
      (completes_eunpack hcause heunpack ((unpacked_cause ..).trans hcause) rfl)

end Sys2Proof.Safety
end

section
/-! PROOFS. DECOMPRESS (47_pipeline.md R279): EUNPACK, UNPACK and REPLAY, each with room for what it writes. -/

namespace Sys2Proof.Safety

open Machine

variable {s t u v : State}

theorem decompress_of_stages (ht : eunpack s = .ok t) (hu : unpack t = .ok u) (hv : replay u = .ok v) :
    decompress s = .ok v := by
  simp only [decompress, ht, hu, hv]

/-- No bits hold no records, and no records replay to no text (R257, R283). -/
theorem cutsInto_nil : CutsInto [] [] false 0 := ⟨[], [], rfl, .inl ⟨by decide, rfl, rfl, rfl⟩⟩

theorem decompress_of_nil (h : s.con.valid = []) :
    decompress s = .ok (setOor false (setTxt [] (setTrunc false (setBitpos 0 (setTok [] (setBit []
      (setArena [] 0 (rewound s)))))))) :=
  decompress_of_stages (eunpack_of_nil h)
    (unpack_of_cutsInto (s := setArena [] 0 (rewound s)) (Nat.zero_le _) cutsInto_nil (Nat.zero_le _))
    (replay_of_le (O := []) ⟨rfl, rfl⟩ (Nat.zero_le _))

theorem completes_stages {P Q R : State → Prop} (hs : s.cause = none) (ht : eunpack s = .ok t) (htc : t.cause = none)
    (hu : unpack t = .ok u) (huc : u.cause = none) (hv : replay u = .ok v) (hvc : v.cause = none) (hP : P t) (hQ : Q u)
    (hR : R v) :
    Completes (exec .eunpack s) fun t => P t ∧ Completes (exec .unpack t) fun u => Q u ∧
      Completes (exec .replay u) fun v => exec .decompress s = .next v ∧ R v :=
  completes_eunpack hs ht htc ⟨hP, completes_of_ok (ws := writesUnpack) htc hu huc ⟨hQ,
    completes_of_ok (ws := writesReplay) huc hv hvc
      ⟨runCommand_of_ok (ws := writesDecompress) hs (decompress_of_stages ht hu hv), hR⟩⟩⟩

/-- Settles O55: each stage leaves in its buffer what the next one reads. -/
theorem decompressCompletes : Obligations.DecompressCompletes := by
  refine ⟨fun s hs hnil => completes_of_ok hs (decompress_of_nil hnil) (by simpa) ⟨rfl, rfl, rfl, rfl, rfl⟩,
    fun s T b y q out rs truncated consumed O oor hs hcon hT hb hq hout hpre hbit hcut htok hreplays htxt => ?_⟩
  obtain ⟨t, ht, hcause, hcfg, rfl⟩ : ∃ t, eunpack s = .ok t ∧ t.cause = none ∧ t.cfg = s.cfg ∧ t.pre.valid = out :=
    ⟨_, eunpack_of_container hcon hT hb hq hout hpre, by simpa, unpacked_cfg T b out s, rfl⟩
  rw [← hcfg] at hbit htok htxt
  exact completes_stages hs ht hcause (unpack_of_cutsInto hbit hcut htok) hcause (replay_of_le hreplays htxt) hcause
    rfl rfl ⟨isStripOf_strip O, rfl, rfl⟩

end Sys2Proof.Safety
end

section
/-! PROOFS. That every command ends (47_pipeline.md R285): the one thing a body can stop at for good is the walk of the arena,
and an arena as 10_state.md R38 says is walked to its end. -/

namespace Sys2Proof.Safety

open Machine

variable {α β : Type} {s : State}

/-! ## Results that are no stop for good -/

/-- A value or a fault of the engine: not a stop for good. -/
def NeverStuck (x : Except Stop α) : Prop := ∀ f, x ≠ .error (.stuck f)

theorem neverStuck_ok (a : α) : NeverStuck (.ok a) := fun _ h => nomatch h

theorem neverStuck_raise (c : Cause) : NeverStuck (raise c : Except Stop α) := fun _ h => nomatch h

/-- What a body passes on from one of its parts that failed. -/
theorem NeverStuck.error {x : Except Stop α} {e : Stop} (hx : NeverStuck x) (h : x = .error e) :
    NeverStuck (.error e : Except Stop β) := by
  rintro f hf
  cases hf
  exact hx f h

theorem NeverStuck.ite {p : Prop} [Decidable p] {x y : Except Stop α} (hx : p → NeverStuck x) (hy : ¬ p → NeverStuck y) :
    NeverStuck (if p then x else y) := by
  split
  · exact hx ‹_›
  · exact hy ‹_›

/-- A command answers a next state, refused or not, unless its body stops for good. -/
theorem runCommand_ends {ws : List Res} {body : State → Except Stop State} (h : s.cause = none → NeverStuck (body s)) :
    ∃ t, runCommand ws body s = .next t := by
  cases hs : s.cause with
  | some c => exact ⟨s, runCommand_of_isSome (by simp [hs])⟩
  | none =>
    cases hb : body s with
    | ok t => exact ⟨t, runCommand_of_ok hs hb⟩
    | error e =>
      cases e with
      | raise c => exact ⟨_, runCommand_of_raise hs hb⟩
      | stuck f => exact absurd hb (h hs f)

/-! ## The bodies that walk no arena -/

theorem neverStuck_appended (cap : Nat) (c : Cause) (xs ys : List α) : NeverStuck (appended cap c xs ys) :=
  .ite (fun _ => neverStuck_ok _) fun _ => neverStuck_raise c

theorem neverStuck_appendTok (r : Rec) (s : State) : NeverStuck (appendTok r s) := by
  unfold appendTok
  split
  · exact neverStuck_ok _
  · exact (neverStuck_appended _ _ _ _).error ‹_›

theorem neverStuck_appendBit (q : List Bit) (s : State) : NeverStuck (appendBit q s) := by
  unfold appendBit
  split
  · exact neverStuck_ok _
  · exact (neverStuck_appended _ _ _ _).error ‹_›

theorem neverStuck_appendCon (y : List Byte) (s : State) : NeverStuck (appendCon y s) := by
  unfold appendCon
  split
  · exact neverStuck_ok _
  · exact (neverStuck_appended _ _ _ _).error ‹_›

theorem neverStuck_posOperand (s : State) : NeverStuck (posOperand s) :=
  .ite (fun _ => neverStuck_ok _) fun _ => neverStuck_raise _

theorem neverStuck_bitposOperand (s : State) : NeverStuck (bitposOperand s) :=
  .ite (fun _ => neverStuck_ok _) fun _ => neverStuck_raise _

theorem neverStuck_find (s : State) : NeverStuck (find s) := by
  unfold find
  split
  · exact (neverStuck_posOperand s).error ‹_›
  · split
    · exact (neverStuck_appendTok _ _).error ‹_›
    · exact neverStuck_ok _

theorem neverStuck_tdec (s : State) : NeverStuck (tdec s) := by
  unfold tdec
  split
  · exact (neverStuck_bitposOperand s).error ‹_›
  · split
    · exact (neverStuck_appendTok _ _).error ‹_›
    · exact neverStuck_ok _

theorem neverStuck_tokOperand (idx : Nat) (s : State) : NeverStuck (tokOperand idx s) := by
  unfold tokOperand
  split
  · exact neverStuck_ok _
  · exact neverStuck_raise _

theorem neverStuck_tenc (idx : Nat) (s : State) : NeverStuck (tenc idx s) := by
  unfold tenc
  split
  · exact (neverStuck_tokOperand idx s).error ‹_›
  · exact neverStuck_appendBit _ _

theorem neverStuck_tokenizeFrom (c : Params) (T : List Sym) (fuel p room : Nat) :
    NeverStuck (tokenizeFrom c T fuel p room) := by
  induction fuel generalizing p room with
  | zero => exact neverStuck_ok _
  | succ fuel ih =>
    refine .ite (fun _ => ?_) fun _ => neverStuck_ok _
    cases room with
    | zero => exact neverStuck_raise _
    | succ room =>
      dsimp only
      split
      · exact (ih _ _).error ‹_›
      · exact neverStuck_ok _

theorem neverStuck_tokenize (s : State) : NeverStuck (tokenize s) := by
  unfold tokenize
  split
  · exact (neverStuck_tokenizeFrom _ _ _ _ _).error ‹_›
  · exact neverStuck_ok _

theorem neverStuck_b2y (s : State) : NeverStuck (b2y s) :=
  .ite (fun _ => neverStuck_ok _) fun _ => neverStuck_raise _

theorem neverStuck_y2b (s : State) : NeverStuck (y2b s) :=
  .ite (fun _ => neverStuck_ok _) fun _ => neverStuck_raise _

theorem neverStuck_packBits (cap : Nat) (rs : List Rec) (q : List Bit) : NeverStuck (packBits cap rs q) := by
  induction rs generalizing q with
  | nil => exact neverStuck_ok _
  | cons r rs ih =>
    unfold packBits
    split
    · exact (neverStuck_appended _ _ _ _).error ‹_›
    · exact ih _

theorem neverStuck_pack (s : State) : NeverStuck (pack s) := by
  unfold pack
  split
  · exact (neverStuck_packBits _ _ _).error ‹_›
  · exact neverStuck_b2y _

theorem neverStuck_unpackFrom (fuel : Nat) (q : List Bit) (room : Nat) : NeverStuck (unpackFrom fuel q room) := by
  induction fuel generalizing q room with
  | zero => exact neverStuck_ok _
  | succ fuel ih =>
    refine .ite (fun _ => ?_) fun _ => neverStuck_ok _
    cases room with
    | zero => exact neverStuck_raise _
    | succ room =>
      refine .ite (fun _ => neverStuck_ok _) fun _ => ?_
      split
      · exact (ih _ _).error ‹_›
      · exact neverStuck_ok _

theorem neverStuck_unpack (s : State) : NeverStuck (unpack s) := by
  unfold unpack
  split
  · exact (neverStuck_y2b s).error ‹_›
  · split
    · exact (neverStuck_unpackFrom _ _ _).error ‹_›
    · exact neverStuck_ok _

theorem neverStuck_emit (cap : Nat) (x : Sym) (a : Replayed) : NeverStuck (emit cap x a) := by
  unfold emit
  split
  · exact (neverStuck_appended _ _ _ _).error ‹_›
  · exact neverStuck_ok _

theorem neverStuck_copyRun (cap n : Nat) (idx : Int) (a : Replayed) : NeverStuck (copyRun cap n idx a) := by
  induction n generalizing idx a with
  | zero => exact neverStuck_ok _
  | succ n ih =>
    unfold copyRun
    split
    · exact ih _ _
    · split
      · exact (neverStuck_emit _ _ _).error ‹_›
      · exact ih _ _

theorem neverStuck_replayRec (cap : Nat) (r : Rec) (a : Replayed) : NeverStuck (replayRec cap r a) := by
  unfold replayRec
  split
  · exact (neverStuck_copyRun _ _ _ _).error ‹_›
  · exact .ite (fun _ => neverStuck_ok _) fun _ => neverStuck_emit _ _ _

theorem neverStuck_replayRecs (cap : Nat) (rs : List Rec) (a : Replayed) : NeverStuck (replayRecs cap rs a) := by
  induction rs generalizing a with
  | nil => exact neverStuck_ok _
  | cons r rs ih =>
    unfold replayRecs
    split
    · exact (neverStuck_replayRec _ _ _).error ‹_›
    · exact ih _

theorem neverStuck_replay (s : State) : NeverStuck (replay s) := by
  unfold replay
  split
  · exact (neverStuck_replayRecs _ _ _).error ‹_›
  · exact neverStuck_ok _

theorem neverStuck_tdes (s : State) : NeverStuck (tdes s) := by
  unfold tdes
  split
  · exact neverStuck_raise _
  · exact neverStuck_ok _

/-! ## The walks of the arena -/

/-- Where the walk of the indices ends, a tree is read. -/
theorem exists_treeAt_of_visits {nodes : List Node} {fuel i : Nat} {ixs : List Nat} (h : visits nodes fuel i = some ixs) :
    ∃ T, treeAt nodes fuel i = some T := by
  induction fuel generalizing i ixs with
  | zero => cases h
  | succ fuel ih =>
    unfold visits at h
    cases hi : nodes[i]? with
    | none => rw [hi] at h; cases h
    | some node =>
      rw [hi] at h
      cases node with
      | leaf w v => exact ⟨.leaf v, by simp only [treeAt, hi]⟩
      | internal w l r =>
        dsimp only at h
        split at h
        · rename_i xs ys hl hr
          obtain ⟨L, hL⟩ := ih hl
          obtain ⟨R, hR⟩ := ih hr
          exact ⟨.node L R, by simp only [treeAt, hi, hL, hR]⟩
        · cases h

theorem neverStuck_rootTree (h : ArenaTree s.node s.root.toNat) (hne : s.node ≠ []) : NeverStuck (rootTree s) := by
  obtain ⟨-, htree⟩ := h
  obtain ⟨-, -, ixs, hvisits, -⟩ := htree hne
  obtain ⟨T, hT⟩ := exists_treeAt_of_visits hvisits
  rw [rootTree_of_treeAt hT]
  exact neverStuck_ok T

theorem neverStuck_codeWalk (T : Tree) (path : List Bit) (t : Vector Code 256) : NeverStuck (codeWalk T path t) := by
  induction T generalizing path t with
  | leaf v => exact .ite (fun _ => neverStuck_ok _) fun _ => neverStuck_raise _
  | node l r ihl ihr =>
    unfold codeWalk
    split
    · exact (ihl _ _).error ‹_›
    · exact ihr _ _

theorem neverStuck_codesOf (T : Tree) : NeverStuck (codesOf T) := by
  cases T with
  | leaf v => exact neverStuck_ok _
  | node l r => exact neverStuck_codeWalk _ _ _

theorem neverStuck_ctab (h : ArenaTree s.node s.root.toNat) : NeverStuck (ctab s) := by
  refine .ite (fun _ => neverStuck_ok _) fun hne => ?_
  split
  · exact (neverStuck_rootTree h hne).error ‹_›
  · split
    · exact (neverStuck_codesOf _).error ‹_›
    · exact neverStuck_ok _

theorem neverStuck_tser (h : ArenaTree s.node s.root.toNat) : NeverStuck (tser s) := by
  refine .ite (fun _ => neverStuck_ok _) fun hne => ?_
  split
  · exact (neverStuck_rootTree h hne).error ‹_›
  · exact neverStuck_appendCon _ _

theorem neverStuck_appendPayload (s : State) : NeverStuck (appendPayload s) := by
  refine .ite (fun _ => neverStuck_raise _) fun _ => ?_
  split
  · exact (neverStuck_appendCon _ _).error ‹_›
  · exact neverStuck_ok _

/-- EPACK walks the arena that it has built itself. -/
theorem neverStuck_epack (s : State) : NeverStuck (epack s) := by
  have hbuilt : ArenaTree (treeBuilt s).node (treeBuilt s).root.toNat := arenaTree_setArena _ (arenaTree_buildArena _)
  unfold epack
  rw [hbuild_cleared]
  dsimp only
  split
  · exact (neverStuck_ctab hbuilt).error ‹_›
  · rename_i c hc
    obtain ⟨codes, rfl⟩ := ctab_ok hc
    refine .ite (fun _ => neverStuck_ok _) fun _ => ?_
    split
    · have htree : ArenaTree (setCode codes (treeBuilt s)).node (setCode codes (treeBuilt s)).root.toNat := hbuilt
      exact (neverStuck_tser htree).error ‹_›
    · exact neverStuck_appendPayload _

theorem neverStuck_readPayload (h : ArenaTree s.node s.root.toNat) (hne : s.node ≠ []) (b : Nat) (y : List Byte) :
    NeverStuck (readPayload b y s) := by
  refine .ite (fun _ => neverStuck_raise _) fun _ => ?_
  split
  · exact (neverStuck_rootTree h hne).error ‹_›
  · split
    · exact neverStuck_raise _
    · exact neverStuck_ok _

theorem neverStuck_readHeader (h : ArenaTree s.node s.root.toNat) (hne : s.node ≠ []) : NeverStuck (readHeader s) := by
  unfold readHeader
  split
  · exact neverStuck_readPayload (s := setBitcnt _ (setConpos _ s)) h hne _ _
  · exact neverStuck_raise _

/-- EUNPACK walks the arena that TDES has filled. -/
theorem neverStuck_eunpack (s : State) : NeverStuck (eunpack s) := by
  by_cases hcon : s.con.valid = []
  · rw [eunpack_of_nil hcon]
    exact neverStuck_ok _
  · rw [eunpack_eq_bind hcon]
    cases hu : tdes (rewound s) with
    | error e => exact (neverStuck_tdes _).error hu
    | ok u =>
      obtain ⟨T, rest, hT, rfl⟩ := tdes_ok hu
      have hne : arenaFrom 0 T ≠ [] := List.ne_nil_of_length_pos (by rw [length_arenaFrom]; exact one_le_treeSize T)
      have htree : ArenaTree (arenaFrom 0 T) (0 : Word).toNat := arenaTree_arenaFrom (parseTree_ok hT).2
      exact neverStuck_readHeader (s := setConpos _ (setArena _ 0 (rewound s))) htree hne

theorem neverStuck_compress (s : State) : NeverStuck (compress s) := by
  unfold compress
  split
  · exact (neverStuck_tokenize s).error ‹_›
  · split
    · exact (neverStuck_pack _).error ‹_›
    · exact neverStuck_epack _

theorem neverStuck_decompress (s : State) : NeverStuck (decompress s) := by
  unfold decompress
  split
  · exact (neverStuck_eunpack s).error ‹_›
  · split
    · exact (neverStuck_unpack _).error ‹_›
    · exact neverStuck_replay _

/-! ## Instructions and steps -/

theorem exec_ends (i : Instr) (h : ArenaOk s) : ∃ t, exec i s = .next t := by
  cases i with
  | clr => exact ⟨_, rfl⟩
  | find => exact runCommand_ends fun _ => neverStuck_find s
  | tokenize => exact runCommand_ends fun _ => neverStuck_tokenize s
  | tenc arg => exact runCommand_ends fun _ => neverStuck_tenc _ s
  | tdec => exact runCommand_ends fun _ => neverStuck_tdec s
  | b2y => exact runCommand_ends fun _ => neverStuck_b2y s
  | y2b => exact runCommand_ends fun _ => neverStuck_y2b s
  | pack => exact runCommand_ends fun _ => neverStuck_pack s
  | unpack => exact runCommand_ends fun _ => neverStuck_unpack s
  | replay => exact runCommand_ends fun _ => neverStuck_replay s
  | hbuild => exact runCommand_ends (ws := writesHbuild) (body := hbuild) fun _ => neverStuck_ok _
  | ctab => exact runCommand_ends fun hs => neverStuck_ctab (h hs)
  | tser => exact runCommand_ends fun hs => neverStuck_tser (h hs)
  | tdes => exact runCommand_ends fun _ => neverStuck_tdes s
  | epack => exact runCommand_ends fun _ => neverStuck_epack s
  | eunpack => exact runCommand_ends fun _ => neverStuck_eunpack s
  | compress => exact runCommand_ends fun _ => neverStuck_compress s
  | decompress => exact runCommand_ends fun _ => neverStuck_decompress s
  | recSimple | recExtended | treeLeaf | treeInternal | container => exact ⟨_, rfl⟩

/-- A step stops with a fault only where the instruction that it runs does. -/
theorem step_fault {f : Fault} (h : step s = .fault f) : ∃ i rest, exec i { s with pending := rest } = .fault f := by
  unfold step fetch at h
  cases hp : s.pending with
  | nil => rw [hp] at h; cases h
  | cons op rest =>
    rw [hp] at h
    dsimp only at h
    split at h
    · rename_i i u hu
      cases fetchOp_run hu
      exact ⟨i, rest, h⟩
    · cases h
    · cases h

/-- Settles O23: CTAB and TSER walk the arena that R38 speaks of; EPACK and EUNPACK walk one that they have just filled; no
other part of a body can stop. -/
theorem everyCommandEnds : Obligations.EveryCommandEnds := by
  refine ⟨fun i s h => exec_ends i h, fun s f h hf => ?_⟩
  obtain ⟨i, rest, hi⟩ := step_fault hf
  have hs : ArenaOk { s with pending := rest } := h
  obtain ⟨t, ht⟩ := exec_ends i hs
  cases ht.symm.trans hi

end Sys2Proof.Safety
end

section
/-! PROOFS. COMPRESS and DECOMPRESS (47_pipeline.md R277, R279, R281): their stages in order up to the first fault, and the
text that compressing and decompressing gives back. -/

namespace Sys2Proof.Safety

open Machine

variable {s t u : State} {ws : List Res} {body : State → Except Stop State}

/-! ## What a completed or faulted command did -/

/-- A command that answers a state with no fault recorded ran its body to the end. -/
theorem ok_of_runCommand (h : runCommand ws body s = .next t) (hs : s.cause = none) (ht : t.cause = none) :
    body s = .ok t := by
  obtain ⟨hsome, -⟩ | ⟨-, hok⟩ | ⟨-, c, -, rfl⟩ := runCommand_next h
  · rw [hs] at hsome
    cases hsome
  · exact hok
  · cases ht

/-- A command whose body keeps the record of a fault, and that answers a state with one recorded, has raised it. -/
theorem raise_of_runCommand (h : runCommand ws body s = .next t) (hs : s.cause = none)
    (hbody : ∀ {t}, body s = .ok t → QuietEffect s t) (ht : t.cause.isSome) :
    ∃ c, body s = .error (.raise c) ∧ t.cause = some c := by
  obtain ⟨hsome, -⟩ | ⟨-, hok⟩ | ⟨-, c, hraise, rfl⟩ := runCommand_next h
  · rw [hs] at hsome
    cases hsome
  · rw [(hbody hok).cause, hs] at ht
    cases ht
  · exact ⟨c, hraise, rfl⟩

/-! ## The stages -/

theorem compress_eq_bind (s : State) : compress s = (tokenize s).bind fun t => (pack t).bind epack := by
  unfold compress
  cases tokenize s with
  | error e => rfl
  | ok t => cases h : pack t <;> simp only [Except.bind, h]

theorem decompress_eq_bind (s : State) : decompress s = (eunpack s).bind fun t => (unpack t).bind replay := by
  unfold decompress
  cases eunpack s with
  | error e => rfl
  | ok t => cases h : unpack t <;> simp only [Except.bind, h]

/-- A command whose body is three bodies one after the other records the fault of the first that faults, and otherwise ends
as the last does. -/
theorem runCommand_bind_stages {ws₁ ws₂ ws₃ : List Res} {f g h : State → Except Stop State}
    (hbody : body s = (f s).bind fun t => (g t).bind h) (hf : ∀ {s t}, f s = .ok t → QuietEffect s t)
    (hg : ∀ {s t}, g s = .ok t → QuietEffect s t) (hh : ∀ {s t}, h s = .ok t → QuietEffect s t) (hs : s.cause = none)
    (ht : runCommand ws₁ f s = .next t) :
    (t.cause.isSome → ∃ z, runCommand ws body s = .next z ∧ z.cause = t.cause) ∧
    (t.cause = none → ∀ u, runCommand ws₂ g t = .next u →
      (u.cause.isSome → ∃ z, runCommand ws body s = .next z ∧ z.cause = u.cause) ∧
      (u.cause = none → ∀ v, runCommand ws₃ h u = .next v →
        ∃ z, runCommand ws body s = .next z ∧ z.cause = v.cause ∧ (v.cause = none → z = v))) := by
  have hraised {c : Cause} (hc : body s = .error (.raise c)) :
      ∃ z, runCommand ws body s = .next z ∧ z.cause = some c := ⟨_, runCommand_of_raise hs hc, rfl⟩
  refine ⟨fun htc => ?_, fun htc u hu => ⟨fun huc => ?_, fun huc v hv => ?_⟩⟩
  · obtain ⟨c, hc, htc'⟩ := raise_of_runCommand ht hs hf htc
    rw [htc']
    exact hraised (by rw [hbody, hc]; rfl)
  · have hft := ok_of_runCommand ht hs htc
    obtain ⟨c, hc, huc'⟩ := raise_of_runCommand hu htc hg huc
    rw [huc']
    exact hraised (by rw [hbody, hft, Except.bind, hc]; rfl)
  · have hlast : body s = h u := by
      rw [hbody, ok_of_runCommand ht hs htc, Except.bind, ok_of_runCommand hu htc huc, Except.bind]
    cases hvc : v.cause with
    | none => exact ⟨v, runCommand_of_ok hs (hlast.trans (ok_of_runCommand hv huc hvc)), hvc, fun _ => rfl⟩
    | some c =>
      obtain ⟨c', hc', hvc'⟩ := raise_of_runCommand hv huc hh (by rw [hvc]; rfl)
      obtain ⟨z, hz, hzc⟩ := hraised (hlast.trans hc')
      exact ⟨z, hz, hzc.trans (hvc'.symm.trans hvc), fun hnone => nomatch hnone⟩

/-- Settles O53: either body is its three stages' bodies one after the other, and none of them touches the record of a
fault. -/
theorem pipelineStagesInOrder : Obligations.PipelineStagesInOrder := by
  intro i j k whole hmem s t hs ht
  simp only [List.mem_cons, List.not_mem_nil, or_false, Prod.mk.injEq] at hmem
  obtain ⟨rfl, rfl, rfl, rfl⟩ | ⟨rfl, rfl, rfl, rfl⟩ := hmem
  · exact runCommand_bind_stages (compress_eq_bind s) quietEffect_tokenize quietEffect_pack quietEffect_epack hs ht
  · exact runCommand_bind_stages (decompress_eq_bind s) quietEffect_eunpack quietEffect_unpack quietEffect_replay hs ht

/-! ## There and back -/

/-- What PACK leaves in PRE when it succeeds: the bytes of the records' bits, which PRE holds (42_bitstream.md R172). -/
theorem pack_ok_pre (h : pack s = .ok t) :
    t.pre.valid = bytesLsb (s.tok.valid.flatMap encRec) ∧ t.pre.valid.length ≤ s.cfg.preCap := by
  obtain ⟨-, hb⟩ := pack_ok h
  obtain ⟨hl, rfl⟩ := b2y_ok hb
  exact ⟨rfl, (length_bytesLsb _).trans_le hl⟩

/-- Under R9's capacities EUNPACK gives back whatever bytes PRE can hold, once EPACK has coded them. -/
theorem epack_eunpack_of_capacities (hs : s.cause = none) (hcap : CapacitiesSuffice s.cfg)
    (hpre : s.pre.valid.length ≤ s.cfg.preCap) :
    Completes (exec .epack s) fun t => Completes (exec .eunpack t) fun u => u.pre.valid = s.pre.valid := by
  obtain ⟨-, -, -, hcon, hcoded⟩ := hcap
  have hbits := Nat.mul_le_mul_left 255 hpre
  exact eunpackInvertsEpack s hs (hbits.trans_lt hcoded)
    ((Nat.add_le_add_left (ceil8_le_ceil8 hbits) 771).trans hcon) hpre

/-- A container of the bytes that PACK makes of a text's records decompresses to the text (R281). -/
theorem decompress_of_packed {rs : List Rec} {T : List Sym} (ht : eunpack s = .ok t)
    (hpre : t.pre.valid = bytesLsb (rs.flatMap encRec)) (hbit : totalWidth rs + 7 ≤ t.cfg.bitCap)
    (htok : rs.length ≤ t.cfg.tokCap) (hreplays : Replays rs [] T false) (htxt : T.length ≤ t.cfg.txtCap) :
    ∃ u, decompress s = .ok u ∧ u.cause = t.cause ∧ IsStripOf T u.txt.valid ∧ u.trunc = false ∧ u.oor = false := by
  have hbytes : t.pre.valid.length = ceil8 (totalWidth rs) := by rw [hpre, length_bytesLsb, length_flatMap_encRec]
  have hcut : CutsInto (bitsLsb t.pre.valid) rs false (totalWidth rs) := hpre ▸ cutsInto_packed rs
  have hunpack := unpack_of_cutsInto (s := t) (by rw [hbytes, ceil8]; omega) hcut htok
  exact ⟨_, decompress_of_stages ht hunpack (replay_of_le hreplays htxt), rfl, isStripOf_strip T, rfl, rfl⟩

/-- Settles O56: EUNPACK gives back the bytes that EPACK coded, UNPACK cuts them into the records that PACK packed, and those
are the records of the text, which replay it. -/
theorem roundTrip : Obligations.RoundTrip := by
  intro s hs hwf hT htxt hcap hbit
  obtain ⟨t, ht, htc, u, hu, huc, v, hv, hvc, hcompress⟩ := compressCompletes s hs hwf htxt hcap
  obtain ⟨rs, htokenize, hrecs, hlen, hend⟩ := tokenize_records (htxt.trans hcap.1)
  cases (ok_of_runCommand ht hs htc).symm.trans htokenize
  obtain ⟨hpre, hprelen⟩ := pack_ok_pre (ok_of_runCommand hu htc huc)
  have hucfg : u.cfg = s.cfg := (exec_effect hu).cfg_eq
  obtain ⟨v', hv', -, w, hw, hwc, hwpre⟩ := epack_eunpack_of_capacities huc (hucfg ▸ hcap) (hucfg ▸ hprelen)
  cases hv.symm.trans hv'
  have hwcfg : w.cfg = s.cfg := ((exec_effect hw).cfg_eq.trans (exec_effect hv).cfg_eq).trans hucfg
  have hrslen : rs.length ≤ s.cfg.tokCap := (hlen.trans htxt).trans hcap.1
  have hwidth : totalWidth rs + 7 ≤ s.cfg.bitCap := by
    have := totalWidth_le rs
    omega
  have hreplays : Replays rs [] s.txt.valid false :=
    replays_of_recordsFrom hwf hT hrecs ((Nat.zero_add _).symm ▸ hend)
  obtain ⟨z, hz, hzc, hresult⟩ := decompress_of_packed (ok_of_runCommand hw hvc hwc) (hwpre.trans hpre)
    (hwcfg ▸ hwidth) (hwcfg ▸ hrslen) hreplays (hwcfg ▸ htxt)
  exact ⟨v, hcompress, hvc, completes_of_ok hvc hz (hzc.trans hwc) hresult⟩

end Sys2Proof.Safety
end

section
/-! PROOFS. Illegal and refused command words (60_exceptions.md R298, R302), and CLR (47_pipeline.md R275). -/

namespace Sys2Proof.Safety

open Machine

variable {s t : State} {w : Word} {rest : List HostOp} {i : Instr}

/-! ## Illegal command words -/

/-- The eighteen opcodes are that of TENC and those of format `N` (30_encoding.md R92). -/
theorem mem_commandOpcodes : ∀ op : Byte, op ∈ commandOpcodes ↔ op = tencOpcode ∨ (opcodeMap.lookup op).isSome := by
  decide

theorem decodeWord_of_unknown (h : w.extractLsb' 0 8 ∉ commandOpcodes) : decodeWord w = .error .unknownOpcode := by
  obtain ⟨htenc, hnone⟩ := not_or.mp ((mem_commandOpcodes _).not.mp h)
  simp only [decodeWord, if_neg htenc, Option.not_isSome_iff_eq_none.mp hnone]

/-- What a word with an opcode of format `N` decodes to: the argument must be 0 (R91). -/
theorem decodeWord_of_formatN (h : w.extractLsb' 0 8 ∈ commandOpcodes) (hne : w.extractLsb' 0 8 ≠ 0x20) :
    ∃ i, decodeWord w = if w.extractLsb' 8 24 = 0 then .ok i else .error .nonzeroArg := by
  obtain ⟨i, hi⟩ := Option.isSome_iff_exists.mp (((mem_commandOpcodes _).mp h).resolve_left hne)
  exact ⟨i, by simp only [decodeWord, tencOpcode, if_neg hne, hi]⟩

theorem exists_decodeWord (h : w.extractLsb' 0 8 ∈ commandOpcodes)
    (harg : w.extractLsb' 0 8 = 0x20 ∨ w.extractLsb' 8 24 = 0) : ∃ i, decodeWord w = .ok i := by
  by_cases htenc : w.extractLsb' 0 8 = 0x20
  · exact ⟨.tenc (w.extractLsb' 8 24), if_pos htenc⟩
  · obtain ⟨i, hi⟩ := decodeWord_of_formatN h htenc
    exact ⟨i, hi.trans (if_pos (harg.resolve_left htenc))⟩

theorem takeIllegal_of_none (c : Cause) (hs : s.cause = none) : takeIllegal c s = { s with cause := some c } := by
  simp [takeIllegal, hs]

theorem takeIllegal_of_isSome (c : Cause) (hs : s.cause.isSome) : takeIllegal c s = s := if_pos hs

theorem step_of_unknownOpcode (hp : s.pending = .regWrite 0 w :: rest) (h : decodeWord w = .error .unknownOpcode) :
    step s = .next (takeIllegal .unknownOpcode { s with pending := rest }) :=
  step_of_fetchOp_done hp (by simp only [fetchOp, if_true, fetchBytes, decode_leBytes, h])

theorem step_of_nonzeroArg (hp : s.pending = .regWrite 0 w :: rest) (h : decodeWord w = .error .nonzeroArg) :
    step s = .next (takeIllegal .nonzeroArg { s with pending := rest }) :=
  step_of_fetchOp_done hp (by simp only [fetchOp, if_true, fetchBytes, decode_leBytes, h])

/-- Settles O6: the decoder looks the opcode up before it looks at the argument. -/
theorem illegalWordsAreRecorded : Obligations.IllegalWordsAreRecorded := by
  refine ⟨fun s rest w hp hs hop => ⟨.unknownOpcode, rfl, rfl, ?_⟩,
    fun s rest w hp hs hop hne harg => ⟨.nonzeroArg, rfl, rfl, ?_⟩, fun w hop harg => ?_⟩
  · rw [step_of_unknownOpcode hp (decodeWord_of_unknown hop)]
    exact congrArg Host.Outcome.next (takeIllegal_of_none (s := { s with pending := rest }) _ hs)
  · obtain ⟨i, hi⟩ := decodeWord_of_formatN hop hne
    rw [step_of_nonzeroArg hp (hi.trans (if_neg harg))]
    exact congrArg Host.Outcome.next (takeIllegal_of_none (s := { s with pending := rest }) _ hs)
  · obtain ⟨i, hi⟩ := exists_decodeWord hop harg
    exact ⟨i, hi, decodeWord_ok hi⟩

/-! ## Refused commands -/

/-- Every command but CLR is a `runCommand`, which a recorded fault refuses. -/
theorem exec_of_isSome (hi : i.source = .command) (hne : i ≠ .clr) (hs : s.cause.isSome) : exec i s = .next s := by
  cases i with
  | clr => exact absurd rfl hne
  | recSimple | recExtended | treeLeaf | treeInternal | container => cases hi
  | hbuild => exact runCommand_of_isSome (ws := writesHbuild) (body := hbuild) hs
  | _ => exact runCommand_of_isSome hs

theorem step_of_decodeWord (hp : s.pending = .regWrite 0 w :: rest) (h : decodeWord w = .ok i) :
    step s = exec i { s with pending := rest } := stepRunsTheInstruction.1 s rest w i hp h

/-- A command word is one of CLR or of another command, or illegal in one of the two ways of R298. -/
theorem decodeWord_cases (w : Word) :
    (∃ i, decodeWord w = .ok i) ∨ decodeWord w = .error .unknownOpcode ∨ decodeWord w = .error .nonzeroArg := by
  by_cases hop : w.extractLsb' 0 8 ∈ commandOpcodes
  · by_cases harg : w.extractLsb' 0 8 = 0x20 ∨ w.extractLsb' 8 24 = 0
    · exact .inl (exists_decodeWord hop harg)
    · obtain ⟨hne, harg⟩ := not_or.mp harg
      obtain ⟨i, hi⟩ := decodeWord_of_formatN hop hne
      exact .inr (.inr (hi.trans (if_neg harg)))
  · exact .inr (.inl (decodeWord_of_unknown hop))

/-- Settles O7: of the command words only 1 is CLR's; a fault refuses every other command, and an illegal word records
nothing over it. -/
theorem faultRefusesEveryCommandButClr : Obligations.FaultRefusesEveryCommandButClr := by
  refine ⟨fun s rest w hp hs hw => ?_,
    fun s rest hp => step_of_decodeWord hp (decodeWord_encodeWord (i := .clr) rfl),
    fun s => ⟨rfl, fun n h3 h4 => ?_⟩, fun i s hi hne hs => exec_of_isSome hi hne hs⟩
  · have hkept (c : Cause) : takeIllegal c { s with pending := rest } = { s with pending := rest } :=
      takeIllegal_of_isSome c hs
    obtain ⟨i, hi⟩ | hunknown | hnonzero := decodeWord_cases w
    · obtain ⟨hsource, hword⟩ := decodeWord_ok hi
      have hne : i ≠ .clr := by
        rintro rfl
        exact hw hword.symm
      exact (step_of_decodeWord hp hi).trans (exec_of_isSome hsource hne hs)
    · rw [step_of_unknownOpcode hp hunknown, hkept]
    · rw [step_of_nonzeroArg hp hnonzero, hkept]
  · rw [(cleared_clearAll s).regRead, if_neg h3, if_neg h4]

/-! ## CLR -/

/-- CLR sets each length to 0, which touches no element (70_reset_and_hazards.md R329). -/
theorem sameElements_clearAll (s : State) : SameElements s (clearAll s) := fun j =>
  ⟨Buffer.elem_resize _ s.txt 0 j, Buffer.elem_resize _ s.tok 0 j, Buffer.elem_resize _ s.bit 0 j,
    Buffer.elem_resize _ s.pre 0 j, Buffer.elem_resize _ s.con 0 j⟩

/-- Settles O17: CLR is never refused, and what it leaves is cleared. -/
theorem clrClearsEveryRegister : Obligations.ClrClearsEveryRegister := by
  refine fun s => ⟨clearAll s, rfl, rfl, fun n => ?_, (cleared_clearAll s).tables, sameElements_clearAll s, rfl, rfl, rfl⟩
  rw [(cleared_clearAll s).regRead]
  by_cases h3 : n = 3
  · subst h3
    rfl
  · by_cases h4 : n = 4
    · subst h4
      rfl
    · simp [h3, h4]

end Sys2Proof.Safety
end

section
/-! PROOFS. The frames of COMPRESS and DECOMPRESS (47_pipeline.md R277, R279, 60_exceptions.md R297), and what presenting a
datum leaves unchanged (30_encoding.md R97, R101, R108). -/

namespace Sys2Proof.Safety

open Machine

variable {s t t' : State} {ws ws' : List Res}

/-! ## One command's stages -/

theorem Unchanged.mono (h : Unchanged ws s t) (hsub : ws ⊆ ws') : Unchanged ws' s t := by
  obtain ⟨hcfg, hpending, hreply, hcause, hsame⟩ := h
  exact ⟨hcfg, hpending, hreply, hcause, fun u hu => hsame u fun hmem => hu (hsub hmem)⟩

/-- Where a unit's whole buffer is the same, a later change that leaves the unit alone does so compared with the earlier
state too: the length is the same. -/
theorem sameRes_trans {u : Res} (h : sameRes s t (whole u)) (h' : sameRes t t' u) : sameRes s t' u := by
  cases u
  case node => exact ⟨h'.1.trans h.1, h'.2.trans h.2⟩
  case tokTail | bitTail | conTail =>
    simp only [sameRes, whole] at h h' ⊢
    rwa [h] at h'
  all_goals exact Eq.trans h' h

/-- One run after another that both write only what is listed; of a buffer that is listed, the elements below the old
length are listed too. -/
theorem Unchanged.trans (hws : ∀ u, whole u ∈ ws → u ∈ ws) (h : Unchanged ws s t) (h' : Unchanged ws t t') :
    Unchanged ws s t' := by
  obtain ⟨hcfg, hpending, hreply, hcause, hsame⟩ := h
  obtain ⟨hcfg', hpending', hreply', hcause', hsame'⟩ := h'
  refine ⟨hcfg'.trans hcfg, hpending'.trans hpending, hreply'.trans hreply, fun hs => ?_, fun u hu => ?_⟩
  · have ht := hcause hs
    exact (hcause' (ht ▸ hs)).trans ht
  · exact sameRes_trans (hsame _ fun hmem => hu (hws u hmem)) (hsame' u hu)

theorem unchanged_compress (h : compress s = .ok t) : Unchanged (writes .compress) s t := by
  have hws : ∀ u, whole u ∈ writes .compress → u ∈ writes .compress := fun u => by cases u <;> decide
  obtain ⟨u, v, hu, hv, hw⟩ := compress_ok h
  have hrecords : Unchanged (writes .compress) s u := (unchanged_tokenize hu).mono (by decide)
  have hbytes : Unchanged (writes .compress) u v := (unchanged_pack hv).mono (by decide)
  have hcontainer : Unchanged (writes .compress) v t := (unchanged_epack hw).mono (by decide)
  exact (hrecords.trans hws hbytes).trans hws hcontainer

theorem unchanged_decompress (h : decompress s = .ok t) : Unchanged (writes .decompress) s t := by
  have hws : ∀ u, whole u ∈ writes .decompress → u ∈ writes .decompress := fun u => by cases u <;> decide
  obtain ⟨u, v, hu, hv, hw⟩ := decompress_ok h
  have hbytes : Unchanged (writes .decompress) s u := (unchanged_eunpack hu).mono (by decide)
  have hrecords : Unchanged (writes .decompress) u v := (unchanged_unpack hv).mono (by decide)
  have htext : Unchanged (writes .decompress) v t := (unchanged_replay hw).mono (by decide)
  exact (hbytes.trans hws hrecords).trans hws htext

/-! ## Stores at the port -/

theorem elem_portStore_of_ne {α : Type} (free : Nat → Nat → α) {cap k j : Nat} (x : α) (b : Buffer α) (h : j ≠ k) :
    (portStore cap k x b).elem free j = b.elem free j := by
  by_cases hk : k < cap
  · rw [elem_portStore free x b hk, if_neg h]
  · rw [portStore_of_le x b (Nat.not_lt.mp hk)]

/-- Bytes stored one after the other, whether or not CON has room for them, touch no element before or behind them. -/
theorem elem_storeBytes_of_not_mem {y : List Byte} {k j : Nat} (h : j < k ∨ k + y.length ≤ j) :
    (storeBytes k y s).con.elem Config.freeCon j = s.con.elem Config.freeCon j := by
  induction y generalizing k s with
  | nil => rfl
  | cons x y ih =>
    rw [List.length_cons] at h
    exact (ih (by omega)).trans (elem_portStore_of_ne _ x s.con (by omega))

theorem storeBytes_eq (k : Nat) (y : List Byte) (s : State) : storeBytes k y s = { s with con := (storeBytes k y s).con } := by
  induction y generalizing k s with
  | nil => rfl
  | cons x y ih => exact ih (k + 1) (storeCon k x s)

theorem writeConLen_storeBytes_eq (n k : Nat) (y : List Byte) (s : State) :
    writeConLen n (storeBytes k y s) = { s with con := lengthWrite Config.freeCon s.cfg.conCap n (storeBytes k y s).con } := by
  rw [storeBytes_eq]
  rfl

/-! ## Presenting a datum -/

theorem unitWrite_presentRec (r : Rec) (s : State) : UnitWrite s .tok (presentRec r s) := .tok _ s.draw

theorem unitWrite_presentBytes (y : List Byte) (s : State) : UnitWrite s .con (presentBytes y s) := by
  rw [presentBytes, writeConLen_storeBytes_eq]
  exact .con _ s.draw

theorem unitWrite_loadCon (y : List Byte) (s : State) : UnitWrite s .con (loadCon y s) := by
  rw [loadCon, writeConLen_storeBytes_eq]
  exact .con _ s.draw

theorem elem_presentRec (r : Rec) {j : Nat} (h : j ≠ s.tok.valid.length) :
    (presentRec r s).tok.elem Config.freeRec j = s.tok.elem Config.freeRec j :=
  (elem_lengthWrite _ _ _ _ j).trans (elem_portStore_of_ne _ r s.tok h)

theorem elem_presentBytes {y : List Byte} {j : Nat} (h : j < s.con.valid.length ∨ s.con.valid.length + y.length ≤ j) :
    (presentBytes y s).con.elem Config.freeCon j = s.con.elem Config.freeCon j :=
  (elem_lengthWrite _ _ _ _ j).trans (elem_storeBytes_of_not_mem h)

theorem elem_loadCon {y : List Byte} {j : Nat} (h : y.length ≤ j) :
    (loadCon y s).con.elem Config.freeCon j = s.con.elem Config.freeCon j :=
  (elem_lengthWrite _ _ _ _ j).trans (elem_storeBytes_of_not_mem (.inr ((Nat.zero_add _).trans_le h)))

/-- A record at the end of TOK. -/
theorem presentRec_frame (r : Rec) (s : State) :
    Unchanged [.tok] s (presentRec r s) ∧ (presentRec r s).cause = s.cause ∧
      ∀ j, j ≠ s.tok.valid.length → (presentRec r s).tok.elem Config.freeRec j = s.tok.elem Config.freeRec j := by
  have hw : UnitWrite s (whole .tokTail) (presentRec r s) := unitWrite_presentRec r s
  exact ⟨hw.unchanged_of_tail (by decide) (fun j hj => elem_presentRec r hj.ne) (by decide), rfl,
    fun j hj => elem_presentRec r hj⟩

/-- Bytes at the end of CON. -/
theorem presentBytes_frame (y : List Byte) (s : State) :
    Unchanged [.con] s (presentBytes y s) ∧ (presentBytes y s).cause = s.cause ∧
      ∀ j, (j < s.con.valid.length ∨ s.con.valid.length + y.length ≤ j) →
        (presentBytes y s).con.elem Config.freeCon j = s.con.elem Config.freeCon j := by
  have hw : UnitWrite s (whole .conTail) (presentBytes y s) := unitWrite_presentBytes y s
  exact ⟨hw.unchanged_of_tail (by decide) (fun j hj => elem_presentBytes (.inl hj)) (by decide),
    quietEffect_presentBytes.cause, fun j hj => elem_presentBytes hj⟩

/-- Settles O60: the composite commands write what their stages write; a presented datum is stored and then its buffer's
length is written, which touches no element. -/
theorem pipelineAndDataFrames : Obligations.PipelineAndDataFrames := by
  refine ⟨fun i hi s t h => ?_, fun i hi s t h => ?_, fun i hi s t h => ?_, fun c s t h => ?_⟩
  · simp only [List.mem_cons, List.not_mem_nil, or_false] at hi
    obtain rfl | rfl := hi
    · exact unchanged_runCommand unchanged_compress (by decide) (by decide) h
    · exact unchanged_runCommand unchanged_decompress (by decide) (by decide) h
  · cases i with
    | recSimple d l b => cases h; exact presentRec_frame _ s
    | recExtended d l b0 b1 b2 => cases h; exact presentRec_frame _ s
    | _ => cases hi
  · cases i with
    | treeLeaf v => cases h; exact presentBytes_frame _ s
    | treeInternal => cases h; exact presentBytes_frame _ s
    | _ => cases hi
  · cases h
    exact ⟨(Unchanged.refl _ s).write (unitWrite_loadCon _ s) (List.Subset.refl _), quietEffect_loadCon.cause,
      fun j hj => elem_loadCon hj⟩

end Sys2Proof.Safety
end
